-- ==== Sys2Proof/Word.lean ====
section
/-! DEFINITION. The words of the block's interfaces (30_encoding.md R63, R68, R70; 00_scope.md R9).
Only names for fixed widths stand here; every field extraction is in Decode.lean and every bit-queue
computation in Machine/Operands.lean. -/

namespace Sys2Proof

/-- A byte of the source, of the trailing buffer or of the destination (R9). -/
abbrev Byte := BitVec 8

/-- The 32-bit command word `w[31:0]` (R63). -/
abbrev CommandWord := BitVec 32

/-- The 24-bit register-port word `u[23:0]` (R70). -/
abbrev RegPortWord := BitVec 24

end Sys2Proof
end

