-- ==== Sys2Proof/Config.lean ====
section
/-! DEFINITION. The implementation parameters of R7, when a set of them is legal (R8), their defaults, and
the two values the spec leaves free: how many bytes a short-reading source returns, and the bytes of a stream
without an end (R50). -/

namespace Sys2Proof

/-- The bit order of a BitRegister (R19). -/
inductive BitOrder where
  | lsbFirst
  | msbFirst
  deriving DecidableEq, Repr

/-- The parameters every register and command of one block shares (R7): `CAP`, `MAXREQ`, the trailing-byte
buffer `TB` (its length is `T`; an absent buffer is the empty one, R33) and `SRC_FULL_READ`. -/
structure Params where
  cap : Nat
  maxReq : Nat
  tb : List Byte
  srcFullRead : Bool
  deriving DecidableEq, Repr

/-- All the construction arguments of a block (R7): the register count `N`, the bit orders `ORDER`, and the
shared parameters. -/
structure Config where
  n : Nat
  orders : List BitOrder
  params : Params
  deriving DecidableEq, Repr

/-- `W_TOTAL`, the width of `TOTAL`, which R7 fixes at 64. -/
def Config.wTotal : Nat := 64

/-- R8's legality, with the upper bound on `N` of R7's range (log entry 3): `1 ≤ N ≤ 256`, an order for
every register, `MAXREQ + 7 ≤ CAP ≤ 64`, `T ≤ 65535`. -/
abbrev Config.Legal (c : Config) : Prop :=
  1 ≤ c.n ∧ c.n ≤ 256 ∧ c.orders.length = c.n ∧
    c.params.maxReq + 7 ≤ c.params.cap ∧ c.params.cap ≤ 64 ∧ c.params.tb.length ≤ 65535

/-- R7's values for this hardware: one `LSB_FIRST` register, `CAP = 64`, `MAXREQ = 32`, no trailing bytes,
a full-read source. -/
def Config.default : Config :=
  { n := 1
    orders := [.lsbFirst]
    params := { cap := 64, maxReq := 32, tb := [], srcFullRead := true } }

/-- R50 with `SRC_FULL_READ = false`: the count `j` a source read returns is a free draw. It may depend on
how many reads went before, on the request and on how many bytes remain (none: without end); nothing
constrains it here, and Machine/Ops.lean cuts it to R50's range (log entry 5). -/
opaque Config.shortReadCount : Nat → Nat → Option Nat → Nat

/-- R50's stream may be endless: byte `pos` of the endless stream number `stream`. Nothing constrains it, so a
claim about it holds of every endless stream (log entry 13). -/
opaque Config.endlessByte (stream pos : Nat) : Byte

end Sys2Proof
end

