-- ==== Sys2Proof/Syntax.lean ====
section
/-! DEFINITION. The instructions of spec/opcode_table.json, one constructor per row, and the words the
block's ports carry. Operands are plain numbers (R64: zero-extended, never signed, scaled or shifted);
WellFormed.lean says which numbers an encoding can hold. -/

namespace Sys2Proof

/-- The eight commands of the command port (R65) and the five operations of a register port (R71).

`port` of a register-port operation is the index of the BitRegister at whose port the word stands. It is
not a field of the 24-bit word: each BitRegister has a port of its own (R70). -/
inductive Instr where
  /-- PEEK `count` bits of register `reg` (R89). -/
  | peek (reg count : Nat)
  /-- DECODE `count` bits of register `reg` (R90). -/
  | decode (reg count : Nat)
  /-- ALIGN (R96). -/
  | align
  /-- READBYTES with room for `room` bytes (R98). -/
  | readBytes (room : Nat)
  /-- READBYTE (R99). -/
  | readByte
  /-- TOTALIN (R101). -/
  | totalIn
  /-- CLEAR (R102). -/
  | clear
  /-- RESET (R103). -/
  | reset
  /-- R.FEED of the byte `data` (R76). -/
  | rFeed (port : Nat) (data : Byte)
  /-- R.PEEK of `count` bits (R77). -/
  | rPeek (port count : Nat)
  /-- R.DISCARD of `count` bits (R78). -/
  | rDiscard (port count : Nat)
  /-- R.COUNT (R79). -/
  | rCount (port : Nat)
  /-- R.CLEAR (R80). -/
  | rClear (port : Nat)
  deriving DecidableEq, Repr

/-- One word presented to the block: on the command port (R63), or on the register port of one
BitRegister (R70). -/
inductive PortWord where
  | command (w : CommandWord)
  | regPort (port : Nat) (u : RegPortWord)
  deriving DecidableEq, Repr

/-- Why a word is no instruction (R66, R67, R72). The check of the word alone has these two outcomes;
the checks against the configuration (R66's last two) belong to the meanings of PEEK and DECODE. -/
inductive DecodeError where
  /-- The opcode is reserved: `E_USAGE(ILLEGAL_OPCODE)`. -/
  | illegalOpcode
  /-- A reserved or unused field is not 0: `E_USAGE(RESERVED_NONZERO)`. -/
  | reservedNonzero
  deriving DecidableEq, Repr

/-- The instructions of the command port, the only ones a host can send (R70: the host cannot reach a
register port). -/
def Instr.isCommand : Instr → Bool
  | .peek _ _ => true
  | .decode _ _ => true
  | .align => true
  | .readBytes _ => true
  | .readByte => true
  | .totalIn => true
  | .clear => true
  | .reset => true
  | .rFeed _ _ => false
  | .rPeek _ _ => false
  | .rDiscard _ _ => false
  | .rCount _ => false
  | .rClear _ => false

end Sys2Proof
end

