-- ==== Sys2Proof/Machine/State.lean ====
section
/-! DEFINITION. The state: the block's own (10_state.md R17), the construction parameters it carries
(R7, log entry 1), and the agents at its ports (00_scope.md R6): the host's words, the source, the
destination and the responses. Everything is plain data. -/

namespace Sys2Proof.Machine

/-- One BitRegister: its bit order, fixed at construction (R19), and its bit queue, front first (R18).
The bit count is the length of the queue and is not stored apart (R18). -/
structure BitReg where
  order : BitOrder
  q : List Bool
  deriving DecidableEq, Repr

/-- How long the source makes one read wait before it returns (R51, log entry 6). -/
inductive Wait where
  /-- The read returns at the step that finds `steps 0`; every earlier step counts down by one. -/
  | steps (n : Nat)
  /-- The read never returns (R51). -/
  | forever
  deriving DecidableEq, Repr

/-- What the source's stream holds after the listed bytes (R50: it is finite or not). -/
inductive StreamRest where
  /-- Nothing: the stream ends there. -/
  | ends
  /-- It never ends: the bytes of the endless stream number `stream`, from its byte `pos` on, whose values are
  free (log entry 13). -/
  | endless (stream pos : Nat)
  deriving DecidableEq, Repr

/-- The source agent (R50): the stream after its position, and how its reads behave. -/
structure Source where
  /-- The first bytes after its position, next byte first. -/
  bytes : List Byte
  /-- What comes after them. -/
  rest : StreamRest
  /-- How many reads have returned: the counter the free draw of R50 is applied to (log entry 5). -/
  reads : Nat
  /-- How long each coming read waits, the next one first; a read beyond the list returns at once. -/
  waits : List Wait
  deriving DecidableEq, Repr

/-- The port a response is emitted on (R60, R70). -/
inductive Port where
  | command
  | register (i : Nat)
  deriving DecidableEq, Repr

/-- A response: the 4-bit `STATUS` and the 64-bit `VALUE` of R68, or `RSTATUS` and `RVALUE` of R70. -/
structure Response where
  port : Port
  status : BitVec 4
  value : BitVec 64
  deriving DecidableEq, Repr

/-- The machine's state. -/
structure State where
  /-- `R[0] … R[N-1]`; `N` is the length of the list (R18). -/
  regs : List BitReg
  /-- `CUR`, the read cursor of the trailing-byte buffer (R29). -/
  cur : BitVec 16
  /-- `TOTAL`, the total-consumed-bit counter (R26). -/
  total : BitVec 64
  /-- `BUSY`, a command is in progress (R31). -/
  busy : Bool
  /-- The command in progress while it waits for its source read (R120, log entry 7). -/
  inFlight : Option Instr
  /-- How many bytes the READBYTES in progress delivered before it began to wait (log entry 7). -/
  delivered : Nat
  /-- `CAP`, `MAXREQ`, `TB`, `SRC_FULL_READ`: the construction parameters, which no command changes (R7). -/
  params : Params
  /-- The words presented and not yet accepted, the next one first (R61). -/
  words : List PortWord
  /-- The source agent (R50). -/
  src : Source
  /-- The bytes the destination has accepted, oldest first (R52). -/
  dst : List Byte
  /-- The responses emitted, oldest first (R62). -/
  resps : List Response
  deriving DecidableEq, Repr

/-- Why the model stops in a faulted state. -/
inductive Fault where
  /-- An advance of `TOTAL` past 2^64 − 1 (R28, R110), raised by DECODE, ALIGN, READBYTES and READBYTE.
  Safe: the spec gives the model no run past it, so no claim about such a run can be proved. -/
  | totalOverflow
  /-- A register operation failed inside a decoder command (R83, R110), raised by PEEK, DECODE, ALIGN,
  READBYTES and READBYTE. Safe: the spec itself ends the model there, and no state reached from a
  legal construction by commands raises it. -/
  | registerContract
  deriving DecidableEq, Repr

/-- Why the model has no meaning to give. -/
inductive Refusal where
  /-- An instruction with no meaning yet, raised by `exec` alone; no arm raises it now. Safe. -/
  | notModelled (mnemonic : String)
  /-- The block's configuration is not legal (R8: the model refuses to build a block from one), raised by
  `build` and by `step`. Safe: no such block exists. -/
  | illegalConfiguration
  /-- A register-port word for a register the block does not have, raised by the five register-port
  operations. Safe: such a port does not exist (R18, R70). -/
  | noSuchRegisterPort
  deriving DecidableEq, Repr

/-- The three outcomes of a step of this machine. -/
abbrev Result := Host.Outcome State Fault Refusal

/-- The configuration the block was built with, read back from the state. -/
def State.config (s : State) : Config :=
  { n := s.regs.length, orders := s.regs.map (·.order), params := s.params }

/-- The reset state of a block built from `c`, with no agent having acted (R37, R121). -/
def State.initial (c : Config) : State :=
  { regs := c.orders.map fun o => { order := o, q := [] }
    cur := 0
    total := 0
    busy := false
    inFlight := none
    delivered := 0
    params := c.params
    words := []
    src := { bytes := [], rest := .ends, reads := 0, waits := [] }
    dst := []
    resps := [] }

/-- The machine right after reset (R37), built with R7's values for this hardware. -/
def State.reset : State := State.initial Config.default

end Sys2Proof.Machine
end

