-- ==== Sys2Proof/Machine/Flags.lean ====
section
/-! DEFINITION. The block has no flags that persist (10_state.md R25): a command's outcome is the status of
its response. Here stand the status codes (R69), the subcause codes (R105) and the one condition a
program can observe, padding begun (R30). -/

namespace Sys2Proof.Machine

/-- The outcomes of R69. -/
inductive Status where
  | ok
  | usage
  | insufficient
  | eos
  /-- Reserved for format decoders built on the block; no operation of this model produces it (R69). -/
  | invalidData
  deriving DecidableEq, Repr

/-- The 4-bit `STATUS` code of R69. -/
def statusCode : Status → BitVec 4
  | .ok => 0
  | .usage => 1
  | .insufficient => 2
  | .eos => 3
  | .invalidData => 4

/-- The subcauses of invalid usage (R105). -/
inductive Usage where
  | illegalOpcode
  | reservedNonzero
  | regIndexRange
  | countRange
  | regOverflow
  | regUnderflow
  deriving DecidableEq, Repr

/-- The subcause code reported in `VALUE` (R105). -/
def usageCode : Usage → BitVec 64
  | .illegalOpcode => 1
  | .reservedNonzero => 2
  | .regIndexRange => 3
  | .countRange => 4
  | .regOverflow => 5
  | .regUnderflow => 6

/-- The subcause a word is rejected with (R66, R72). -/
def decodeUsage : DecodeError → Usage
  | .illegalOpcode => .illegalOpcode
  | .reservedNonzero => .reservedNonzero

/-- *Padding begun*: `CUR > 0` (R30). -/
def paddingBegun (s : State) : Bool := s.cur != 0

end Sys2Proof.Machine
end

