-- ==== Sys2Proof/Machine/Operands.lean ====
section
/-! DEFINITION. How the operands of the commands read bit queues and bytes: `expand` and `val` of
00_scope.md R11 and R12, the integer helper of R13, and the bit count of R14. -/

namespace Sys2Proof.Machine

/-- `ceil_div(a, b)` (R13). -/
def ceilDiv (a b : Nat) : Nat := (a + b - 1) / b

/-- `expand(o, b)`: the bits of a byte in the order a register queues them (R11). -/
def expand (o : BitOrder) (b : Byte) : List Bool :=
  match o with
  | .lsbFirst =>
    [b.getLsbD 0, b.getLsbD 1, b.getLsbD 2, b.getLsbD 3,
      b.getLsbD 4, b.getLsbD 5, b.getLsbD 6, b.getLsbD 7]
  | .msbFirst =>
    [b.getLsbD 7, b.getLsbD 6, b.getLsbD 5, b.getLsbD 4,
      b.getLsbD 3, b.getLsbD 2, b.getLsbD 1, b.getLsbD 0]

/-- The number whose binary digits are `q`, the least significant first. -/
def lsbValue : List Bool → Nat
  | [] => 0
  | b :: q => b.toNat + 2 * lsbValue q

/-- `val(o, q, n)` for `n ≤ |q|` (R12): the front bit is the least significant bit of the result with
`LSB_FIRST` and the most significant with `MSB_FIRST`. -/
def bitVal (o : BitOrder) (q : List Bool) (n : Nat) : Nat :=
  match o with
  | .lsbFirst => lsbValue (q.take n)
  | .msbFirst => lsbValue (q.take n).reverse

/-- `BC(i) = |R[i].q|` (R14). A register that is not there counts as empty; a legal block has `R[0]`. -/
def bitCount (i : Nat) (s : State) : Nat :=
  match s.regs[i]? with
  | some r => r.q.length
  | none => 0

end Sys2Proof.Machine
end

