-- ==== Sys2Proof/Machine/Ops.lean ====
section
/-! DEFINITION. The operations the commands share: the primitives of 00_scope.md R14, the register
operations of 40_register_ops.md, `AddTotal` (R28), `FeedAll` (R84), `Ensure` (R85), `Align` (R95) and the
drain of R98 and R99. Reporting a failure is `raiseUsage` and `raiseInsufficient`; the block saves
nothing and transfers no control (R112), and there is no return from a failure to model (R113). -/

namespace Sys2Proof.Machine

/-- A part of a command: it goes on with a value, or it has ended the command with a result (a response,
a wait or a fault). R14: a command's pseudocode runs to the first `respond` or `raise`. -/
abbrev Flow (α : Type) := Except Result α

/-- The result of a whole command. -/
def runCommand (x : Flow Result) : Result :=
  match x with
  | .ok r => r
  | .error r => r

/-! ### Responses -/

/-- The state in which a command's response has been emitted: in the same step `BUSY` returns to 0 (R61),
and nothing of the command remains in progress. -/
def responded (st : Status) (v : BitVec 64) (s : State) : State :=
  { s with
    busy := false
    inFlight := none
    delivered := 0
    resps := s.resps ++ [{ port := .command, status := statusCode st, value := v }] }

/-- `respond(status, value)` on the command port (R14, R68). -/
def respond (st : Status) (v : BitVec 64) (s : State) : Result := .next (responded st v s)

/-- `raise E_USAGE(sub)` of a command: no other state changes (R106). -/
def raiseUsage (u : Usage) (s : State) : Result := respond .usage (usageCode u) s

/-- `raise E_INSUFFICIENT()`: the state is what the feed left (R88). -/
def raiseInsufficient (s : State) : Result := respond .insufficient 0 s

/-- The state in which the response of a register-port operation has been emitted, on the port of register
`i` (R70). -/
def portResponded (i : Nat) (st : Status) (v : BitVec 64) (s : State) : State :=
  { s with resps := s.resps ++ [{ port := .register i, status := statusCode st, value := v }] }

/-- The response of a register-port operation. -/
def respondPort (i : Nat) (st : Status) (v : BitVec 64) (s : State) : Result :=
  .next (portResponded i st v s)

/-- The check of R66 that looks at the configuration, for PEEK and DECODE: the register index first, then
the count. -/
def bitCommandCheck (reg count : Nat) (s : State) : Option Usage :=
  if s.regs.length ≤ reg then some .regIndexRange
  else if s.params.maxReq < count then some .countRange
  else none

/-! ### The operations of one BitRegister -/

/-- R.FEED on one register of capacity `cap` (R76). -/
def regFeed (cap : Nat) (b : Byte) (r : BitReg) : Except Usage BitReg :=
  if r.q.length + 8 > cap then .error .regOverflow
  else .ok { r with q := r.q ++ expand r.order b }

/-- R.PEEK (R77). -/
def regPeek (cap n : Nat) (r : BitReg) : Except Usage Nat :=
  if n > cap then .error .countRange
  else if n > r.q.length then .error .regUnderflow
  else .ok (bitVal r.order r.q n)

/-- R.DISCARD (R78). -/
def regDiscard (cap n : Nat) (r : BitReg) : Except Usage BitReg :=
  if n > cap then .error .countRange
  else if n > r.q.length then .error .regUnderflow
  else .ok { r with q := r.q.drop n }

/-- R.COUNT (R79). -/
def regCount (r : BitReg) : Nat := r.q.length

/-- R.CLEAR (R80). -/
def regClear (r : BitReg) : BitReg := { r with q := [] }

/-! ### All the registers as one step -/

/-- One register operation on every register (R47); none if it fails on any of them. -/
def onAll (op : BitReg → Except Usage BitReg) : List BitReg → Option (List BitReg)
  | [] => some []
  | r :: rs =>
    match op r, onAll op rs with
    | .ok r', some rs' => some (r' :: rs')
    | _, _ => none

/-- Replace the registers by what a register operation on all of them gives; a failure inside a decoder
command is the fault of R83. -/
def updateAll (op : BitReg → Except Usage BitReg) (s : State) : Flow State :=
  match onAll op s.regs with
  | some rs => .ok { s with regs := rs }
  | none => .error (.fault .registerContract)

/-- `FeedAll(b)` (R84). -/
def feedAll (b : Byte) (s : State) : Flow State := updateAll (regFeed s.params.cap b) s

/-- R.DISCARD of `n` bits on every register, one step (R47, R90). -/
def discardAll (n : Nat) (s : State) : Flow State := updateAll (regDiscard s.params.cap n) s

/-- R.CLEAR on every register, one step (R102). It cannot fail. -/
def clearAll (s : State) : State := { s with regs := s.regs.map regClear }

/-- `val(ORDER[i], R[i].q, n)`, by R.PEEK on register `i` inside a decoder command (R89). -/
def peekReg (i n : Nat) (s : State) : Flow Nat :=
  match s.regs[i]? with
  | none => .error (.fault .registerContract)
  | some r =>
    match regPeek s.params.cap n r with
    | .ok v => .ok v
    | .error _ => .error (.fault .registerContract)

/-- `AddTotal(x)` (R28). -/
def addTotal (x : Nat) (s : State) : Flow State :=
  if s.total.toNat + x > 2 ^ 64 - 1 then .error (.fault .totalOverflow)
  else .ok { s with total := s.total + BitVec.ofNat 64 x }

/-! ### The source and the destination -/

/-- How many bytes the stream holds after the source's position; none for a stream without end (R50). -/
def bytesRemaining (src : Source) : Option Nat :=
  match src.rest with
  | .ends => some src.bytes.length
  | .endless _ _ => none

/-- `min(k, bytes remaining)`: the most a read of `k` bytes can return (R50). -/
def sourceReach (k : Nat) (src : Source) : Nat :=
  match bytesRemaining src with
  | some n => min k n
  | none => k

/-- The next `k` bytes of the stream; all that are left where it ends before (R50). -/
def nextBytes (k : Nat) (src : Source) : List Byte :=
  match src.rest with
  | .ends => src.bytes.take k
  | .endless n p =>
    src.bytes.take k ++ (List.range (k - src.bytes.length)).map fun m => Config.endlessByte n (p + m)

/-- What the stream holds after the listed bytes once its position is `k` bytes further into that part. -/
def restAfter (k : Nat) : StreamRest → StreamRest
  | .ends => .ends
  | .endless n p => .endless n (p + k)

/-- How many bytes a returning `SrcRead(k)` returns (R50): all it can with `SRC_FULL_READ`, else a free
draw cut to R50's range. -/
def readCount (full : Bool) (k : Nat) (src : Source) : Nat :=
  if full then sourceReach k src
  else min (Config.shortReadCount src.reads k (bytesRemaining src)) (sourceReach k src)

/-- The source after `j` of its bytes were returned: its position advances by `j` (R49, R50). -/
def sourceAfter (j : Nat) (src : Source) : Source :=
  { bytes := src.bytes.drop j
    rest := restAfter (j - src.bytes.length) src.rest
    reads := src.reads + 1
    waits := src.waits.drop 1 }

/-- The state in which the command `i` waits for its source read (R120): `BUSY` stays 1 and all other state
survives. `n` is how many bytes a READBYTES had delivered when the read was issued. -/
def waiting (i : Instr) (n : Nat) (waits : List Wait) (s : State) : State :=
  { s with busy := true, inFlight := some i, delivered := n, src := { s.src with waits := waits } }

/-- `SrcRead(k)` issued by the command `i` (R50, R51): the bytes and the state once the read returns. -/
def srcRead (i : Instr) (n k : Nat) (s : State) : Flow (List Byte × State) :=
  match s.src.waits with
  | .forever :: ws => .error (.next (waiting i n (.forever :: ws) s))
  | .steps (w + 1) :: ws => .error (.next (waiting i n (.steps w :: ws) s))
  | _ =>
    let j := readCount s.params.srcFullRead k s.src
    .ok (nextBytes j s.src, { s with src := sourceAfter j s.src })

/-- `DstWrite` of each byte of `bs`, in order (R52). -/
def dstWrite (bs : List Byte) (s : State) : State := { s with dst := s.dst ++ bs }

/-! ### The feed algorithm -/

/-- Feed each byte in order: step 2 of R85. -/
def feedBytes : List Byte → State → Flow State
  | [], s => .ok s
  | b :: bs, s => do
    let s' ← feedAll b s
    feedBytes bs s'

/-- Feed `rem` bytes of the trailing buffer: step 3 of R85. -/
def feedTrailing : Nat → State → Flow State
  | 0, s => .ok s
  | rem + 1, s =>
    match s.params.tb[s.cur.toNat]? with
    | none => .error (raiseInsufficient s)
    | some b => do
      let s' ← feedAll b s
      feedTrailing rem { s' with cur := s'.cur + 1 }

/-- `Ensure(count)` (R85), run by the command `i`. -/
def ensure (i : Instr) (count : Nat) (s : State) : Flow State :=
  if count ≤ bitCount 0 s then .ok s
  else
    let rem := ceilDiv (count - bitCount 0 s) 8
    if paddingBegun s then feedTrailing rem s
    else do
      let (bytes, s1) ← srcRead i 0 rem s
      let s2 ← feedBytes bytes s1
      feedTrailing (rem - bytes.length) s2

/-! ### Alignment and the drain -/

/-- `Align()` (R95). -/
def alignAll (s : State) : Flow State :=
  let r := bitCount 0 s % 8
  if r = 0 then .ok s
  else do
    let s1 ← addTotal r s
    discardAll r s1

/-- Take one whole byte from register 0 and discard its 8 bits everywhere (R98, R99). -/
def drainByte (s : State) : Flow (Nat × State) := do
  let v ← peekReg 0 8 s
  let s1 ← addTotal 8 s
  let s2 ← discardAll 8 s1
  pure (v, s2)

/-- The drain loop of R98, at most `left` bytes: how many were written, and the state. -/
def drainBytes : Nat → State → Flow (Nat × State)
  | 0, s => .ok (0, s)
  | left + 1, s =>
    if bitCount 0 s = 0 then .ok (0, s)
    else do
      let (v, s1) ← drainByte s
      let (n, s2) ← drainBytes left (dstWrite [BitVec.ofNat 8 v] s1)
      pure (n + 1, s2)

/-! ### Construction and the register port -/

/-- Build a block (R8, R123): the reset state from a legal configuration; an illegal one is refused. -/
def build (c : Config) : Result :=
  if c.Legal then .next (State.initial c) else .refused .illegalConfiguration

/-- A register-port operation on register `i` (R70): `op` answers the result value and the register, or the
failure; a failure leaves the register unchanged. -/
def onPort (i : Nat) (op : BitReg → Except Usage (BitVec 64 × BitReg)) (s : State) : Result :=
  match s.regs[i]? with
  | none => .refused .noSuchRegisterPort
  | some r =>
    match op r with
    | .ok (v, r') => respondPort i .ok v { s with regs := s.regs.set i r' }
    | .error u => respondPort i .usage (usageCode u) s

end Sys2Proof.Machine
end

