-- ==== Sys2Proof/Machine/AlignBulk.lean ====
section
/-! DEFINITION. ALIGN, READBYTES and READBYTE (42_align_bulk.md). -/

namespace Sys2Proof.Machine

/-- ALIGN (R96). -/
def execAlign (s : State) : Result := runCommand do
  let s1 ← alignAll s
  pure (respond .ok 0 s1)

/-- The end of READBYTES with `n` bytes produced (R98): `EOS` if there was room and no byte, else `OK`. -/
def finishBulk (room n : Nat) (s : State) : Result :=
  if n = 0 ∧ 0 < room then respond .eos 0 s else respond .ok (BitVec.ofNat 64 n) s

/-- READBYTES (R98). `s.delivered` is 0 when the command is accepted; a command that goes on after its
wait (R120) counts from the bytes it had delivered before. -/
def execReadBytes (room : Nat) (s : State) : Result := runCommand do
  let s1 ← alignAll s
  let (m, s2) ← drainBytes (room - s.delivered) s1
  let n := s.delivered + m
  if n < room ∧ paddingBegun s2 = false then do
    let (bytes, s3) ← srcRead (.readBytes room) n (room - n) s2
    let s4 ← addTotal (8 * bytes.length) (dstWrite bytes s3)
    pure (finishBulk room (n + bytes.length) s4)
  else pure (finishBulk room n s2)

/-- READBYTE (R99). -/
def execReadByte (s : State) : Result := runCommand do
  let s1 ← alignAll s
  if 0 < bitCount 0 s1 then do
    let (v, s2) ← drainByte s1
    pure (respond .ok (BitVec.ofNat 64 v) s2)
  else if paddingBegun s1 then pure (respond .eos 0 s1)
  else do
    let (bytes, s2) ← srcRead .readByte 0 1 s1
    match bytes with
    | b :: _ => do
      let s3 ← addTotal 8 s2
      pure (respond .ok (b.setWidth 64) s3)
    | [] => pure (respond .eos 0 s2)

end Sys2Proof.Machine
end

