-- ==== Sys2Proof/Machine/BitAccess.lean ====
section
/-! DEFINITION. PEEK and DECODE (41_bit_access.md). -/

namespace Sys2Proof.Machine

/-- PEEK (R89). -/
def execPeek (reg count : Nat) (s : State) : Result :=
  match bitCommandCheck reg count s with
  | some u => raiseUsage u s
  | none => runCommand do
    let s1 ← ensure (.peek reg count) count s
    let v ← peekReg reg count s1
    pure (respond .ok (BitVec.ofNat 64 v) s1)

/-- DECODE (R90). -/
def execDecode (reg count : Nat) (s : State) : Result :=
  match bitCommandCheck reg count s with
  | some u => raiseUsage u s
  | none => runCommand do
    let s1 ← ensure (.decode reg count) count s
    let v ← peekReg reg count s1
    let s2 ← addTotal count s1
    let s3 ← discardAll count s2
    pure (respond .ok (BitVec.ofNat 64 v) s3)

end Sys2Proof.Machine
end

