-- ==== Sys2Proof/Machine/Control.lean ====
section
/-! DEFINITION. TOTALIN, CLEAR and RESET (43_control.md). -/

namespace Sys2Proof.Machine

/-- `totalIn`, the value R27 derives from `TOTAL`. -/
def totalInValue (s : State) : Nat := ceilDiv s.total.toNat 8

/-- TOTALIN (R101). -/
def execTotalIn (s : State) : Result := respond .ok (BitVec.ofNat 64 (totalInValue s)) s

/-- CLEAR (R102): `TOTAL` and `CUR` stay. -/
def execClear (s : State) : Result := respond .ok 0 (clearAll s)

/-- RESET (R103): the source and the configuration stay. -/
def execReset (s : State) : Result := respond .ok 0 { clearAll s with cur := 0, total := 0 }

end Sys2Proof.Machine
end

