-- ==== Sys2Proof/Machine/RegisterPort.lean ====
section
/-! DEFINITION. The five operations of a BitRegister's own port (30_encoding.md R70 to R72,
40_register_ops.md). -/

namespace Sys2Proof.Machine

/-- R.FEED (R76). -/
def execRFeed (port : Nat) (data : Byte) (s : State) : Result :=
  onPort port (fun r => do let r' ← regFeed s.params.cap data r; pure (0, r')) s

/-- R.PEEK (R77). -/
def execRPeek (port count : Nat) (s : State) : Result :=
  onPort port (fun r => do let v ← regPeek s.params.cap count r; pure (BitVec.ofNat 64 v, r)) s

/-- R.DISCARD (R78). -/
def execRDiscard (port count : Nat) (s : State) : Result :=
  onPort port (fun r => do let r' ← regDiscard s.params.cap count r; pure (0, r')) s

/-- R.COUNT (R79). -/
def execRCount (port : Nat) (s : State) : Result :=
  onPort port (fun r => .ok (BitVec.ofNat 64 (regCount r), r)) s

/-- R.CLEAR (R80). -/
def execRClear (port : Nat) (s : State) : Result :=
  onPort port (fun r => .ok (0, regClear r)) s

end Sys2Proof.Machine
end

