-- ==== Sys2Proof/Machine/Dispatch.lean ====
section
/-! DEFINITION. One arm per instruction, each one call of its meaning. -/

namespace Sys2Proof.Machine

def exec (i : Instr) (s : State) : Host.Outcome State Fault Refusal :=
  match i with
  | .peek reg count => Sys2Proof.Machine.execPeek reg count s
  | .decode reg count => Sys2Proof.Machine.execDecode reg count s
  | .align => Sys2Proof.Machine.execAlign s
  | .readBytes room => Sys2Proof.Machine.execReadBytes room s
  | .readByte => Sys2Proof.Machine.execReadByte s
  | .totalIn => Sys2Proof.Machine.execTotalIn s
  | .clear => Sys2Proof.Machine.execClear s
  | .reset => Sys2Proof.Machine.execReset s
  | .rFeed port data => Sys2Proof.Machine.execRFeed port data s
  | .rPeek port count => Sys2Proof.Machine.execRPeek port count s
  | .rDiscard port count => Sys2Proof.Machine.execRDiscard port count s
  | .rCount port => Sys2Proof.Machine.execRCount port s
  | .rClear port => Sys2Proof.Machine.execRClear port s

end Sys2Proof.Machine
end

