-- ==== Sys2Proof/WellFormed.lean ====
section
/-! DEFINITION. Which instructions the encodings of R63 and R70 can hold. -/

namespace Sys2Proof

/-- Every operand fits its field: `REG` 8 bits, `COUNT` and `ROOM` 16 bits (R64), `CNT` 8 bits (R70).
`DATA` is a byte by its type. -/
def Instr.wellFormed : Instr → Bool
  | .peek reg count => decide (reg < 256) && decide (count < 65536)
  | .decode reg count => decide (reg < 256) && decide (count < 65536)
  | .align => true
  | .readBytes room => decide (room < 65536)
  | .readByte => true
  | .totalIn => true
  | .clear => true
  | .reset => true
  | .rFeed _ _ => true
  | .rPeek _ count => decide (count < 256)
  | .rDiscard _ count => decide (count < 256)
  | .rCount _ => true
  | .rClear _ => true

end Sys2Proof
end

