-- ==== Sys2Proof/Decode.lean ====
section
/-! DEFINITION. Decoding a port word (the command check of R66 as far as it looks at the word alone, and
the register-port check of R72), and the encoder, from the tables of R63, R65, R70 and R71. -/

namespace Sys2Proof

/-- `OPC = w[3:0]` (R63). -/
def opcOf (w : CommandWord) : Nat := (w.extractLsb' 0 4).toNat
/-- `RSV = w[7:4]` (R63). -/
def rsvOf (w : CommandWord) : Nat := (w.extractLsb' 4 4).toNat
/-- `REG = zext_8(w[15:8])` (R64). -/
def regOf (w : CommandWord) : Nat := (w.extractLsb' 8 8).toNat
/-- `IMM = w[31:16]`: `COUNT` or `ROOM`, zero-extended (R64). -/
def immOf (w : CommandWord) : Nat := (w.extractLsb' 16 16).toNat

/-- The opcode map of R65; none for the reserved opcodes 0x0 and 0x9 to 0xF (R67). -/
def commandOf (opc reg imm : Nat) : Option Instr :=
  match opc with
  | 1 => some (.peek reg imm)
  | 2 => some (.decode reg imm)
  | 3 => some .align
  | 4 => some (.readBytes imm)
  | 5 => some .readByte
  | 6 => some .totalIn
  | 7 => some .clear
  | 8 => some .reset
  | _ => none

/-- A field the command does not use holds a nonzero value: R66's third and fourth checks. -/
def commandUnusedNonzero : Instr → Nat → Nat → Bool
  | .peek _ _, _, _ => false
  | .decode _ _, _, _ => false
  | .readBytes _, reg, _ => reg != 0
  | _, reg, imm => reg != 0 || imm != 0

/-- R66 up to its fourth check: the opcode first, then the reserved and the unused fields. -/
def decodeCommand (w : CommandWord) : Except DecodeError Instr :=
  match commandOf (opcOf w) (regOf w) (immOf w) with
  | none => .error .illegalOpcode
  | some i =>
    if rsvOf w ≠ 0 then .error .reservedNonzero
    else if commandUnusedNonzero i (regOf w) (immOf w) then .error .reservedNonzero
    else .ok i

/-- `ROP = u[2:0]` (R70). -/
def ropOf (u : RegPortWord) : Nat := (u.extractLsb' 0 3).toNat
/-- `RRSV = u[7:3]` (R70). -/
def rrsvOf (u : RegPortWord) : Nat := (u.extractLsb' 3 5).toNat
/-- `CNT = zext_8(u[15:8])` (R70). -/
def cntOf (u : RegPortWord) : Nat := (u.extractLsb' 8 8).toNat
/-- `DATA = u[23:16]`, a byte (R70). -/
def dataOf (u : RegPortWord) : Byte := u.extractLsb' 16 8

/-- The operation map of R71; none for the reserved operations 0, 6 and 7. -/
def regOpOf (port rop cnt : Nat) (data : Byte) : Option Instr :=
  match rop with
  | 1 => some (.rFeed port data)
  | 2 => some (.rPeek port cnt)
  | 3 => some (.rDiscard port cnt)
  | 4 => some (.rCount port)
  | 5 => some (.rClear port)
  | _ => none

/-- A field the register operation does not use holds a nonzero value: R72's third to fifth checks. -/
def regOpUnusedNonzero : Instr → Nat → Byte → Bool
  | .rFeed _ _, cnt, _ => cnt != 0
  | .rPeek _ _, _, data => data != 0
  | .rDiscard _ _, _, data => data != 0
  | _, cnt, data => cnt != 0 || data != 0

/-- R72: the operation first, then the reserved and the unused fields. -/
def decodeRegPort (port : Nat) (u : RegPortWord) : Except DecodeError Instr :=
  match regOpOf port (ropOf u) (cntOf u) (dataOf u) with
  | none => .error .illegalOpcode
  | some i =>
    if rrsvOf u ≠ 0 then .error .reservedNonzero
    else if regOpUnusedNonzero i (cntOf u) (dataOf u) then .error .reservedNonzero
    else .ok i

/-- The decoder, total on every word of either kind of port. -/
def decode : PortWord → Except DecodeError Instr
  | .command w => decodeCommand w
  | .regPort port u => decodeRegPort port u

/-- The command word with the given fields and `RSV = 0` (R63). -/
def commandWord (opc reg imm : Nat) : CommandWord :=
  BitVec.ofNat 16 imm ++ BitVec.ofNat 8 reg ++ 0#4 ++ BitVec.ofNat 4 opc

/-- The register-port word with the given fields and `RRSV = 0` (R70). -/
def regPortWord (rop cnt : Nat) (data : Byte) : RegPortWord :=
  data ++ BitVec.ofNat 8 cnt ++ 0#5 ++ BitVec.ofNat 3 rop

/-- The encoder: the word of an instruction (R65, R71, R73), on the port it belongs to. -/
def encode : Instr → PortWord
  | .peek reg count => .command (commandWord 1 reg count)
  | .decode reg count => .command (commandWord 2 reg count)
  | .align => .command (commandWord 3 0 0)
  | .readBytes room => .command (commandWord 4 0 room)
  | .readByte => .command (commandWord 5 0 0)
  | .totalIn => .command (commandWord 6 0 0)
  | .clear => .command (commandWord 7 0 0)
  | .reset => .command (commandWord 8 0 0)
  | .rFeed port data => .regPort port (regPortWord 1 0 data)
  | .rPeek port count => .regPort port (regPortWord 2 count 0)
  | .rDiscard port count => .regPort port (regPortWord 3 count 0)
  | .rCount port => .regPort port (regPortWord 4 0 0)
  | .rClear port => .regPort port (regPortWord 5 0 0)

/-- The port word of a row of spec/opcode_table.json: 32 bits for format `command-32`, 24 bits for format
`regport-24`, the latter at the port of register 0. There are no other lengths (R63, R70). -/
def tableWord (nbits w : Nat) : Option PortWord :=
  if nbits = 32 then some (.command (BitVec.ofNat 32 w))
  else if nbits = 24 then some (.regPort 0 (BitVec.ofNat 24 w))
  else none

/-- The instruction the decoder reads from a table row's word; none where it refuses. -/
def decodeTableWord (nbits w : Nat) : Option Instr :=
  match tableWord nbits w with
  | none => none
  | some pw =>
    match decode pw with
    | .ok i => some i
    | .error _ => none

end Sys2Proof
end

