-- ==== Sys2Proof/Machine/Fetch.lean ====
section
/-! DEFINITION. The command handshake (30_encoding.md R61) and the response to a word that is no
instruction (R66, R67, R72). -/

namespace Sys2Proof.Machine

/-- The state in which the presented word `w` has been taken: a command word sets `BUSY` (R61); a
register-port word takes no part in that handshake. -/
def acceptWord (w : PortWord) (rest : List PortWord) (s : State) : State :=
  match w with
  | .command _ => { s with words := rest, busy := true }
  | .regPort _ _ => { s with words := rest }

/-- The response to a word the decoder rejects: `E_USAGE` with the subcause, no state change (R67, R72). -/
def rejectWord (w : PortWord) (e : DecodeError) (s : State) : Result :=
  match w with
  | .command _ => raiseUsage (decodeUsage e) s
  | .regPort i _ => onPort i (fun _ => .error (decodeUsage e)) s

/-- The host presents the word `w` before the others that wait, at a free command port. -/
def presentFirst (w : PortWord) (s : State) : State :=
  { s with words := w :: s.words, busy := false, inFlight := none, delivered := 0 }

end Sys2Proof.Machine
end

