-- ==== Sys2Proof/Machine/Step.lean ====
section
/-! DEFINITION. One step of the block: it goes on with the command that waits for the source, or takes the
next presented word and runs it (R61), or has nothing to do. -/

namespace Sys2Proof.Machine

/-- One step. A state whose configuration is not legal is no state of a block (R8). -/
def step (s : State) : Host.Outcome State Fault Refusal :=
  if s.config.Legal then
    match s.busy with
    | true =>
      match s.inFlight with
      | some i => exec i s
      | none => .next s
    | false =>
      match s.words with
      | [] => .next s
      | w :: rest =>
        match decode w with
        | .ok i => exec i (acceptWord w rest s)
        | .error e => rejectWord w e (acceptWord w rest s)
  else .refused .illegalConfiguration

/-- The state with a row's word presented as the next word of its port, so that the next step accepts
and runs it. A length that is no row's length changes nothing. -/
def State.withFetchWord (s : State) (nbits w : Nat) : State :=
  match tableWord nbits w with
  | some pw => presentFirst pw s
  | none => s

end Sys2Proof.Machine
end

