-- ==== Sys2Proof/Machine/Assembler.lean ====
section
/-! DEFINITION. The assembler syntax of 30_encoding.md R73 and the pseudo-instructions of R74: one line of
text, as a list of characters, to the word it stands for. The block itself never sees this text. -/

namespace Sys2Proof.Machine

/-- White space between tokens. -/
def isBlank (c : Char) : Bool := c = ' ' || c = '\t'

/-- `cs` without blanks at its ends. -/
def trimBlanks (cs : List Char) : List Char :=
  ((cs.dropWhile isBlank).reverse.dropWhile isBlank).reverse

/-- The pieces of `cs` between commas. -/
def splitCommas : List Char → List (List Char)
  | [] => [[]]
  | c :: cs =>
    match splitCommas cs with
    | [] => [[c]]
    | p :: ps => if c = ',' then [] :: p :: ps else (c :: p) :: ps

/-- The value of one digit in base 16. -/
def digitValue (c : Char) : Option Nat :=
  if '0' ≤ c ∧ c ≤ '9' then some (c.toNat - '0'.toNat)
  else if 'a' ≤ c ∧ c ≤ 'f' then some (c.toNat - 'a'.toNat + 10)
  else if 'A' ≤ c ∧ c ≤ 'F' then some (c.toNat - 'A'.toNat + 10)
  else none

/-- The number that follows `acc` when the digits `cs` are read in base `base`. -/
def digitsFrom (base : Nat) : Nat → List Char → Option Nat
  | acc, [] => some acc
  | acc, c :: cs =>
    match digitValue c with
    | none => none
    | some d => if d < base then digitsFrom base (acc * base + d) cs else none

/-- A number with at least one digit in base `base`. -/
def parseDigits (base : Nat) (cs : List Char) : Option Nat :=
  if cs.isEmpty then none else digitsFrom base 0 cs

/-- A count, room, byte or word value: decimal, or hexadecimal after `0x` (R73), below `2 ^ bits`. -/
def parseNumber (bits : Nat) (cs : List Char) : Option Nat :=
  let n := match cs with
    | '0' :: 'x' :: ds => parseDigits 16 ds
    | ds => parseDigits 10 ds
  n.filter (· < 2 ^ bits)

/-- A register operand `r<i>`, `i` in decimal (R73), in the range of the `REG` field. -/
def parseRegister (cs : List Char) : Option Nat :=
  match cs with
  | 'r' :: ds => (parseDigits 10 ds).filter (· < 256)
  | _ => none

/-- The operands of PEEK and DECODE: the count and the register, register 0 where none is written (R74). -/
def parseBitOperands (ops : List (List Char)) : Option (Nat × Nat) :=
  match ops with
  | [c] => (parseNumber 16 c).map (·, 0)
  | [c, r] =>
    match parseNumber 16 c, parseRegister r with
    | some n, some i => some (n, i)
    | _, _ => none
  | _ => none

/-- One operand below `2 ^ bits`. -/
def parseOne (bits : Nat) (ops : List (List Char)) : Option Nat :=
  match ops with
  | [c] => parseNumber bits c
  | _ => none

/-- The word of one line, its mnemonic and operands already taken apart (R73); `port` is the register whose
port an `r.` line is meant for. -/
def assembleOp (port : Nat) (mnemonic : List Char) (ops : List (List Char)) : Option PortWord :=
  if mnemonic = ['p', 'e', 'e', 'k'] then
    (parseBitOperands ops).map fun p => encode (.peek p.2 p.1)
  else if mnemonic = ['d', 'e', 'c', 'o', 'd', 'e'] then
    (parseBitOperands ops).map fun p => encode (.decode p.2 p.1)
  else if mnemonic = ['r', 'e', 'a', 'd', 'b', 'y', 't', 'e', 's'] then
    (parseOne 16 ops).map fun n => encode (.readBytes n)
  else if mnemonic = ['.', 'w', 'o', 'r', 'd'] then
    (parseOne 32 ops).map fun n => .command (BitVec.ofNat 32 n)
  else if mnemonic = ['r', '.', 'f', 'e', 'e', 'd'] then
    (parseOne 8 ops).map fun n => encode (.rFeed port (BitVec.ofNat 8 n))
  else if mnemonic = ['r', '.', 'p', 'e', 'e', 'k'] then
    (parseOne 8 ops).map fun n => encode (.rPeek port n)
  else if mnemonic = ['r', '.', 'd', 'i', 's', 'c', 'a', 'r', 'd'] then
    (parseOne 8 ops).map fun n => encode (.rDiscard port n)
  else if ops ≠ [] then none
  else if mnemonic = ['a', 'l', 'i', 'g', 'n'] then some (encode .align)
  else if mnemonic = ['r', 'e', 'a', 'd', 'b', 'y', 't', 'e'] then some (encode .readByte)
  else if mnemonic = ['t', 'o', 't', 'a', 'l', 'i', 'n'] then some (encode .totalIn)
  else if mnemonic = ['c', 'l', 'e', 'a', 'r'] then some (encode .clear)
  else if mnemonic = ['r', 'e', 's', 'e', 't'] then some (encode .reset)
  else if mnemonic = ['r', '.', 'c', 'o', 'u', 'n', 't'] then some (encode (.rCount port))
  else if mnemonic = ['r', '.', 'c', 'l', 'e', 'a', 'r'] then some (encode (.rClear port))
  else none

/-- One line of an assembly program. -/
inductive AsmLine where
  /-- Nothing but blanks and a comment. -/
  | empty
  | word (w : PortWord)
  deriving DecidableEq, Repr

/-- R73: a `;` starts a comment; the mnemonic, then operands separated by commas; none for a line that is not
in the syntax. -/
def assembleLine (port : Nat) (line : List Char) : Option AsmLine :=
  let text := trimBlanks (line.takeWhile (· ≠ ';'))
  let mnemonic := text.takeWhile fun c => !isBlank c
  let rest := trimBlanks (text.dropWhile fun c => !isBlank c)
  let ops := if rest.isEmpty then [] else (splitCommas rest).map trimBlanks
  if text.isEmpty then some .empty
  else (assembleOp port mnemonic ops).map .word

end Sys2Proof.Machine
end

