-- ==== Sys2Proof/Machine/ShiftRegister.lean ====
section
/-! DEFINITION. The shift-register form of a BitRegister (40_register_ops.md R82): a word `W` and a count
`c` in place of the queue. Nothing else of the machine uses it; it is here so that R82's equivalence can
be stated. -/

namespace Sys2Proof.Machine

/-- `W` and `c` of R82. Bits of a physical word above position `c` are not state (R82). -/
structure ShiftReg where
  order : BitOrder
  word : Nat
  count : Nat
  deriving DecidableEq, Repr

/-- The shift register that stands for a bit queue: `c = |R.q|`, `W = val(o, R.q, c)` (R82). -/
def shiftOf (r : BitReg) : ShiftReg :=
  { order := r.order, word := bitVal r.order r.q r.q.length, count := r.q.length }

/-- R82's row for R.FEED. -/
def shiftFeed (b : Byte) (x : ShiftReg) : ShiftReg :=
  match x.order with
  | .lsbFirst => { x with word := x.word + b.toNat * 2 ^ x.count, count := x.count + 8 }
  | .msbFirst => { x with word := x.word * 256 + b.toNat, count := x.count + 8 }

/-- R82's row for R.PEEK, for `n ≤ c`. -/
def shiftPeek (n : Nat) (x : ShiftReg) : Nat :=
  match x.order with
  | .lsbFirst => x.word % 2 ^ n
  | .msbFirst => x.word / 2 ^ (x.count - n) % 2 ^ n

/-- R82's row for R.DISCARD, for `n ≤ c`. -/
def shiftDiscard (n : Nat) (x : ShiftReg) : ShiftReg :=
  match x.order with
  | .lsbFirst => { x with word := x.word / 2 ^ n, count := x.count - n }
  | .msbFirst => { x with word := x.word % 2 ^ (x.count - n), count := x.count - n }

/-- R82's row for R.CLEAR. -/
def shiftClear (x : ShiftReg) : ShiftReg := { x with word := 0, count := 0 }

end Sys2Proof.Machine
end

