-- ==== Sys2Proof/Safety.lean ====
section
/-! DEFINITION. What the claims speak of: the invariants the spec states of every state between commands,
the states a run of a connected block reaches, and what a feed supplies. Nothing of the machine uses
this file. -/

namespace Sys2Proof.Machine

/-- A word on the command port. -/
def isCommandWord : PortWord → Bool
  | .command _ => true
  | .regPort _ _ => false

/-- Only the host drives the block: no word stands at a register port (R70: the host cannot reach it), and
the command in progress, if any, is one of the eight commands. -/
def HostDriven (s : State) : Prop :=
  (∀ w ∈ s.words, isCommandWord w = true) ∧ ∀ i, s.inFlight = some i → i.isCommand = true

/-- The lockstep invariant of R22. -/
def Lockstep (s : State) : Prop := ∀ r ∈ s.regs, r.q.length = bitCount 0 s

/-- The content invariant of R23: the queues are one list of fed bytes, each in its register's bit order,
less one number of discarded bits. -/
def Content (s : State) : Prop :=
  ∃ (fed : List Byte) (dropped : Nat), dropped ≤ 8 * fed.length ∧
    ∀ r ∈ s.regs, r.q = (fed.flatMap (expand r.order)).drop dropped

/-- The decoder's bound of R20 and R87. -/
def DecoderBound (s : State) : Prop := ∀ r ∈ s.regs, r.q.length ≤ s.params.maxReq + 7

/-- The capacity bound of R20. -/
def CapacityBound (s : State) : Prop := ∀ r ∈ s.regs, r.q.length ≤ s.params.cap

/-- The cursor's range of R29. -/
def CursorBound (s : State) : Prop := s.cur.toNat ≤ s.params.tb.length

/-- `BUSY` is 1 exactly while a command is in progress (R31), and between commands nothing of a READBYTES
is left over. -/
def Handshake (s : State) : Prop :=
  s.busy = s.inFlight.isSome ∧ (s.busy = false → s.delivered = 0)

/-- The invariant of a block that a host drives. -/
structure Inv (s : State) : Prop where
  legal : s.config.Legal
  host : HostDriven s
  content : Content s
  bound : DecoderBound s
  cursor : CursorBound s
  handshake : Handshake s

/-- No command is in progress, and nothing of one is left over. -/
def Between (s : State) : Prop := s.busy = false ∧ s.inFlight = none ∧ s.delivered = 0

/-- The start of a run (R123): a block built from `c`, its source connected. -/
def connected (c : Config) (src : Source) : State := { State.initial c with src := src }

/-- The states a host can bring a block to: build it, connect a source, present command words, let it step. -/
inductive Reachable : State → Prop where
  | start (c : Config) (src : Source) (h : c.Legal) : Reachable (connected c src)
  | present (s : State) (w : CommandWord) (h : Reachable s) :
      Reachable { s with words := s.words ++ [.command w] }
  | step (s t : State) (h : Reachable s) (hs : Sys2Proof.Machine.step s = .next t) : Reachable t

/-- The source's next read returns at once (R51: it need not wait for data). -/
def SourceReady (s : State) : Prop :=
  match s.src.waits with
  | [] => True
  | .steps 0 :: _ => True
  | _ => False

/-- Source `b` is source `a` with its position `j` bytes further along the same stream (R50). -/
def Advanced (j : Nat) (a b : Source) : Prop :=
  (nextBytes j a).length = j ∧ ∀ k, nextBytes (j + k) a = nextBytes j a ++ nextBytes k b

/-- `s` with one more response on the command port and no command in progress: what R61, R62 and R68 say a
response does, with the codes of R69 and R105 as numbers. -/
def answered (status : BitVec 4) (value : BitVec 64) (s : State) : State :=
  { s with
    busy := false
    inFlight := none
    delivered := 0
    resps := s.resps ++ [{ port := .command, status := status, value := value }] }

/-- `s` with one more response on the port of register `i` (R70). -/
def portAnswered (i : Nat) (status : BitVec 4) (value : BitVec 64) (s : State) : State :=
  { s with resps := s.resps ++ [{ port := .register i, status := status, value := value }] }

/-- `s` with the waits of the coming source reads replaced. -/
def withWaits (ws : List Wait) (s : State) : State := { s with src := { s.src with waits := ws } }

/-! ### What a feed supplies (R85) -/

/-- How many bytes PEEK or DECODE of `count` bits must feed: R85's step 1. -/
def needBytes (count : Nat) (s : State) : Nat := ceilDiv (count - bitCount 0 s) 8

/-- No source read is made: enough bits are buffered, or padding has begun (R85, R86). -/
def noRead (count : Nat) (s : State) : Bool := needBytes count s = 0 || paddingBegun s

/-- The bytes the feed takes from the source, where the read returns at once. -/
def sourceSupply (count : Nat) (s : State) : List Byte :=
  if noRead count s then []
  else nextBytes (readCount s.params.srcFullRead (needBytes count s) s.src) s.src

/-- The bytes the feed takes from the trailing buffer, as far as it goes. -/
def trailingSupply (count : Nat) (s : State) : List Byte :=
  (s.params.tb.drop s.cur.toNat).take (needBytes count s - (sourceSupply count s).length)

/-- All the bytes the feed supplies, in order. -/
def supply (count : Nat) (s : State) : List Byte := sourceSupply count s ++ trailingSupply count s

/-- A register after the bytes `bs` were fed. -/
def fedReg (bs : List Byte) (r : BitReg) : BitReg :=
  { r with q := r.q ++ bs.flatMap (expand r.order) }

/-- The state after the feed of PEEK or DECODE of `count` bits, whether or not it was enough. -/
def fedState (count : Nat) (s : State) : State :=
  { s with
    regs := s.regs.map (fedReg (supply count s))
    cur := s.cur + BitVec.ofNat 16 (trailingSupply count s).length
    src :=
      if noRead count s then s.src
      else sourceAfter (readCount s.params.srcFullRead (needBytes count s) s.src) s.src }

/-- The registers after `n` bits were discarded from each. -/
def discardedRegs (n : Nat) (s : State) : List BitReg :=
  s.regs.map fun r => { r with q := r.q.drop n }

/-- The value of the next `n` bits of register `i` (R12); 0 where there is no such register. -/
def frontValue (i n : Nat) (s : State) : Nat :=
  match s.regs[i]? with
  | some r => bitVal r.order r.q n
  | none => 0

/-- The `k` whole bytes at the front of register 0, after `skip` bits (R98). -/
def bufferedBytes (skip k : Nat) (s : State) : List Byte :=
  match s.regs[0]? with
  | some r => (List.range k).map fun m => BitVec.ofNat 8 (bitVal r.order (r.q.drop (skip + 8 * m)) 8)
  | none => []

/-- The next `n` bytes a feed can draw with a full-read source, in order, fewer where there are no more: those of
the source unless padding has begun, then those of the trailing buffer (R54, R94). -/
def comingBytes (n : Nat) (s : State) : List Byte :=
  ((if paddingBegun s then [] else nextBytes n s.src) ++ s.params.tb.drop s.cur.toNat).take n

/-- `n` bits can still be read with a full-read source: those buffered and those of the coming bytes, of which
`n` are enough (R94). -/
abbrev CanSupply (n : Nat) (s : State) : Prop := n ≤ bitCount 0 s + 8 * (comingBytes n s).length

/-- The bits of the stream as register `r` sees them from the next bit on: those buffered, then those of the next
`n` coming bytes in its bit order (R53). -/
def streamBits (n : Nat) (r : BitReg) (s : State) : List Bool :=
  r.q ++ (comingBytes n s).flatMap (expand r.order)

/-- The values of the fields `(register, count)`, one after another along the stream from bit `pos` on, each
read through its own register. A field that ends `n` bits on is within the next `n` bytes. -/
def fieldValues (s : State) : Nat → List (Nat × Nat) → List Nat
  | _, [] => []
  | pos, (reg, count) :: fields =>
    (match s.regs[reg]? with
      | some r => bitVal r.order ((streamBits (pos + count) r s).drop pos) count
      | none => 0) :: fieldValues s (pos + count) fields

/-- Run instructions one after another; none where one of them stops. -/
def execAll : List Instr → State → Option State
  | [], s => some s
  | i :: is, s =>
    match exec i s with
    | .next t => execAll is t
    | _ => none

end Sys2Proof.Machine
end

