-- ==== Sys2Proof/Certificates/Slice0/Obligations.lean ====
section
/-! DEFINITION. The statements for the provers. Each says in its docstring which rule of spec/ it formalises,
and which clause, if any, is the model's own choice, with its log entry.

Three parts of State are the model's way to speak of what the spec says in words, and stand in many statements:
that a source read returns at once is `SourceReady`, or no waits at all (log entry 6); that no command is half
done is `delivered = 0` (log entry 7); what was answered and written is read off the logs `resps` and `dst` (log
entry 14). -/

open Sys2Proof Sys2Proof.Machine

/-! ### Encoding (30_encoding.md) -/

/-- R63, R65, R70, R71: decoding the word of a well-formed instruction gives the instruction back, for every
operand its fields can hold. -/
def Obligations.DecodeOfEncode : Prop :=
  ∀ i : Instr, i.wellFormed = true → Sys2Proof.decode (encode i) = .ok i

/-- R63 to R67, R70 to R72: a word that decodes is the word of its instruction, so no bit of an accepted word
is ignored and no two words mean the same. -/
def Obligations.EncodeOfDecode : Prop :=
  ∀ (w : PortWord) (i : Instr), Sys2Proof.decode w = .ok i → encode i = w

/-- R75: the encoding examples, as words and as lines of assembler text (R73, R74). The register-port words
stand at the port of register 0 (log entry 9). What the two illegal words answer is `IllegalCommandAnswered`. -/
def Obligations.EncodingExamples : Prop :=
  Sys2Proof.decode (.command 0x00040002) = .ok (.decode 0 4) ∧
  Sys2Proof.decode (.command 0x000D0101) = .ok (.peek 1 13) ∧
  Sys2Proof.decode (.command 0x00200002) = .ok (.decode 0 32) ∧
  Sys2Proof.decode (.command 0x00100004) = .ok (.readBytes 16) ∧
  Sys2Proof.decode (.command 0x00000005) = .ok .readByte ∧
  Sys2Proof.decode (.command 0x00000006) = .ok .totalIn ∧
  Sys2Proof.decode (.regPort 0 0xA50001) = .ok (.rFeed 0 0xA5) ∧
  Sys2Proof.decode (.regPort 0 0x000402) = .ok (.rPeek 0 4) ∧
  Sys2Proof.decode (.command 0x00000010) = .error .illegalOpcode ∧
  Sys2Proof.decode (.command 0x00000013) = .error .reservedNonzero ∧
  assembleLine 0 ['d', 'e', 'c', 'o', 'd', 'e', ' ', '4'] = some (.word (.command 0x00040002)) ∧
  assembleLine 0 ['d', 'e', 'c', 'o', 'd', 'e', ' ', '4', ',', ' ', 'r', '0'] =
    some (.word (.command 0x00040002)) ∧
  assembleLine 0 ['d', 'e', 'c', 'o', 'd', 'e', ' ', '3', '2', ',', ' ', 'r', '0'] =
    some (.word (.command 0x00200002)) ∧
  assembleLine 0 ['r', 'e', 'a', 'd', 'b', 'y', 't', 'e'] = some (.word (.command 0x00000005)) ∧
  assembleLine 0 ['t', 'o', 't', 'a', 'l', 'i', 'n'] = some (.word (.command 0x00000006)) ∧
  assembleLine 0 ['p', 'e', 'e', 'k', ' ', '1', '3', ',', ' ', 'r', '1'] =
    some (.word (.command 0x000D0101)) ∧
  assembleLine 0 ['r', 'e', 'a', 'd', 'b', 'y', 't', 'e', 's', ' ', '1', '6'] =
    some (.word (.command 0x00100004)) ∧
  assembleLine 0 ['r', '.', 'f', 'e', 'e', 'd', ' ', '0', 'x', 'A', '5'] =
    some (.word (.regPort 0 0xA50001)) ∧
  assembleLine 0 ['r', '.', 'p', 'e', 'e', 'k', ' ', '4'] = some (.word (.regPort 0 0x000402))

/-- R67: the step that takes an illegal command word answers `E_USAGE` with the subcause and changes no other
state. The fields are written as quotients and remainders of the word (R9). -/
def Obligations.IllegalCommandAnswered : Prop :=
  ∀ (s : State) (w : CommandWord) (rest : List PortWord),
    s.config.Legal → Between s → s.words = .command w :: rest →
    ((w.toNat % 16 = 0 ∨ 9 ≤ w.toNat % 16) → step s = .next (answered 1 1 { s with words := rest })) ∧
    (1 ≤ w.toNat % 16 → w.toNat % 16 ≤ 8 →
      (w.toNat / 16 % 16 ≠ 0 ∨ (w.toNat % 16 ∉ [1, 2, 4] ∧ w.toNat / 256 ≠ 0) ∨
        (w.toNat % 16 = 4 ∧ w.toNat / 256 % 256 ≠ 0)) →
      step s = .next (answered 1 2 { s with words := rest }))

/-- R66's last two checks and R105's codes 3 and 4: PEEK and DECODE of a register that is not there, else of
more than `MAXREQ` bits, answer `E_USAGE` and change nothing. -/
def Obligations.RangeCheckAnswered : Prop :=
  ∀ (s : State) (reg count : Nat),
    (s.regs.length ≤ reg →
      exec (.peek reg count) s = .next (answered 1 3 s) ∧
      exec (.decode reg count) s = .next (answered 1 3 s)) ∧
    (reg < s.regs.length → s.params.maxReq < count →
      exec (.peek reg count) s = .next (answered 1 4 s) ∧
      exec (.decode reg count) s = .next (answered 1 4 s))

/-- R72: the step that takes an illegal register-port word at the port of a register that is there answers
`E_USAGE` with the subcause on that port and changes no other state. That such a word comes as a presented word
is the model's choice (log entry 9). -/
def Obligations.IllegalRegPortAnswered : Prop :=
  ∀ (s : State) (p : Nat) (u : RegPortWord) (rest : List PortWord),
    s.config.Legal → Between s → s.words = .regPort p u :: rest → p < s.regs.length →
    ((u.toNat % 8 = 0 ∨ 6 ≤ u.toNat % 8) →
      step s = .next (portAnswered p 1 1 { s with words := rest })) ∧
    (1 ≤ u.toNat % 8 → u.toNat % 8 ≤ 5 →
      (u.toNat / 8 % 32 ≠ 0 ∨ (u.toNat % 8 = 1 ∧ u.toNat / 256 % 256 ≠ 0) ∨
        (u.toNat % 8 ∈ [2, 3] ∧ u.toNat / 65536 ≠ 0) ∨ (u.toNat % 8 ∈ [4, 5] ∧ u.toNat / 256 ≠ 0)) →
      step s = .next (portAnswered p 1 2 { s with words := rest }))

/-! ### The step and the handshake (R61, R120) -/

/-- R61, R66, R72: when no command is in progress, the step takes the next word, and if it decodes, runs its
instruction: a command with `BUSY` set, a register-port operation with the state as it is. Two clauses are the
model's choice: that one step takes a word and runs it (log entry 8), and that a register-port word comes from the
same list of presented words and runs outside the `BUSY` handshake (log entry 9). -/
def Obligations.StepRunsDecoded : Prop :=
  ∀ (s : State) (w : PortWord) (rest : List PortWord) (i : Instr),
    s.config.Legal → s.busy = false → s.words = w :: rest → Sys2Proof.decode w = .ok i →
    i.wellFormed = true ∧
    step s = exec i { s with words := rest, busy := isCommandWord w }

/-- A command in progress is gone on with; with no command in progress and no word presented nothing changes
(log entries 7 and 8: how the model steps). -/
def Obligations.StepResumesOrIdles : Prop :=
  ∀ s : State, s.config.Legal →
    (∀ i, s.busy = true → s.inFlight = some i → step s = exec i s) ∧
    (s.busy = false → s.words = [] → step s = .next s)

/-- R61, R62: while `BUSY` is 1 the presented words stay; when it is 0 the first one is taken. The step that
runs a command either ends it with one response and `BUSY = 0`, or leaves `BUSY = 1` and no response. That one
step takes a word and runs its command to the response or to a wait is the model's choice (log entry 8). -/
def Obligations.CommandHandshake : Prop :=
  ∀ s t : State, Inv s → step s = .next t → (s.busy = true ∨ s.words ≠ []) →
    (s.busy = true → t.words = s.words) ∧
    (s.busy = false → ∃ w, s.words = .command w :: t.words) ∧
    ((t.busy = false ∧ t.inFlight = none ∧
        ∃ st v, t.resps = s.resps ++ [{ port := .command, status := st, value := v }]) ∨
      (t.busy = true ∧ t.inFlight.isSome = true ∧ t.resps = s.resps))

/-- R51: if the source never returns, the command never responds: once a command waits on such a source, no
number of steps changes anything. How long a read waits stands in the source's state (log entries 6 and 7). -/
def Obligations.BlockedSourceNeverResponds : Prop :=
  ∀ (s t : State) (ws : List Wait) (k : Nat), Inv s → step s = .next t → t.busy = true →
    t.src.waits = .forever :: ws → Host.Core.run Sys2Proof.core k t = .next t

/-- R120: all state survives the wait and the source's return wakes the command: a command whose read waits
`k + 1` steps ends in the state it ends in when the read returns at once. The waits and the resumption are the
model's (log entries 6 and 7); the source is full-read, so that what a read returns does not depend on its wait. -/
def Obligations.WaitingIsTransparent : Prop :=
  ∀ (s t : State) (i : Instr) (k : Nat) (ws : List Wait),
    s.config.Legal → Lockstep s → DecoderBound s → s.params.srcFullRead = true → s.delivered = 0 →
    i.isCommand = true → exec i (withWaits (.steps 0 :: ws) s) = .next t → t.src.reads = s.src.reads + 1 →
    ∃ u, exec i (withWaits (.steps (k + 1) :: ws) s) = .next u ∧ u.busy = true ∧ u.resps = s.resps ∧
      Host.Core.run Sys2Proof.core (k + 1) u = .next t

/-! ### Construction and reset -/

/-- R37, R121: a block built from a legal configuration keeps it and has empty registers, `CUR`, `TOTAL` and
`BUSY` 0; RESET brings these back from any state (R103). -/
def Obligations.ResetState : Prop :=
  (∀ c : Config, c.Legal → ∃ s, build c = .next s ∧ s.config = c ∧
    (∀ r ∈ s.regs, r.q = []) ∧ s.cur = 0 ∧ s.total = 0 ∧ s.busy = false) ∧
  (∀ s : State, ∃ t, exec .reset s = .next t ∧ t.config = s.config ∧
    (∀ r ∈ t.regs, r.q = []) ∧ t.cur = 0 ∧ t.total = 0 ∧ t.busy = false)

/-- R8: no block is built from a configuration that breaks one of its conditions. -/
def Obligations.IllegalConfigurationRefused : Prop :=
  ∀ c : Config,
    (c.n < 1 ∨ c.params.cap < c.params.maxReq + 7 ∨ 64 < c.params.cap ∨ 65535 < c.params.tb.length ∨
      c.orders.length < c.n) →
    build c = .refused .illegalConfiguration

/-- R7, R19: no step changes the configuration, register-port operations included. -/
def Obligations.ConfigurationNeverChanges : Prop :=
  ∀ s t : State, step s = .next t → t.config = s.config

/-! ### Bit order and values (00_scope.md, 20_memory.md) -/

/-- R11: `expand` lists the bits of the byte from its least or from its most significant bit on. The spec takes the
`MSB_FIRST` half from general knowledge (log entry 10), here and in the next two statements. -/
def Obligations.ExpansionListsBits : Prop :=
  ∀ b : Byte,
    expand .lsbFirst b = [0, 1, 2, 3, 4, 5, 6, 7].map (fun k => b.toNat / 2 ^ k % 2 == 1) ∧
    expand .msbFirst b = [7, 6, 5, 4, 3, 2, 1, 0].map (fun k => b.toNat / 2 ^ k % 2 == 1)

/-- R12: `val` is the weighted sum of the front bits, below `2 ^ n`, 0 for no bits, and gives an expanded byte
back. -/
def Obligations.ValueIsWeightedSum : Prop :=
  (∀ (q : List Bool) (n : Nat), n ≤ q.length →
    bitVal .lsbFirst q n = ((List.range n).map fun i => (q.getD i false).toNat * 2 ^ i).sum ∧
    bitVal .msbFirst q n =
      ((List.range n).map fun i => (q.getD i false).toNat * 2 ^ (n - 1 - i)).sum) ∧
  (∀ (o : BitOrder) (q : List Bool) (n : Nat), bitVal o q n < 2 ^ n) ∧
  (∀ (o : BitOrder) (q : List Bool), bitVal o q 0 = 0) ∧
  (∀ (o : BitOrder) (b : Byte), bitVal o (expand o b) 8 = b.toNat)

/-- R42: a value that spans bytes has the earlier byte in its low bits with `LSB_FIRST` and in its high bits with
`MSB_FIRST`; said for any number of bytes, of which R42's two are a case. -/
def Obligations.MultiByteValue : Prop :=
  ∀ (b : Byte) (bs : List Byte),
    bitVal .lsbFirst ((b :: bs).flatMap (expand .lsbFirst)) (8 * (bs.length + 1)) =
      b.toNat + 256 * bitVal .lsbFirst (bs.flatMap (expand .lsbFirst)) (8 * bs.length) ∧
    bitVal .msbFirst ((b :: bs).flatMap (expand .msbFirst)) (8 * (bs.length + 1)) =
      b.toNat * 256 ^ bs.length + bitVal .msbFirst (bs.flatMap (expand .msbFirst)) (8 * bs.length)

/-! ### The operations of one BitRegister (40_register_ops.md) -/

/-- R76: R.FEED appends the byte's bits where they fit, else answers `REG_OVERFLOW`; nothing else changes. -/
def Obligations.RegisterFeed : Prop :=
  ∀ (s : State) (p : Nat) (data : Byte) (r : BitReg), s.regs[p]? = some r →
    encode (.rFeed p data) = .regPort p (BitVec.ofNat 24 (data.toNat * 65536 + 1)) ∧
    (r.q.length + 8 ≤ s.params.cap →
      exec (.rFeed p data) s = .next (portAnswered p 0 0
        { s with regs := s.regs.set p { r with q := r.q ++ expand r.order data } })) ∧
    (s.params.cap < r.q.length + 8 → exec (.rFeed p data) s = .next (portAnswered p 1 5 s))

/-- R77: R.PEEK answers the value of the front bits and changes nothing; `COUNT_RANGE` comes before
`REG_UNDERFLOW`. -/
def Obligations.RegisterPeek : Prop :=
  ∀ (s : State) (p n : Nat) (r : BitReg), s.params.cap ≤ 64 → s.regs[p]? = some r → n < 256 →
    encode (.rPeek p n) = .regPort p (BitVec.ofNat 24 (n * 256 + 2)) ∧
    (n ≤ s.params.cap → n ≤ r.q.length →
      ∃ v : BitVec 64, v.toNat = bitVal r.order r.q n ∧
        exec (.rPeek p n) s = .next (portAnswered p 0 v s)) ∧
    (s.params.cap < n → exec (.rPeek p n) s = .next (portAnswered p 1 4 s)) ∧
    (n ≤ s.params.cap → r.q.length < n → exec (.rPeek p n) s = .next (portAnswered p 1 6 s))

/-- R78: R.DISCARD removes the front bits; `COUNT_RANGE` comes before `REG_UNDERFLOW`. -/
def Obligations.RegisterDiscard : Prop :=
  ∀ (s : State) (p n : Nat) (r : BitReg), s.regs[p]? = some r → n < 256 →
    encode (.rDiscard p n) = .regPort p (BitVec.ofNat 24 (n * 256 + 3)) ∧
    (n ≤ s.params.cap → n ≤ r.q.length →
      exec (.rDiscard p n) s = .next (portAnswered p 0 0
        { s with regs := s.regs.set p { r with q := r.q.drop n } })) ∧
    (s.params.cap < n → exec (.rDiscard p n) s = .next (portAnswered p 1 4 s)) ∧
    (n ≤ s.params.cap → r.q.length < n → exec (.rDiscard p n) s = .next (portAnswered p 1 6 s))

/-- R79, R80: R.COUNT answers the bit count and changes nothing; R.CLEAR empties the register and nothing
else. -/
def Obligations.RegisterCountAndClear : Prop :=
  ∀ (s : State) (p : Nat) (r : BitReg), s.regs[p]? = some r →
    encode (.rCount p) = .regPort p 0x000004 ∧ encode (.rClear p) = .regPort p 0x000005 ∧
    (r.q.length < 2 ^ 64 → ∃ v : BitVec 64, v.toNat = r.q.length ∧
      exec (.rCount p) s = .next (portAnswered p 0 v s)) ∧
    exec (.rClear p) s = .next (portAnswered p 0 0
      { s with regs := s.regs.set p { r with q := [] } })

/-- The model's choice (log entry 9): an operation at the port of a register that is not there is refused. -/
def Obligations.AbsentRegisterPortRefused : Prop :=
  ∀ (s : State) (p n : Nat) (data : Byte), s.regs.length ≤ p →
    exec (.rFeed p data) s = .refused .noSuchRegisterPort ∧
    exec (.rPeek p n) s = .refused .noSuchRegisterPort ∧
    exec (.rDiscard p n) s = .refused .noSuchRegisterPort ∧
    exec (.rCount p) s = .refused .noSuchRegisterPort ∧
    exec (.rClear p) s = .refused .noSuchRegisterPort

/-- R82: the shift register with `W = val(o, R.q, c)` and `c = |R.q|` gives the same results as the queue, and
keeps `W < 2 ^ c ≤ 2 ^ CAP`. -/
def Obligations.ShiftRegisterRefinesQueue : Prop :=
  ∀ (cap : Nat) (r : BitReg), r.q.length ≤ cap →
    (∀ b r', regFeed cap b r = .ok r' → shiftFeed b (shiftOf r) = shiftOf r') ∧
    (∀ n v, regPeek cap n r = .ok v → shiftPeek n (shiftOf r) = v) ∧
    (∀ n r', regDiscard cap n r = .ok r' → shiftDiscard n (shiftOf r) = shiftOf r') ∧
    (shiftOf r).count = regCount r ∧ shiftClear (shiftOf r) = shiftOf (regClear r) ∧
    (shiftOf r).word < 2 ^ (shiftOf r).count ∧ 2 ^ (shiftOf r).count ≤ 2 ^ cap

/-! ### PEEK and DECODE (41_bit_access.md) -/

/-- R85, R89: PEEK in closed form, and its frame. With the feed's supply it answers the value of the front bits of
register `reg`; without it, `E_INSUFFICIENT`. In both cases the only other change is the feed's. The source's
read, if any, returns at once (log entry 6); how much it returns is free for a short-reading one (log entry 5). -/
def Obligations.PeekResult : Prop :=
  ∀ (s : State) (reg count : Nat), s.config.Legal → Lockstep s → DecoderBound s →
    reg < s.regs.length → count ≤ s.params.maxReq → (noRead count s = true ∨ SourceReady s) →
    ((supply count s).length = needBytes count s →
      ∃ v : BitVec 64, v.toNat = frontValue reg count (fedState count s) ∧
        exec (.peek reg count) s = .next (answered 0 v (fedState count s))) ∧
    ((supply count s).length ≠ needBytes count s →
      exec (.peek reg count) s = .next (answered 2 0 (fedState count s)))

/-- R90, R28: DECODE in closed form, and its frame: as PEEK, and then `count` bits are discarded from every
register and counted; where the counter cannot hold the sum, `fault(TOTAL_OVERFLOW)`. The source's read, if any,
returns at once (log entry 6). -/
def Obligations.DecodeResult : Prop :=
  ∀ (s : State) (reg count : Nat), s.config.Legal → Lockstep s → DecoderBound s →
    reg < s.regs.length → count ≤ s.params.maxReq → (noRead count s = true ∨ SourceReady s) →
    ((supply count s).length = needBytes count s → s.total.toNat + count < 2 ^ 64 →
      ∃ v : BitVec 64, v.toNat = frontValue reg count (fedState count s) ∧
        exec (.decode reg count) s = .next (answered 0 v { fedState count s with
          regs := discardedRegs count (fedState count s)
          total := s.total + BitVec.ofNat 64 count })) ∧
    ((supply count s).length = needBytes count s → 2 ^ 64 ≤ s.total.toNat + count →
      exec (.decode reg count) s = .fault .totalOverflow) ∧
    ((supply count s).length ≠ needBytes count s →
      exec (.decode reg count) s = .next (answered 2 0 (fedState count s)))

/-- R87, of the feed algorithm that PEEK and DECODE share: where it goes on,
`count ≤ BC(0) ≤ max(BC_before, count + 7)`; where it ends in `E_INSUFFICIENT`, `BC(0) < count`; and within a
request of `MAXREQ` bits no feed overflows a register, and no register passes `MAXREQ + 7 ≤ CAP` bits. -/
def Obligations.EnsureBound : Prop :=
  ∀ (i : Instr) (count : Nat) (s : State), s.config.Legal → Lockstep s →
    (∀ t, ensure i count s = .ok t →
      count ≤ bitCount 0 t ∧ bitCount 0 t ≤ max (bitCount 0 s) (count + 7) ∧
      (DecoderBound s → count ≤ s.params.maxReq → DecoderBound t ∧ CapacityBound t)) ∧
    (∀ t, ensure i count s = .error (raiseInsufficient t) →
      bitCount 0 t < count ∧
      (DecoderBound s → count ≤ s.params.maxReq → DecoderBound t ∧ CapacityBound t)) ∧
    (DecoderBound s → count ≤ s.params.maxReq → ∀ f, ensure i count s ≠ .error (.fault f))

/-- R88: after `E_INSUFFICIENT` the cursor is at `T`, every byte fed stays in every register, nothing was discarded
or counted, and the bytes taken from the source are gone from it. -/
def Obligations.InsufficientKeepsFedBytes : Prop :=
  ∀ (s t : State) (i : Instr) (v : BitVec 64), s.config.Legal → CursorBound s →
    exec i s = .next t → t.resps = s.resps ++ [{ port := .command, status := 2, value := v }] →
    t.cur.toNat = s.params.tb.length ∧ t.total = s.total ∧ t.dst = s.dst ∧ v = 0 ∧
    ∃ j, Advanced j s.src t.src ∧
      t.regs = s.regs.map (fedReg (nextBytes j s.src ++ s.params.tb.drop s.cur.toNat))

/-- R91: after a PEEK that answered a value, PEEK answers the same value and changes nothing more, and DECODE
answers it too. -/
def Obligations.PeekIsNonDestructive : Prop :=
  ∀ (s t : State) (reg count : Nat) (v : BitVec 64), s.config.Legal → Lockstep s → DecoderBound s →
    exec (.peek reg count) s = .next t →
    t.resps = s.resps ++ [{ port := .command, status := 0, value := v }] →
    exec (.peek reg count) t = .next (answered 0 v t) ∧
    (t.total.toNat + count < 2 ^ 64 → exec (.decode reg count) t = .next (answered 0 v
      { t with regs := discardedRegs count t, total := t.total + BitVec.ofNat 64 count }))

/-- R92: from `TOTAL = 0`, TOTALIN after a sequence of DECODE commands that were all answered `OK` reports
`ceil(B/8)`, `B` the sum of their counts. And such sequences there are: with a full-read source that makes no
read wait (log entry 6), every one whose counts sum to no more than can be supplied is answered in full. -/
def Obligations.RoundTripAccounting : Prop :=
  (∀ (s t : State) (reads : List (Nat × Nat)) (answers : List Response), s.config.Legal → s.total = 0 →
    execAll (reads.map fun p => .decode p.1 p.2) s = some t → t.resps = s.resps ++ answers →
    answers.length = reads.length → (∀ r ∈ answers, r.status = 0) →
    ∃ v : BitVec 64, v.toNat = ((reads.map (·.2)).sum + 7) / 8 ∧
      exec .totalIn t = .next (answered 0 v t)) ∧
  (∀ (s : State) (reads : List (Nat × Nat)), s.config.Legal → Lockstep s → DecoderBound s →
    CursorBound s → s.params.srcFullRead = true → s.src.waits = [] → s.total = 0 →
    (∀ p ∈ reads, p.1 < s.regs.length ∧ p.2 ≤ s.params.maxReq) →
    CanSupply (reads.map (·.2)).sum s → (reads.map (·.2)).sum < 2 ^ 64 →
    ∃ t answers, execAll (reads.map fun p => .decode p.1 p.2) s = some t ∧
      t.resps = s.resps ++ answers ∧ answers.length = reads.length ∧ ∀ r ∈ answers, r.status = 0)

/-- R93: a DECODE that answered a value, through whichever register, discarded `count` bits from every register:
each register `k` then holds what the feed left it less `count` bits, and a PEEK through it answers from there. -/
def Obligations.RegisterSynchronization : Prop :=
  ∀ (s t : State) (reg count : Nat) (v : BitVec 64), s.config.Legal → Lockstep s → DecoderBound s →
    exec (.decode reg count) s = .next t →
    t.resps = s.resps ++ [{ port := .command, status := 0, value := v }] →
    ∀ (k m : Nat) (r : BitReg), (fedState count s).regs[k]? = some r → m ≤ s.params.maxReq →
      m ≤ bitCount 0 t →
      t.regs[k]? = some { r with q := r.q.drop count } ∧ bitCount k t = r.q.length - count ∧
      ∃ w : BitVec 64, w.toNat = bitVal r.order (r.q.drop count) m ∧
        exec (.peek k m) t = .next (answered 0 w t)

/-- R94: with a full-read source, bits are drawn from the source first and then from the trailing buffer, in
order; a request within them succeeds and a request beyond them is `E_INSUFFICIENT`. The read returns at once (log
entry 6). -/
def Obligations.TrailingByteFallback : Prop :=
  ∀ (s : State) (reg count : Nat), s.config.Legal → Lockstep s → DecoderBound s → CursorBound s →
    s.params.srcFullRead = true → SourceReady s → reg < s.regs.length → count ≤ s.params.maxReq →
    ∃ t, exec (.peek reg count) s = .next t ∧
      t.regs = s.regs.map (fedReg
        (((if paddingBegun s then [] else nextBytes ((count - bitCount 0 s + 7) / 8) s.src) ++
          s.params.tb.drop s.cur.toNat).take ((count - bitCount 0 s + 7) / 8))) ∧
      (CanSupply count s →
        ∃ v, t.resps = s.resps ++ [{ port := .command, status := 0, value := v }]) ∧
      (¬ CanSupply count s →
        t.resps = s.resps ++ [{ port := .command, status := 2, value := 0 }])

/-- R53, R90: bits are consumed in stream order. With a full-read source that makes no read wait (log entry 6), a
sequence of DECODE commands, each through a register of its own choice, answers the successive fields of the
stream as those registers see it, and counts their bits. -/
def Obligations.DecodeReadsTheStream : Prop :=
  ∀ (s : State) (fields : List (Nat × Nat)), s.config.Legal → Lockstep s → DecoderBound s →
    CursorBound s → s.params.srcFullRead = true → s.src.waits = [] →
    (∀ p ∈ fields, p.1 < s.regs.length ∧ p.2 ≤ s.params.maxReq) →
    CanSupply (fields.map (·.2)).sum s → s.total.toNat + (fields.map (·.2)).sum < 2 ^ 64 →
    ∃ (t : State) (answers : List Response),
      execAll (fields.map fun p => .decode p.1 p.2) s = some t ∧ t.resps = s.resps ++ answers ∧
      (∀ r ∈ answers, r.port = .command ∧ r.status = 0) ∧
      answers.map (·.value.toNat) = fieldValues s 0 fields ∧
      t.total.toNat = s.total.toNat + (fields.map (·.2)).sum

/-! ### ALIGN, READBYTES and READBYTE (42_align_bulk.md) -/

/-- R95, R96, R28: ALIGN discards `BC(0) mod 8` bits from every register and counts them, and changes nothing
else; where the counter cannot hold the sum, `fault(TOTAL_OVERFLOW)`. -/
def Obligations.AlignResult : Prop :=
  encode .align = .command 0x00000003 ∧
  ∀ s : State, s.config.Legal → Lockstep s →
    (s.total.toNat + bitCount 0 s % 8 < 2 ^ 64 →
      exec .align s = .next (answered 0 0 { s with
        regs := discardedRegs (bitCount 0 s % 8) s
        total := s.total + BitVec.ofNat 64 (bitCount 0 s % 8) })) ∧
    (2 ^ 64 ≤ s.total.toNat + bitCount 0 s % 8 → exec .align s = .fault .totalOverflow)

/-- R97: ALIGN twice is ALIGN once: the second discards and counts nothing. After it every bit count is a
multiple of 8 (R96). -/
def Obligations.AlignIsIdempotent : Prop :=
  ∀ s t : State, Lockstep s → exec .align s = .next t →
    exec .align t = .next (answered 0 0 t) ∧ ∀ r ∈ t.regs, r.q.length % 8 = 0

/-- R45: after ALIGN the front of every register is the first bit of a fed byte, and the discarded count `D` of R23 is
a multiple of 8: whatever bytes `fed` and whatever count `dropped` R23 gives the queues before it, after it they are
the same bytes less the first `k` of them, `8 * k` bits being dropped in all. -/
def Obligations.AlignedFront : Prop :=
  ∀ (s t : State) (fed : List Byte) (dropped : Nat), s.config.Legal → dropped ≤ 8 * fed.length →
    (∀ r ∈ s.regs, r.q = (fed.flatMap (expand r.order)).drop dropped) → exec .align s = .next t →
    ∃ k, 8 * k = dropped + bitCount 0 s % 8 ∧ k ≤ fed.length ∧
      ∀ r ∈ t.regs, r.q = (fed.drop k).flatMap (expand r.order)

/-- R43, R54: the byte-aligned paths move whole bytes unchanged and in stream order, for either bit order: with the
bytes `bs` buffered and a full-read source, READBYTES writes the first `ROOM` bytes of `bs` and then of the source,
and READBYTE answers the first of them, or `EOS` where there is none. The read returns at once (log entry 6). -/
def Obligations.BulkMovesBytesUnchanged : Prop :=
  ∀ (s : State) (bs : List Byte) (room : Nat), s.config.Legal → DecoderBound s → s.delivered = 0 →
    (∀ r ∈ s.regs, r.q = bs.flatMap (expand r.order)) → paddingBegun s = false →
    s.params.srcFullRead = true → SourceReady s → s.total.toNat + 8 * (room + 1) < 2 ^ 64 →
    (∃ t, exec (.readBytes room) s = .next t ∧ t.dst = s.dst ++ (bs ++ nextBytes room s.src).take room) ∧
    (∃ t, exec .readByte s = .next t ∧ t.resps = s.resps ++
      [match bs ++ nextBytes 1 s.src with
        | [] => { port := .command, status := 3, value := 0 }
        | b :: _ => { port := .command, status := 0, value := b.setWidth 64 }])

/-- R98, R28: READBYTES in closed form, and its frame: align, drain what is buffered as far as there is room, then,
unless padding has begun, one direct read into the room left; `EOS` for no byte where there was room. The read, if
any, returns at once (log entry 6). -/
def Obligations.ReadBytesResult : Prop :=
  ∀ (s : State) (room r d j : Nat) (direct : Bool), s.config.Legal → Lockstep s → DecoderBound s →
    s.delivered = 0 → r = bitCount 0 s % 8 → d = min room (bitCount 0 s / 8) →
    direct = (decide (d < room) && !paddingBegun s) → (direct = true → SourceReady s) →
    j = (if direct then readCount s.params.srcFullRead (room - d) s.src else 0) →
    (s.total.toNat + (r + 8 * (d + j)) < 2 ^ 64 →
      exec (.readBytes room) s = .next (answered (if d + j = 0 ∧ 0 < room then 3 else 0)
        (BitVec.ofNat 64 (d + j))
        { s with
          regs := discardedRegs (r + 8 * d) s
          total := s.total + BitVec.ofNat 64 (r + 8 * (d + j))
          dst := s.dst ++ bufferedBytes r d s ++ nextBytes j s.src
          src := if direct then sourceAfter j s.src else s.src })) ∧
    (2 ^ 64 ≤ s.total.toNat + (r + 8 * (d + j)) → exec (.readBytes room) s = .fault .totalOverflow)

/-- R99, R28: READBYTE with a byte buffered answers it and discards its bits everywhere; with none it reads one
byte directly unless padding has begun, and answers `EOS` where there is none; where the counter cannot hold the
sum, `fault(TOTAL_OVERFLOW)`. The read, if any, returns at once (log entry 6). -/
def Obligations.ReadByteResult : Prop :=
  ∀ (s : State) (r : Nat), s.config.Legal → Lockstep s → DecoderBound s → r = bitCount 0 s % 8 →
    (8 ≤ bitCount 0 s → s.total.toNat + (r + 8) < 2 ^ 64 →
      exec .readByte s = .next (answered 0
        (BitVec.ofNat 64 (frontValue 0 8 { s with regs := discardedRegs r s }))
        { s with
          regs := discardedRegs (r + 8) s
          total := s.total + BitVec.ofNat 64 (r + 8) })) ∧
    (8 ≤ bitCount 0 s → 2 ^ 64 ≤ s.total.toNat + (r + 8) →
      exec .readByte s = .fault .totalOverflow) ∧
    (bitCount 0 s < 8 → paddingBegun s = true → s.total.toNat + r < 2 ^ 64 →
      exec .readByte s = .next (answered 3 0 { s with
        regs := discardedRegs r s
        total := s.total + BitVec.ofNat 64 r })) ∧
    (∀ j, bitCount 0 s < 8 → paddingBegun s = false → SourceReady s →
      j = readCount s.params.srcFullRead 1 s.src →
      (nextBytes j s.src = [] → s.total.toNat + r < 2 ^ 64 →
        exec .readByte s = .next (answered 3 0 { s with
          regs := discardedRegs r s
          total := s.total + BitVec.ofNat 64 r
          src := sourceAfter j s.src })) ∧
      (∀ b, nextBytes j s.src = [b] → s.total.toNat + (r + 8) < 2 ^ 64 →
        exec .readByte s = .next (answered 0 (b.setWidth 64) { s with
          regs := discardedRegs r s
          total := s.total + BitVec.ofNat 64 (r + 8)
          src := sourceAfter j s.src })) ∧
      (∀ b, nextBytes j s.src = [b] → 2 ^ 64 ≤ s.total.toNat + (r + 8) →
        exec .readByte s = .fault .totalOverflow)) ∧
    (2 ^ 64 ≤ s.total.toNat + r → exec .readByte s = .fault .totalOverflow)

/-- R100: decoding a byte-aligned run of `n` bytes by DECODE of 8 bits of register 0 gives the byte values that
READBYTES of the same region gives, and both count the same, while the bytes come from the buffer or the source.
No read waits (log entry 6). -/
def Obligations.BulkEqualsBitPath : Prop :=
  ∀ (s : State) (n : Nat), s.config.Legal → Lockstep s → DecoderBound s → s.delivered = 0 →
    bitCount 0 s % 8 = 0 → paddingBegun s = false → s.params.srcFullRead = true → s.src.waits = [] →
    8 ≤ s.params.maxReq → n ≤ bitCount 0 s / 8 + (nextBytes n s.src).length → s.total.toNat + 8 * n < 2 ^ 64 →
    ∃ (bs : List Byte) (t u : State), bs.length = n ∧
      execAll (List.replicate n (.decode 0 8)) s = some t ∧
      t.resps = s.resps ++
        bs.map (fun b => { port := .command, status := 0, value := b.setWidth 64 }) ∧
      exec (.readBytes n) s = .next u ∧ u.dst = s.dst ++ bs ∧ u.total = t.total

/-! ### TOTALIN, CLEAR and RESET (43_control.md) -/

/-- R101, R27: TOTALIN answers `ceil(TOTAL / 8)` and changes nothing. -/
def Obligations.TotalInResult : Prop :=
  encode .totalIn = .command 0x00000006 ∧
  ∀ s : State, ∃ v : BitVec 64, v.toNat = (s.total.toNat + 7) / 8 ∧ v.toNat ≤ 2 ^ 61 ∧
    exec .totalIn s = .next (answered 0 v s)

/-- R102: CLEAR empties every register and changes nothing else: not `TOTAL`, not `CUR`, not the source. -/
def Obligations.ClearResult : Prop :=
  encode .clear = .command 0x00000007 ∧
  ∀ s : State, exec .clear s = .next (answered 0 0
    { s with regs := s.regs.map fun r => { order := r.order, q := [] } })

/-- R103: RESET empties every register and sets `CUR` and `TOTAL` to 0, and touches neither the source nor the
configuration. -/
def Obligations.ResetResult : Prop :=
  encode .reset = .command 0x00000008 ∧
  ∀ s : State, exec .reset s = .next (answered 0 0
    { s with regs := s.regs.map fun r => { order := r.order, q := [] }, cur := 0, total := 0 })

/-! ### Whole-machine rules -/

/-- R20, R22, R23, R29, R31: every step keeps the invariant of a block that a host drives. That the invariant asks
for words of the command port only is the model's (log entry 9), and so are the fields of a command in progress
(log entry 7). -/
def Obligations.StepKeepsInvariant : Prop :=
  ∀ s t : State, Inv s → step s = .next t → Inv t

/-- The invariant holds at reset and of every block built from a legal configuration, whatever source is
connected (R37, R123). `State.reset` itself is the model's choice of a configuration (log entry 4). -/
def Obligations.StartHasInvariant : Prop :=
  Inv State.reset ∧ ∀ (c : Config) (src : Source), c.Legal → Inv (connected c src)

/-- R20, R22: in every reachable state no register holds more than `CAP` bits, nor more than `MAXREQ + 7`, and all
hold the same number. -/
def Obligations.ReachableWithinCapacity : Prop :=
  ∀ s : State, Reachable s → CapacityBound s ∧ DecoderBound s ∧ Lockstep s

/-- R20: no step makes a register exceed its capacity, whatever the configuration's other values and register-port
operations included. -/
def Obligations.CapacityNeverExceeded : Prop :=
  ∀ s t : State, CapacityBound s → step s = .next t → CapacityBound t

/-- R83: the decoder never makes a register operation fail: a step of a block that a host drives raises no
`REGISTER_CONTRACT` fault, and is never refused. -/
def Obligations.RegisterContractNeverBroken : Prop :=
  ∀ s : State, Inv s →
    (∀ f, step s = .fault f → f = .totalOverflow) ∧ ∀ r, step s ≠ .refused r

/-- R26: `TOTAL` never decreases but by RESET, and DECODE, ALIGN, READBYTES and READBYTE are the only other
commands that change it. -/
def Obligations.TotalNeverDecreases : Prop :=
  ∀ (s t : State) (i : Instr), s.config.Legal → exec i s = .next t → i ≠ .reset →
    s.total.toNat ≤ t.total.toNat ∧
    (s.total ≠ t.total → (∃ reg count, i = .decode reg count) ∨ i = .align ∨ i = .readByte ∨
      ∃ room, i = .readBytes room)

/-- R30: while `CUR > 0` no command reads the source, and RESET alone sets `CUR` back to 0; with `T = 0`, `CUR`
stays 0. -/
def Obligations.PaddingLatch : Prop :=
  ∀ (s t : State) (i : Instr), s.config.Legal → CursorBound s → exec i s = .next t →
    (0 < s.cur.toNat → t.src = s.src) ∧
    (0 < s.cur.toNat → i ≠ .reset → 0 < t.cur.toNat) ∧
    (i = .reset → t.cur = 0) ∧
    (s.params.tb = [] → t.cur = 0)

/-- R106: a step that answers `E_USAGE` changes no state but `BUSY`, and the word it took: it reads no source and
writes no destination. -/
def Obligations.UsageChangesNothing : Prop :=
  ∀ (s t : State) (p : Port) (v : BitVec 64), step s = .next t →
    t.resps = s.resps ++ [{ port := p, status := 1, value := v }] →
    (p = .command → t = answered 1 v { s with words := t.words }) ∧
    (∀ k, p = .register k → t = portAnswered k 1 v { s with words := t.words })

/-- R107, R108, R69: only PEEK and DECODE answer `E_INSUFFICIENT`, only READBYTES and READBYTE answer `EOS`, both
with the value 0, and no status above 3 is ever answered. -/
def Obligations.StatusProducers : Prop :=
  ∀ (s t : State) (i : Instr) (r : Response), s.config.Legal → exec i s = .next t →
    t.resps = s.resps ++ [r] →
    (r.status = 2 →
      r.value = 0 ∧ ((∃ reg count, i = .peek reg count) ∨ ∃ reg count, i = .decode reg count)) ∧
    (r.status = 3 → r.value = 0 ∧ (i = .readByte ∨ ∃ room, i = .readBytes room)) ∧
    r.status.toNat ≤ 3

/-- R49, R52, R131: an instruction makes at most one source read and removes the bytes it returns from the source's
front; it only appends to the destination, only READBYTES does, and at most `ROOM` bytes in all. -/
def Obligations.StreamsAdvance : Prop :=
  ∀ (s t : State) (i : Instr), s.config.Legal → exec i s = .next t →
    (Advanced 0 s.src t.src ∧ t.src.reads = s.src.reads ∨
      ∃ j, Advanced j s.src t.src ∧ t.src.reads = s.src.reads + 1) ∧
    ∃ bs, t.dst = s.dst ++ bs ∧
      (bs ≠ [] → ∃ room, i = .readBytes room ∧ bs.length ≤ room - s.delivered)

/-- R50: a read of `k` bytes that returns (log entry 6) answers the next `j` bytes of the stream and advances the
position by `j`, and changes nothing else of the block. A full-read source returns `min(k, remaining)`, which is `k`
on an endless stream, and after a shorter read it has nothing more; a short-reading one returns any number up to that
(log entry 5). How the state holds a stream, finite or not, is the model's (log entry 13). -/
def Obligations.SourceReadReturns : Prop :=
  ∀ (i : Instr) (n k : Nat) (s : State), SourceReady s →
    ∃ (j : Nat) (src : Source), srcRead i n k s = .ok (nextBytes j s.src, { s with src := src }) ∧
      Advanced j s.src src ∧ j ≤ k ∧ (s.src.rest = .ends → j ≤ s.src.bytes.length) ∧
      (s.params.srcFullRead = true →
        (s.src.rest = .ends → j = min k s.src.bytes.length) ∧
        (∀ stream pos, s.src.rest = .endless stream pos → j = k) ∧
        (j < k → ∀ m, nextBytes m src = []))
end

