-- ==== Sys2Proof/Laws/Bits.lean ====
section
/-! SUPPORT. The arithmetic of bit queues: lengths, bounds and values of `expand` and `val` (R11, R12), and
`ceil_div` (R13). -/

namespace Sys2Proof.Machine

@[simp] theorem expand_length (o : BitOrder) (b : Byte) : (expand o b).length = 8 := by
  cases o <;> rfl

/-- A list of bytes expands to eight bits each. -/
@[simp] theorem expandAll_length (o : BitOrder) (bs : List Byte) :
    (bs.flatMap (expand o)).length = 8 * bs.length := by
  induction bs with
  | nil => rfl
  | cons b bs ih => simp [ih]; omega

@[simp] theorem lsbValue_nil : lsbValue [] = 0 := rfl

@[simp] theorem lsbValue_cons (b : Bool) (q : List Bool) :
    lsbValue (b :: q) = b.toNat + 2 * lsbValue q := rfl

/-- A queue of `n` bits has a value below `2 ^ n`. -/
theorem lsbValue_lt (q : List Bool) : lsbValue q < 2 ^ q.length := by
  induction q with
  | nil => simp
  | cons b q ih =>
    have hb : b.toNat ≤ 1 := Bool.toNat_le b
    simp only [lsbValue_cons, List.length_cons, Nat.pow_succ]
    omega

/-- The later part of a queue counts from the weight of its first bit on. -/
theorem lsbValue_append (p q : List Bool) :
    lsbValue (p ++ q) = lsbValue p + 2 ^ p.length * lsbValue q := by
  induction p with
  | nil => simp
  | cons b p ih =>
    simp only [List.cons_append, lsbValue_cons, ih, List.length_cons, Nat.pow_succ]
    ring

/-- The value of a prefix is below `2 ^ n` (R12). -/
theorem bitVal_lt (o : BitOrder) (q : List Bool) (n : Nat) : bitVal o q n < 2 ^ n := by
  have key : ∀ l : List Bool, l.length ≤ n → lsbValue l < 2 ^ n := fun l hl =>
    lt_of_lt_of_le (lsbValue_lt l) (Nat.pow_le_pow_right (by omega) hl)
  cases o <;> exact key _ (by simp)

@[simp] theorem bitVal_zero (o : BitOrder) (q : List Bool) : bitVal o q 0 = 0 := by
  cases o <;> simp [bitVal]

/-- Bits behind the prefix do not matter. -/
theorem bitVal_append (o : BitOrder) (p q : List Bool) (n : Nat) (h : n ≤ p.length) :
    bitVal o (p ++ q) n = bitVal o p n := by
  cases o <;> simp [bitVal, List.take_append_of_le_length h]

/-- The least significant digits of a byte make the byte. -/
theorem lsbValue_expand (b : Byte) : lsbValue (expand .lsbFirst b) = b.toNat := by
  revert b; decide

/-- The most significant bit queued first is read back with its weight. -/
theorem lsbValue_expand_reverse (b : Byte) : lsbValue (expand .msbFirst b).reverse = b.toNat := by
  revert b; decide

/-- `val(o, expand(o, b), 8) = b` (R12), whatever follows the byte in the queue (R43). -/
theorem bitVal_expand (o : BitOrder) (b : Byte) (q : List Bool) :
    bitVal o (expand o b ++ q) 8 = b.toNat := by
  rw [bitVal_append o _ _ _ (by simp)]
  cases o
  · rw [bitVal, List.take_of_length_le (by simp), lsbValue_expand]
  · rw [bitVal, List.take_of_length_le (by simp), lsbValue_expand_reverse]

/-- `ceil_div` rounds up: the least `c` with `a ≤ 8 * c`. -/
theorem ceilDiv_eight_spec (a : Nat) : a ≤ 8 * ceilDiv a 8 ∧ 8 * ceilDiv a 8 ≤ a + 7 := by
  unfold ceilDiv; omega

@[simp] theorem ceilDiv_zero_eight : ceilDiv 0 8 = 0 := rfl

theorem ceilDiv_eight_eq_zero {a : Nat} : ceilDiv a 8 = 0 ↔ a = 0 := by
  unfold ceilDiv; omega

/-- Dropping whole bytes from a queue of bytes leaves the later bytes. -/
theorem expandAll_drop (o : BitOrder) (bs : List Byte) (k : Nat) :
    (bs.flatMap (expand o)).drop (8 * k) = (bs.drop k).flatMap (expand o) := by
  induction bs generalizing k with
  | nil => simp
  | cons b bs ih =>
    cases k with
    | zero => simp
    | succ k =>
      rw [List.flatMap_cons, show 8 * (k + 1) = (expand o b).length + 8 * k by simp; omega,
        List.drop_length_add_append, ih]
      rfl

end Sys2Proof.Machine
end

