-- ==== Sys2Proof/Laws/State.lean ====
section
/-! SUPPORT. What each named state update does to each field, by `rfl`, so that no proof unfolds a record
update. -/

namespace Sys2Proof.Machine

@[simp] theorem responded_regs (st : Status) (v : BitVec 64) (s : State) :
    (responded st v s).regs = s.regs := rfl
@[simp] theorem responded_cur (st : Status) (v : BitVec 64) (s : State) :
    (responded st v s).cur = s.cur := rfl
@[simp] theorem responded_total (st : Status) (v : BitVec 64) (s : State) :
    (responded st v s).total = s.total := rfl
@[simp] theorem responded_busy (st : Status) (v : BitVec 64) (s : State) :
    (responded st v s).busy = false := rfl
@[simp] theorem responded_inFlight (st : Status) (v : BitVec 64) (s : State) :
    (responded st v s).inFlight = none := rfl
@[simp] theorem responded_delivered (st : Status) (v : BitVec 64) (s : State) :
    (responded st v s).delivered = 0 := rfl
@[simp] theorem responded_params (st : Status) (v : BitVec 64) (s : State) :
    (responded st v s).params = s.params := rfl
@[simp] theorem responded_words (st : Status) (v : BitVec 64) (s : State) :
    (responded st v s).words = s.words := rfl
@[simp] theorem responded_src (st : Status) (v : BitVec 64) (s : State) :
    (responded st v s).src = s.src := rfl
@[simp] theorem responded_dst (st : Status) (v : BitVec 64) (s : State) :
    (responded st v s).dst = s.dst := rfl
@[simp] theorem responded_resps (st : Status) (v : BitVec 64) (s : State) :
    (responded st v s).resps = s.resps ++ [{ port := .command, status := statusCode st, value := v }] := rfl

@[simp] theorem portResponded_regs (i : Nat) (st : Status) (v : BitVec 64) (s : State) :
    (portResponded i st v s).regs = s.regs := rfl
@[simp] theorem portResponded_cur (i : Nat) (st : Status) (v : BitVec 64) (s : State) :
    (portResponded i st v s).cur = s.cur := rfl
@[simp] theorem portResponded_total (i : Nat) (st : Status) (v : BitVec 64) (s : State) :
    (portResponded i st v s).total = s.total := rfl
@[simp] theorem portResponded_busy (i : Nat) (st : Status) (v : BitVec 64) (s : State) :
    (portResponded i st v s).busy = s.busy := rfl
@[simp] theorem portResponded_inFlight (i : Nat) (st : Status) (v : BitVec 64) (s : State) :
    (portResponded i st v s).inFlight = s.inFlight := rfl
@[simp] theorem portResponded_delivered (i : Nat) (st : Status) (v : BitVec 64) (s : State) :
    (portResponded i st v s).delivered = s.delivered := rfl
@[simp] theorem portResponded_params (i : Nat) (st : Status) (v : BitVec 64) (s : State) :
    (portResponded i st v s).params = s.params := rfl
@[simp] theorem portResponded_words (i : Nat) (st : Status) (v : BitVec 64) (s : State) :
    (portResponded i st v s).words = s.words := rfl
@[simp] theorem portResponded_src (i : Nat) (st : Status) (v : BitVec 64) (s : State) :
    (portResponded i st v s).src = s.src := rfl
@[simp] theorem portResponded_dst (i : Nat) (st : Status) (v : BitVec 64) (s : State) :
    (portResponded i st v s).dst = s.dst := rfl
@[simp] theorem portResponded_resps (i : Nat) (st : Status) (v : BitVec 64) (s : State) :
    (portResponded i st v s).resps = s.resps ++ [{ port := .register i, status := statusCode st, value := v }] := rfl

@[simp] theorem waiting_regs (i : Instr) (n : Nat) (ws : List Wait) (s : State) :
    (waiting i n ws s).regs = s.regs := rfl
@[simp] theorem waiting_cur (i : Instr) (n : Nat) (ws : List Wait) (s : State) :
    (waiting i n ws s).cur = s.cur := rfl
@[simp] theorem waiting_total (i : Instr) (n : Nat) (ws : List Wait) (s : State) :
    (waiting i n ws s).total = s.total := rfl
@[simp] theorem waiting_busy (i : Instr) (n : Nat) (ws : List Wait) (s : State) :
    (waiting i n ws s).busy = true := rfl
@[simp] theorem waiting_inFlight (i : Instr) (n : Nat) (ws : List Wait) (s : State) :
    (waiting i n ws s).inFlight = some i := rfl
@[simp] theorem waiting_delivered (i : Instr) (n : Nat) (ws : List Wait) (s : State) :
    (waiting i n ws s).delivered = n := rfl
@[simp] theorem waiting_params (i : Instr) (n : Nat) (ws : List Wait) (s : State) :
    (waiting i n ws s).params = s.params := rfl
@[simp] theorem waiting_words (i : Instr) (n : Nat) (ws : List Wait) (s : State) :
    (waiting i n ws s).words = s.words := rfl
@[simp] theorem waiting_src (i : Instr) (n : Nat) (ws : List Wait) (s : State) :
    (waiting i n ws s).src = { s.src with waits := ws } := rfl
@[simp] theorem waiting_dst (i : Instr) (n : Nat) (ws : List Wait) (s : State) :
    (waiting i n ws s).dst = s.dst := rfl
@[simp] theorem waiting_resps (i : Instr) (n : Nat) (ws : List Wait) (s : State) :
    (waiting i n ws s).resps = s.resps := rfl

@[simp] theorem clearAll_regs (s : State) :
    (clearAll s).regs = s.regs.map regClear := rfl
@[simp] theorem clearAll_cur (s : State) :
    (clearAll s).cur = s.cur := rfl
@[simp] theorem clearAll_total (s : State) :
    (clearAll s).total = s.total := rfl
@[simp] theorem clearAll_busy (s : State) :
    (clearAll s).busy = s.busy := rfl
@[simp] theorem clearAll_inFlight (s : State) :
    (clearAll s).inFlight = s.inFlight := rfl
@[simp] theorem clearAll_delivered (s : State) :
    (clearAll s).delivered = s.delivered := rfl
@[simp] theorem clearAll_params (s : State) :
    (clearAll s).params = s.params := rfl
@[simp] theorem clearAll_words (s : State) :
    (clearAll s).words = s.words := rfl
@[simp] theorem clearAll_src (s : State) :
    (clearAll s).src = s.src := rfl
@[simp] theorem clearAll_dst (s : State) :
    (clearAll s).dst = s.dst := rfl
@[simp] theorem clearAll_resps (s : State) :
    (clearAll s).resps = s.resps := rfl

@[simp] theorem dstWrite_regs (bs : List Byte) (s : State) :
    (dstWrite bs s).regs = s.regs := rfl
@[simp] theorem dstWrite_cur (bs : List Byte) (s : State) :
    (dstWrite bs s).cur = s.cur := rfl
@[simp] theorem dstWrite_total (bs : List Byte) (s : State) :
    (dstWrite bs s).total = s.total := rfl
@[simp] theorem dstWrite_busy (bs : List Byte) (s : State) :
    (dstWrite bs s).busy = s.busy := rfl
@[simp] theorem dstWrite_inFlight (bs : List Byte) (s : State) :
    (dstWrite bs s).inFlight = s.inFlight := rfl
@[simp] theorem dstWrite_delivered (bs : List Byte) (s : State) :
    (dstWrite bs s).delivered = s.delivered := rfl
@[simp] theorem dstWrite_params (bs : List Byte) (s : State) :
    (dstWrite bs s).params = s.params := rfl
@[simp] theorem dstWrite_words (bs : List Byte) (s : State) :
    (dstWrite bs s).words = s.words := rfl
@[simp] theorem dstWrite_src (bs : List Byte) (s : State) :
    (dstWrite bs s).src = s.src := rfl
@[simp] theorem dstWrite_dst (bs : List Byte) (s : State) :
    (dstWrite bs s).dst = s.dst ++ bs := rfl
@[simp] theorem dstWrite_resps (bs : List Byte) (s : State) :
    (dstWrite bs s).resps = s.resps := rfl

@[simp] theorem acceptWord_command_regs (w : CommandWord) (ws : List PortWord) (s : State) :
    (acceptWord (.command w) ws s).regs = s.regs := rfl
@[simp] theorem acceptWord_command_cur (w : CommandWord) (ws : List PortWord) (s : State) :
    (acceptWord (.command w) ws s).cur = s.cur := rfl
@[simp] theorem acceptWord_command_total (w : CommandWord) (ws : List PortWord) (s : State) :
    (acceptWord (.command w) ws s).total = s.total := rfl
@[simp] theorem acceptWord_command_busy (w : CommandWord) (ws : List PortWord) (s : State) :
    (acceptWord (.command w) ws s).busy = true := rfl
@[simp] theorem acceptWord_command_inFlight (w : CommandWord) (ws : List PortWord) (s : State) :
    (acceptWord (.command w) ws s).inFlight = s.inFlight := rfl
@[simp] theorem acceptWord_command_delivered (w : CommandWord) (ws : List PortWord) (s : State) :
    (acceptWord (.command w) ws s).delivered = s.delivered := rfl
@[simp] theorem acceptWord_command_params (w : CommandWord) (ws : List PortWord) (s : State) :
    (acceptWord (.command w) ws s).params = s.params := rfl
@[simp] theorem acceptWord_command_words (w : CommandWord) (ws : List PortWord) (s : State) :
    (acceptWord (.command w) ws s).words = ws := rfl
@[simp] theorem acceptWord_command_src (w : CommandWord) (ws : List PortWord) (s : State) :
    (acceptWord (.command w) ws s).src = s.src := rfl
@[simp] theorem acceptWord_command_dst (w : CommandWord) (ws : List PortWord) (s : State) :
    (acceptWord (.command w) ws s).dst = s.dst := rfl
@[simp] theorem acceptWord_command_resps (w : CommandWord) (ws : List PortWord) (s : State) :
    (acceptWord (.command w) ws s).resps = s.resps := rfl

@[simp] theorem acceptWord_regPort_regs (i : Nat) (u : RegPortWord) (ws : List PortWord) (s : State) :
    (acceptWord (.regPort i u) ws s).regs = s.regs := rfl
@[simp] theorem acceptWord_regPort_cur (i : Nat) (u : RegPortWord) (ws : List PortWord) (s : State) :
    (acceptWord (.regPort i u) ws s).cur = s.cur := rfl
@[simp] theorem acceptWord_regPort_total (i : Nat) (u : RegPortWord) (ws : List PortWord) (s : State) :
    (acceptWord (.regPort i u) ws s).total = s.total := rfl
@[simp] theorem acceptWord_regPort_busy (i : Nat) (u : RegPortWord) (ws : List PortWord) (s : State) :
    (acceptWord (.regPort i u) ws s).busy = s.busy := rfl
@[simp] theorem acceptWord_regPort_inFlight (i : Nat) (u : RegPortWord) (ws : List PortWord) (s : State) :
    (acceptWord (.regPort i u) ws s).inFlight = s.inFlight := rfl
@[simp] theorem acceptWord_regPort_delivered (i : Nat) (u : RegPortWord) (ws : List PortWord) (s : State) :
    (acceptWord (.regPort i u) ws s).delivered = s.delivered := rfl
@[simp] theorem acceptWord_regPort_params (i : Nat) (u : RegPortWord) (ws : List PortWord) (s : State) :
    (acceptWord (.regPort i u) ws s).params = s.params := rfl
@[simp] theorem acceptWord_regPort_words (i : Nat) (u : RegPortWord) (ws : List PortWord) (s : State) :
    (acceptWord (.regPort i u) ws s).words = ws := rfl
@[simp] theorem acceptWord_regPort_src (i : Nat) (u : RegPortWord) (ws : List PortWord) (s : State) :
    (acceptWord (.regPort i u) ws s).src = s.src := rfl
@[simp] theorem acceptWord_regPort_dst (i : Nat) (u : RegPortWord) (ws : List PortWord) (s : State) :
    (acceptWord (.regPort i u) ws s).dst = s.dst := rfl
@[simp] theorem acceptWord_regPort_resps (i : Nat) (u : RegPortWord) (ws : List PortWord) (s : State) :
    (acceptWord (.regPort i u) ws s).resps = s.resps := rfl

@[simp] theorem fedState_regs (n : Nat) (s : State) :
    (fedState n s).regs = s.regs.map (fedReg (supply n s)) := rfl
@[simp] theorem fedState_cur (n : Nat) (s : State) :
    (fedState n s).cur = s.cur + BitVec.ofNat 16 (trailingSupply n s).length := rfl
@[simp] theorem fedState_total (n : Nat) (s : State) :
    (fedState n s).total = s.total := rfl
@[simp] theorem fedState_busy (n : Nat) (s : State) :
    (fedState n s).busy = s.busy := rfl
@[simp] theorem fedState_inFlight (n : Nat) (s : State) :
    (fedState n s).inFlight = s.inFlight := rfl
@[simp] theorem fedState_delivered (n : Nat) (s : State) :
    (fedState n s).delivered = s.delivered := rfl
@[simp] theorem fedState_params (n : Nat) (s : State) :
    (fedState n s).params = s.params := rfl
@[simp] theorem fedState_words (n : Nat) (s : State) :
    (fedState n s).words = s.words := rfl
@[simp] theorem fedState_src (n : Nat) (s : State) :
    (fedState n s).src = if noRead n s then s.src
      else sourceAfter (readCount s.params.srcFullRead (needBytes n s) s.src) s.src := rfl
@[simp] theorem fedState_dst (n : Nat) (s : State) :
    (fedState n s).dst = s.dst := rfl
@[simp] theorem fedState_resps (n : Nat) (s : State) :
    (fedState n s).resps = s.resps := rfl

@[simp] theorem answered_regs (st : BitVec 4) (v : BitVec 64) (s : State) :
    (answered st v s).regs = s.regs := rfl
@[simp] theorem answered_cur (st : BitVec 4) (v : BitVec 64) (s : State) :
    (answered st v s).cur = s.cur := rfl
@[simp] theorem answered_total (st : BitVec 4) (v : BitVec 64) (s : State) :
    (answered st v s).total = s.total := rfl
@[simp] theorem answered_busy (st : BitVec 4) (v : BitVec 64) (s : State) :
    (answered st v s).busy = false := rfl
@[simp] theorem answered_inFlight (st : BitVec 4) (v : BitVec 64) (s : State) :
    (answered st v s).inFlight = none := rfl
@[simp] theorem answered_delivered (st : BitVec 4) (v : BitVec 64) (s : State) :
    (answered st v s).delivered = 0 := rfl
@[simp] theorem answered_params (st : BitVec 4) (v : BitVec 64) (s : State) :
    (answered st v s).params = s.params := rfl
@[simp] theorem answered_words (st : BitVec 4) (v : BitVec 64) (s : State) :
    (answered st v s).words = s.words := rfl
@[simp] theorem answered_src (st : BitVec 4) (v : BitVec 64) (s : State) :
    (answered st v s).src = s.src := rfl
@[simp] theorem answered_dst (st : BitVec 4) (v : BitVec 64) (s : State) :
    (answered st v s).dst = s.dst := rfl
@[simp] theorem answered_resps (st : BitVec 4) (v : BitVec 64) (s : State) :
    (answered st v s).resps = s.resps ++ [{ port := .command, status := st, value := v }] := rfl

@[simp] theorem portAnswered_regs (i : Nat) (st : BitVec 4) (v : BitVec 64) (s : State) :
    (portAnswered i st v s).regs = s.regs := rfl
@[simp] theorem portAnswered_cur (i : Nat) (st : BitVec 4) (v : BitVec 64) (s : State) :
    (portAnswered i st v s).cur = s.cur := rfl
@[simp] theorem portAnswered_total (i : Nat) (st : BitVec 4) (v : BitVec 64) (s : State) :
    (portAnswered i st v s).total = s.total := rfl
@[simp] theorem portAnswered_busy (i : Nat) (st : BitVec 4) (v : BitVec 64) (s : State) :
    (portAnswered i st v s).busy = s.busy := rfl
@[simp] theorem portAnswered_inFlight (i : Nat) (st : BitVec 4) (v : BitVec 64) (s : State) :
    (portAnswered i st v s).inFlight = s.inFlight := rfl
@[simp] theorem portAnswered_delivered (i : Nat) (st : BitVec 4) (v : BitVec 64) (s : State) :
    (portAnswered i st v s).delivered = s.delivered := rfl
@[simp] theorem portAnswered_params (i : Nat) (st : BitVec 4) (v : BitVec 64) (s : State) :
    (portAnswered i st v s).params = s.params := rfl
@[simp] theorem portAnswered_words (i : Nat) (st : BitVec 4) (v : BitVec 64) (s : State) :
    (portAnswered i st v s).words = s.words := rfl
@[simp] theorem portAnswered_src (i : Nat) (st : BitVec 4) (v : BitVec 64) (s : State) :
    (portAnswered i st v s).src = s.src := rfl
@[simp] theorem portAnswered_dst (i : Nat) (st : BitVec 4) (v : BitVec 64) (s : State) :
    (portAnswered i st v s).dst = s.dst := rfl
@[simp] theorem portAnswered_resps (i : Nat) (st : BitVec 4) (v : BitVec 64) (s : State) :
    (portAnswered i st v s).resps = s.resps ++ [{ port := .register i, status := st, value := v }] := rfl

@[simp] theorem withWaits_regs (ws : List Wait) (s : State) :
    (withWaits ws s).regs = s.regs := rfl
@[simp] theorem withWaits_cur (ws : List Wait) (s : State) :
    (withWaits ws s).cur = s.cur := rfl
@[simp] theorem withWaits_total (ws : List Wait) (s : State) :
    (withWaits ws s).total = s.total := rfl
@[simp] theorem withWaits_busy (ws : List Wait) (s : State) :
    (withWaits ws s).busy = s.busy := rfl
@[simp] theorem withWaits_inFlight (ws : List Wait) (s : State) :
    (withWaits ws s).inFlight = s.inFlight := rfl
@[simp] theorem withWaits_delivered (ws : List Wait) (s : State) :
    (withWaits ws s).delivered = s.delivered := rfl
@[simp] theorem withWaits_params (ws : List Wait) (s : State) :
    (withWaits ws s).params = s.params := rfl
@[simp] theorem withWaits_words (ws : List Wait) (s : State) :
    (withWaits ws s).words = s.words := rfl
@[simp] theorem withWaits_src (ws : List Wait) (s : State) :
    (withWaits ws s).src = { s.src with waits := ws } := rfl
@[simp] theorem withWaits_dst (ws : List Wait) (s : State) :
    (withWaits ws s).dst = s.dst := rfl
@[simp] theorem withWaits_resps (ws : List Wait) (s : State) :
    (withWaits ws s).resps = s.resps := rfl

/-- The model's response is the response with the code of its status. -/
theorem responded_eq_answered (st : Status) (v : BitVec 64) (s : State) :
    responded st v s = answered (statusCode st) v s := rfl

theorem portResponded_eq_portAnswered (i : Nat) (st : Status) (v : BitVec 64) (s : State) :
    portResponded i st v s = portAnswered i (statusCode st) v s := rfl

@[simp] theorem sourceAfter_bytes (j : Nat) (src : Source) :
    (sourceAfter j src).bytes = src.bytes.drop j := rfl
@[simp] theorem sourceAfter_rest (j : Nat) (src : Source) :
    (sourceAfter j src).rest = restAfter (j - src.bytes.length) src.rest := rfl
@[simp] theorem sourceAfter_reads (j : Nat) (src : Source) :
    (sourceAfter j src).reads = src.reads + 1 := rfl
@[simp] theorem sourceAfter_waits (j : Nat) (src : Source) :
    (sourceAfter j src).waits = src.waits.drop 1 := rfl

@[simp] theorem regClear_q (r : BitReg) : (regClear r).q = [] := rfl
@[simp] theorem regClear_order (r : BitReg) : (regClear r).order = r.order := rfl
@[simp] theorem fedReg_q (bs : List Byte) (r : BitReg) :
    (fedReg bs r).q = r.q ++ bs.flatMap (expand r.order) := rfl
@[simp] theorem fedReg_order (bs : List Byte) (r : BitReg) : (fedReg bs r).order = r.order := rfl

/-- The bit count looks at the registers alone. -/
theorem bitCount_congr {s t : State} (h : s.regs = t.regs) (i : Nat) : bitCount i s = bitCount i t := by
  simp [bitCount, h]

/-- The configuration looks at the orders and the parameters alone. -/
theorem config_congr {s t : State} (h : s.regs.map (·.order) = t.regs.map (·.order))
    (hp : s.params = t.params) : s.config = t.config := by
  have hl : s.regs.length = t.regs.length := by simpa using congrArg List.length h
  simp [State.config, h, hp, hl]

end Sys2Proof.Machine
end

