-- ==== Sys2Proof/Laws/Source.lean ====
section
/-! SUPPORT. The source's stream (R50): how many bytes a read returns, which they are, and what is left, each
said once. -/

namespace Sys2Proof.Machine

theorem readCount_le (full : Bool) (k : Nat) (src : Source) :
    readCount full k src ≤ sourceReach k src := by
  unfold readCount
  split <;> omega

@[simp] theorem readCount_full (k : Nat) (src : Source) : readCount true k src = sourceReach k src := rfl

theorem sourceReach_le (k : Nat) (src : Source) : sourceReach k src ≤ k := by
  unfold sourceReach
  split <;> omega

@[simp] theorem sourceReach_zero (src : Source) : sourceReach 0 src = 0 :=
  Nat.le_zero.mp (sourceReach_le 0 src)

/-- The source has as many bytes to give as it can reach (R50). -/
@[simp] theorem nextBytes_length (k : Nat) (src : Source) : (nextBytes k src).length = sourceReach k src := by
  unfold nextBytes sourceReach bytesRemaining
  cases src.rest
  · exact List.length_take
  · simp only [List.length_append, List.length_take, List.length_map, List.length_range]
    omega

@[simp] theorem nextBytes_zero (src : Source) : nextBytes 0 src = [] :=
  List.length_eq_zero_iff.mp ((nextBytes_length 0 src).trans (sourceReach_zero src))

/-- The bytes after the next `j` are the next bytes of the source after `j` (R50: the position advances). -/
theorem nextBytes_add (j k : Nat) (src : Source) :
    nextBytes (j + k) src = nextBytes j src ++ nextBytes k (sourceAfter j src) := by
  unfold nextBytes
  simp only [sourceAfter_rest, sourceAfter_bytes]
  cases src.rest with
  | ends => exact List.take_add
  | endless n p =>
    simp only [restAfter, List.length_drop]
    rcases Nat.le_total j src.bytes.length with h | h
    · have e : j - src.bytes.length = 0 := by omega
      have e' : j + k - src.bytes.length = k - (src.bytes.length - j) := by omega
      rw [e, e', List.take_add, List.range_zero, List.map_nil, List.append_nil, List.append_assoc, Nat.add_zero]
    · have e : src.bytes.length - j = 0 := by omega
      have e' : j + k - src.bytes.length = (j - src.bytes.length) + k := by omega
      rw [List.take_of_length_le (by omega), List.take_of_length_le h, List.drop_of_length_le h, e, e',
        List.range_add, List.map_append, List.map_map, List.take_nil, List.nil_append, Nat.sub_zero,
        List.append_assoc]
      simp only [Function.comp_def, Nat.add_assoc]

/-- Once a request found fewer bytes than it asked for, the stream has ended. -/
theorem nextBytes_exhausted {j : Nat} {src : Source} (h : sourceReach j src < j) (k : Nat) :
    nextBytes k (sourceAfter j src) = [] := by
  apply List.length_eq_zero_iff.mp
  rw [nextBytes_length]
  unfold sourceReach bytesRemaining at *
  cases hr : src.rest with
  | ends =>
    simp only [hr, sourceAfter_rest, restAfter, sourceAfter_bytes, List.length_drop] at h ⊢
    omega
  | endless n p => simp [hr] at h

/-- The next `j` bytes are the first of the next `k`. -/
theorem nextBytes_take {j k : Nat} (h : j ≤ k) (src : Source) : (nextBytes k src).take j = nextBytes j src := by
  obtain ⟨m, rfl⟩ := Nat.exists_eq_add_of_le h
  rw [nextBytes_add]
  rcases Nat.lt_or_ge (nextBytes j src).length j with hlt | hge
  · have hz := nextBytes_exhausted (k := m) (nextBytes_length j src ▸ hlt)
    rw [hz, List.append_nil, List.take_of_length_le (by omega)]
  · have hle : (nextBytes j src).length ≤ j := by
      rw [nextBytes_length]
      exact sourceReach_le j src
    rw [List.take_append_of_le_length hge, List.take_of_length_le hle]

/-- A request beyond the end of the stream gives what the stream has left. -/
@[simp] theorem nextBytes_reach (k : Nat) (src : Source) : nextBytes (sourceReach k src) src = nextBytes k src := by
  rw [← nextBytes_take (sourceReach_le k src)]
  exact List.take_of_length_le (nextBytes_length k src).le

/-- A source gives as many bytes as a read of it returns. -/
@[simp] theorem nextBytes_readCount_length (full : Bool) (k : Nat) (src : Source) :
    (nextBytes (readCount full k src) src).length = readCount full k src := by
  have h := readCount_le full k src
  rw [← nextBytes_take (h.trans (sourceReach_le k src)), List.length_take, nextBytes_length]
  exact Nat.min_eq_left h

/-- A read that returns advances the source by what it returned (R50). -/
theorem advanced_readCount (full : Bool) (k : Nat) (src : Source) :
    Advanced (readCount full k src) src (sourceAfter (readCount full k src) src) :=
  ⟨nextBytes_readCount_length full k src, fun m => nextBytes_add _ m src⟩

/-- Only the stream after the position says what a source gives next. -/
theorem nextBytes_congr {a b : Source} (hb : a.bytes = b.bytes) (hr : a.rest = b.rest) (k : Nat) :
    nextBytes k a = nextBytes k b := by
  unfold nextBytes
  rw [hb, hr]

/-- A source that has not moved. -/
theorem advanced_zero {a b : Source} (hb : b.bytes = a.bytes) (hr : b.rest = a.rest) : Advanced 0 a b :=
  ⟨by simp, fun k => by rw [Nat.zero_add, nextBytes_zero, List.nil_append]; exact (nextBytes_congr hb hr k).symm⟩

/-! How long the coming reads wait changes nothing else of a source. -/

@[simp] theorem nextBytes_waits (k : Nat) (src : Source) (ws : List Wait) :
    nextBytes k { src with waits := ws } = nextBytes k src := rfl
@[simp] theorem readCount_waits (full : Bool) (k : Nat) (src : Source) (ws : List Wait) :
    readCount full k { src with waits := ws } = readCount full k src := rfl
@[simp] theorem sourceAfter_cons_wait (j : Nat) (src : Source) (w : Wait) (ws : List Wait) :
    sourceAfter j { src with waits := w :: ws } = { sourceAfter j src with waits := ws } := rfl

end Sys2Proof.Machine
end

