-- ==== Sys2Proof/Laws/Ops.lean ====
section
/-! SUPPORT. For each shared operation, what it can do, said once: `_eq` lemmas give its value under
conditions on the state, `_ok` and `_error` lemmas say what follows from its answer. -/

namespace Sys2Proof.Machine

/-! ### Flow -/

theorem flow_bind_ok {α β : Type} {x : Flow α} {f : α → Flow β} {b : β} :
    (x >>= f) = .ok b ↔ ∃ a, x = .ok a ∧ f a = .ok b := by
  cases x with
  | ok a =>
    constructor
    · exact fun h => ⟨a, rfl, h⟩
    · rintro ⟨_, ⟨⟩, h⟩
      exact h
  | error r =>
    constructor
    · intro h
      cases h
    · rintro ⟨_, ⟨⟩, _⟩

theorem flow_bind_error {α β : Type} {x : Flow α} {f : α → Flow β} {r : Result} :
    (x >>= f) = .error r ↔ x = .error r ∨ ∃ a, x = .ok a ∧ f a = .error r := by
  cases x with
  | ok a =>
    constructor
    · exact fun h => .inr ⟨a, rfl, h⟩
    · intro h
      rcases h with h | ⟨_, h, h'⟩
      · cases h
      · cases h
        exact h'
  | error r' =>
    constructor
    · intro h
      cases h
      exact .inl rfl
    · intro h
      rcases h with h | ⟨_, h, _⟩
      · cases h
        rfl
      · cases h

@[simp] theorem flow_ok_bind {α β : Type} (a : α) (f : α → Flow β) :
    ((Except.ok a : Flow α) >>= f) = f a := rfl

@[simp] theorem flow_error_bind {α β : Type} (r : Result) (f : α → Flow β) :
    ((Except.error r : Flow α) >>= f) = .error r := rfl

@[simp] theorem flow_pure {α : Type} (a : α) : (pure a : Flow α) = .ok a := rfl

@[simp] theorem runCommand_ok (r : Result) : runCommand (.ok r) = r := rfl
@[simp] theorem runCommand_error (r : Result) : runCommand (.error r) = r := rfl

theorem runCommand_eq {x : Flow Result} {r : Result} :
    runCommand x = r ↔ x = .ok r ∨ x = .error r := by
  cases x <;> simp [runCommand]

/-! ### Register operations -/

/-- A feed fits in a register (R76). -/
def FitsByte (s : State) (k : Nat) : Prop := ∀ r ∈ s.regs, r.q.length + 8 * k ≤ s.params.cap

/-- `n` bits can be discarded from every register (R78). -/
def CanDiscard (n : Nat) (s : State) : Prop := ∀ r ∈ s.regs, n ≤ s.params.cap ∧ n ≤ r.q.length

theorem regFeed_of_fits {cap : Nat} {r : BitReg} (b : Byte) (h : r.q.length + 8 ≤ cap) :
    regFeed cap b r = .ok (fedReg [b] r) := by
  simp [regFeed, fedReg, Nat.not_lt.mpr h]

theorem regFeed_of_not_fits {cap : Nat} {r : BitReg} (b : Byte) (h : cap < r.q.length + 8) :
    regFeed cap b r = .error .regOverflow := by
  simp [regFeed, h]

theorem regDiscard_of_le {cap n : Nat} {r : BitReg} (hc : n ≤ cap) (hq : n ≤ r.q.length) :
    regDiscard cap n r = .ok { r with q := r.q.drop n } := by
  simp [regDiscard, Nat.not_lt.mpr hc, Nat.not_lt.mpr hq]

theorem regPeek_of_le {cap n : Nat} {r : BitReg} (hc : n ≤ cap) (hq : n ≤ r.q.length) :
    regPeek cap n r = .ok (bitVal r.order r.q n) := by
  simp [regPeek, Nat.not_lt.mpr hc, Nat.not_lt.mpr hq]

/-- An operation that succeeds on every register succeeds on all of them at once. -/
theorem onAll_of_ok {op : BitReg → Except Usage BitReg} {f : BitReg → BitReg} {rs : List BitReg}
    (h : ∀ r ∈ rs, op r = .ok (f r)) : onAll op rs = some (rs.map f) := by
  induction rs with
  | nil => rfl
  | cons r rs ih =>
    simp [onAll, h r (by simp), ih fun r' hr' => h r' (by simp [hr'])]

/-- An operation on all registers that succeeds has succeeded on every one. -/
theorem onAll_some {op : BitReg → Except Usage BitReg} {rs rs' : List BitReg}
    (h : onAll op rs = some rs') : ∀ r ∈ rs, ∃ r', op r = .ok r' := by
  induction rs generalizing rs' with
  | nil => simp
  | cons r rs ih =>
    unfold onAll at h
    split at h
    · next r' rs'' hr hrs =>
      intro x hx
      rcases List.mem_cons.mp hx with rfl | hx
      · exact ⟨r', hr⟩
      · exact ih hrs x hx
    · cases h

theorem feedAll_eq {b : Byte} {s : State} (h : FitsByte s 1) :
    feedAll b s = .ok { s with regs := s.regs.map (fedReg [b]) } := by
  simp [feedAll, updateAll,
    onAll_of_ok (f := fedReg [b]) fun r hr => regFeed_of_fits b (by simpa using h r hr)]

theorem feedAll_ok {b : Byte} {s t : State} (h : feedAll b s = .ok t) :
    FitsByte s 1 ∧ t = { s with regs := s.regs.map (fedReg [b]) } := by
  have hf : FitsByte s 1 := by
    intro r hr
    unfold feedAll updateAll at h
    split at h
    · next rs hrs =>
      obtain ⟨r', hr'⟩ := onAll_some hrs r hr
      unfold regFeed at hr'
      split at hr'
      · cases hr'
      · omega
    · cases h
  rw [feedAll_eq hf] at h
  exact ⟨hf, by cases h; rfl⟩

theorem updateAll_error {op : BitReg → Except Usage BitReg} {s : State} {r : Result}
    (h : updateAll op s = .error r) : r = .fault .registerContract := by
  unfold updateAll at h
  split at h <;> cases h
  rfl

theorem feedAll_error {b : Byte} {s : State} {r : Result} (h : feedAll b s = .error r) :
    r = .fault .registerContract := updateAll_error h

theorem discardAll_eq {n : Nat} {s : State} (h : CanDiscard n s) :
    discardAll n s = .ok { s with regs := discardedRegs n s } := by
  simp [discardAll, updateAll, discardedRegs,
    onAll_of_ok (f := fun r => { r with q := r.q.drop n })
      fun r hr => regDiscard_of_le (h r hr).1 (h r hr).2]

theorem discardAll_ok {n : Nat} {s t : State} (h : discardAll n s = .ok t) :
    CanDiscard n s ∧ t = { s with regs := discardedRegs n s } := by
  have hf : CanDiscard n s := by
    intro r hr
    unfold discardAll updateAll at h
    split at h
    · next rs hrs =>
      obtain ⟨r', hr'⟩ := onAll_some hrs r hr
      unfold regDiscard at hr'
      split at hr'
      · cases hr'
      · split at hr'
        · cases hr'
        · omega
    · cases h
  rw [discardAll_eq hf] at h
  exact ⟨hf, by cases h; rfl⟩

theorem discardAll_error {n : Nat} {s : State} {r : Result} (h : discardAll n s = .error r) :
    r = .fault .registerContract := updateAll_error h

theorem peekReg_eq {i n : Nat} {s : State} {r : BitReg} (hi : s.regs[i]? = some r)
    (hc : n ≤ s.params.cap) (hq : n ≤ r.q.length) :
    peekReg i n s = .ok (frontValue i n s) := by
  simp [peekReg, frontValue, hi, regPeek_of_le hc hq]

theorem peekReg_ok {i n v : Nat} {s : State} (h : peekReg i n s = .ok v) :
    ∃ r, s.regs[i]? = some r ∧ n ≤ s.params.cap ∧ n ≤ r.q.length ∧ v = frontValue i n s := by
  unfold peekReg at h
  split at h
  · cases h
  · next r hi =>
    split at h
    · next v' hv =>
      cases h
      unfold regPeek at hv
      split at hv
      · cases hv
      · split at hv
        · cases hv
        · cases hv
          exact ⟨r, hi, by omega, by omega, by simp [frontValue, hi]⟩
    · cases h

theorem peekReg_error {i n : Nat} {s : State} {r : Result} (h : peekReg i n s = .error r) :
    r = .fault .registerContract := by
  unfold peekReg at h
  split at h
  · cases h; rfl
  · split at h <;> cases h
    rfl

/-! ### The counter -/

theorem addTotal_eq {x : Nat} {s : State} (h : s.total.toNat + x < 2 ^ 64) :
    addTotal x s = .ok { s with total := s.total + BitVec.ofNat 64 x } := by
  have : ¬ s.total.toNat + x > 2 ^ 64 - 1 := by omega
  simp only [addTotal, if_neg this]

theorem addTotal_overflow {x : Nat} {s : State} (h : 2 ^ 64 ≤ s.total.toNat + x) :
    addTotal x s = .error (.fault .totalOverflow) := by
  have : s.total.toNat + x > 2 ^ 64 - 1 := by omega
  simp only [addTotal, if_pos this]

theorem addTotal_ok {x : Nat} {s t : State} (h : addTotal x s = .ok t) :
    s.total.toNat + x < 2 ^ 64 ∧ t = { s with total := s.total + BitVec.ofNat 64 x } := by
  by_cases hx : s.total.toNat + x < 2 ^ 64
  · rw [addTotal_eq hx] at h
    exact ⟨hx, by cases h; rfl⟩
  · rw [addTotal_overflow (by omega)] at h
    cases h

theorem addTotal_error {x : Nat} {s : State} {r : Result} (h : addTotal x s = .error r) :
    r = .fault .totalOverflow := by
  unfold addTotal at h
  split at h <;> cases h
  rfl

/-- Within its range `TOTAL` counts exactly (R28). -/
theorem total_add_toNat {a : BitVec 64} {x : Nat} (h : a.toNat + x < 2 ^ 64) :
    (a + BitVec.ofNat 64 x).toNat = a.toNat + x := by
  rw [BitVec.toNat_add, BitVec.toNat_ofNat, Nat.mod_eq_of_lt (a := x) (by omega)]
  exact Nat.mod_eq_of_lt h

/-! ### The source -/

/-- The two ways the source's next read returns at once. -/
theorem sourceReady_iff {s : State} :
    SourceReady s ↔ s.src.waits = [] ∨ ∃ ws, s.src.waits = .steps 0 :: ws := by
  unfold SourceReady
  rcases s.src.waits with _ | ⟨w, ws⟩
  · simp
  · cases w with
    | forever => simp
    | steps n => cases n <;> simp

theorem srcRead_eq {i : Instr} {n k : Nat} {s : State} (h : SourceReady s) :
    srcRead i n k s = .ok (nextBytes (readCount s.params.srcFullRead k s.src) s.src,
      { s with src := sourceAfter (readCount s.params.srcFullRead k s.src) s.src }) := by
  unfold srcRead
  rcases sourceReady_iff.mp h with hw | ⟨ws, hw⟩ <;> simp [hw]

/-- A read that does not return leaves the command waiting. -/
theorem srcRead_not_ready {i : Instr} {n k : Nat} {s : State} (h : ¬ SourceReady s) :
    ∃ ws, srcRead i n k s = .error (.next (waiting i n ws s)) := by
  unfold SourceReady at h
  unfold srcRead
  rcases hw : s.src.waits with _ | ⟨w, ws⟩
  · simp [hw] at h
  · cases w with
    | forever => exact ⟨_, rfl⟩
    | steps m =>
      cases m with
      | zero => simp [hw] at h
      | succ m => exact ⟨_, rfl⟩

theorem srcRead_ok {i : Instr} {n k : Nat} {s t : State} {bs : List Byte}
    (h : srcRead i n k s = .ok (bs, t)) :
    SourceReady s ∧ bs = nextBytes (readCount s.params.srcFullRead k s.src) s.src ∧
      t = { s with src := sourceAfter (readCount s.params.srcFullRead k s.src) s.src } := by
  by_cases hr : SourceReady s
  · rw [srcRead_eq hr] at h
    cases h
    exact ⟨hr, rfl, rfl⟩
  · obtain ⟨ws, hw⟩ := srcRead_not_ready (i := i) (n := n) (k := k) hr
    rw [hw] at h
    cases h

theorem srcRead_error {i : Instr} {n k : Nat} {s : State} {r : Result}
    (h : srcRead i n k s = .error r) :
    ¬ SourceReady s ∧ ∃ ws, r = .next (waiting i n ws s) := by
  by_cases hr : SourceReady s
  · rw [srcRead_eq hr] at h
    cases h
  · obtain ⟨ws, hw⟩ := srcRead_not_ready (i := i) (n := n) (k := k) hr
    rw [hw] at h
    cases h
    exact ⟨hr, ws, rfl⟩

/-- Two advances of the counter are one. -/
theorem total_add_add (a : BitVec 64) (x y : Nat) :
    a + BitVec.ofNat 64 x + BitVec.ofNat 64 y = a + BitVec.ofNat 64 (x + y) := by
  rw [BitVec.add_assoc, ← BitVec.ofNat_add]

/-- A value of at most 64 bits fits the response (R68). -/
theorem frontValue_toNat {i n : Nat} {s : State} (h : n ≤ 64) :
    (BitVec.ofNat 64 (frontValue i n s)).toNat = frontValue i n s := by
  have hlt : frontValue i n s < 2 ^ n := by
    unfold frontValue
    split
    · exact bitVal_lt _ _ _
    · exact Nat.two_pow_pos n
  rw [BitVec.toNat_ofNat]
  exact Nat.mod_eq_of_lt (lt_of_lt_of_le hlt (Nat.pow_le_pow_right (by omega) h))

end Sys2Proof.Machine
end

