-- ==== Sys2Proof/Laws/Feed.lean ====
section
/-! SUPPORT. The feed algorithm (R85), said once: what `ensure` answers is the closed form `fedState`. -/

namespace Sys2Proof.Machine

@[simp] theorem fedReg_nil (r : BitReg) : fedReg [] r = r := by simp [fedReg]

theorem fedReg_fedReg (bs cs : List Byte) (r : BitReg) :
    fedReg cs (fedReg bs r) = fedReg (bs ++ cs) r := by
  simp only [fedReg, List.flatMap_append, List.append_assoc]

/-- Feeding two runs of bytes is feeding them as one run. -/
theorem map_fedReg_map (bs cs : List Byte) (rs : List BitReg) :
    (rs.map (fedReg bs)).map (fedReg cs) = rs.map (fedReg (bs ++ cs)) := by
  rw [List.map_map]
  exact List.map_congr_left fun r _ => fedReg_fedReg bs cs r

@[simp] theorem map_fedReg_nil (rs : List BitReg) : rs.map (fedReg []) = rs :=
  (List.map_congr_left fun r _ => fedReg_nil r).trans (List.map_id' rs)

@[simp] theorem fedReg_q_length (bs : List Byte) (r : BitReg) :
    (fedReg bs r).q.length = r.q.length + 8 * bs.length := by
  rw [fedReg_q, List.length_append, expandAll_length]

/-- Feeding `k` bytes adds `8 * k` bits to register 0. -/
theorem bitCount_fed {s : State} (bs : List Byte) (i : Nat) (hi : i < s.regs.length) {t : State}
    (h : t.regs = s.regs.map (fedReg bs)) : bitCount i t = bitCount i s + 8 * bs.length := by
  simp only [bitCount, h, List.getElem?_map, List.getElem?_eq_getElem hi, Option.map_some,
    fedReg_q_length]

theorem fitsByte_fed {s t : State} {bs : List Byte} {k : Nat} (h : FitsByte s (bs.length + k))
    (hr : t.regs = s.regs.map (fedReg bs)) (hp : t.params = s.params) : FitsByte t k := by
  intro r hr'
  rw [hr] at hr'
  obtain ⟨r0, h0, rfl⟩ := List.mem_map.mp hr'
  have := h r0 h0
  simp only [fedReg_q_length, hp]
  omega

theorem feedBytes_eq {bs : List Byte} {s : State} (h : FitsByte s bs.length) :
    feedBytes bs s = .ok { s with regs := s.regs.map (fedReg bs) } := by
  induction bs generalizing s with
  | nil => simp [feedBytes]
  | cons b bs ih =>
    have h1 : FitsByte s 1 := fun r hr => by
      have := h r hr
      simp only [List.length_cons] at this
      omega
    have h2 : FitsByte { s with regs := s.regs.map (fedReg [b]) } bs.length :=
      fitsByte_fed (bs := [b]) (by simpa [Nat.add_comm] using h) rfl rfl
    simp only [feedBytes, feedAll_eq h1, flow_ok_bind, ih h2, map_fedReg_map, List.singleton_append]

theorem feedBytes_ok {bs : List Byte} {s t : State} (h : feedBytes bs s = .ok t) :
    t = { s with regs := s.regs.map (fedReg bs) } := by
  induction bs generalizing s with
  | nil => simpa [feedBytes] using h.symm
  | cons b bs ih =>
    obtain ⟨s1, h1, h2⟩ := flow_bind_ok.mp h
    obtain ⟨-, rfl⟩ := feedAll_ok h1
    simpa only [map_fedReg_map, List.singleton_append] using ih h2

theorem feedBytes_error {bs : List Byte} {s : State} {r : Result} (h : feedBytes bs s = .error r) :
    r = .fault .registerContract := by
  induction bs generalizing s with
  | nil => cases h
  | cons b bs ih =>
    rcases flow_bind_error.mp h with h | ⟨s1, -, h⟩
    · exact feedAll_error h
    · exact ih h

/-- The state after the trailing bytes `bs` were fed. -/
def trailingFed (bs : List Byte) (s : State) : State :=
  { s with regs := s.regs.map (fedReg bs), cur := s.cur + BitVec.ofNat 16 bs.length }

/-- The trailing bytes a feed of `rem` bytes finds. -/
def trailingBytes (rem : Nat) (s : State) : List Byte := (s.params.tb.drop s.cur.toNat).take rem

theorem trailingBytes_succ {rem : Nat} {s : State} {b : Byte}
    (hb : s.params.tb[s.cur.toNat]? = some b) (hT : s.params.tb.length ≤ 65535) (rs : List BitReg) :
    trailingBytes (rem + 1) s =
      b :: trailingBytes rem { s with regs := rs, cur := s.cur + 1 } := by
  obtain ⟨hlt, hb⟩ := List.getElem?_eq_some_iff.mp hb
  have hc : (s.cur + 1).toNat = s.cur.toNat + 1 := by
    rw [BitVec.toNat_add]
    exact Nat.mod_eq_of_lt (by simp; omega)
  simp only [trailingBytes, hc, List.drop_eq_getElem_cons hlt, List.take_succ_cons, hb]

theorem trailingFed_cons {s : State} {b : Byte} {bs : List Byte} :
    trailingFed bs { s with regs := s.regs.map (fedReg [b]), cur := s.cur + 1 } =
      trailingFed (b :: bs) s := by
  have : s.cur + 1 + BitVec.ofNat 16 bs.length = s.cur + BitVec.ofNat 16 (b :: bs).length := by
    rw [BitVec.add_assoc, List.length_cons, Nat.add_comm bs.length 1, BitVec.ofNat_add]
    rfl
  simp only [trailingFed, map_fedReg_map, List.singleton_append, this]

/-- Step 3 of R85: it feeds the trailing bytes there are, and fails if they are too few. -/
theorem feedTrailing_eq {rem : Nat} {s : State} (hT : s.params.tb.length ≤ 65535)
    (h : FitsByte s rem) :
    feedTrailing rem s =
      if (trailingBytes rem s).length = rem then .ok (trailingFed (trailingBytes rem s) s)
      else .error (raiseInsufficient (trailingFed (trailingBytes rem s) s)) := by
  induction rem generalizing s with
  | zero => simp [feedTrailing, trailingBytes, trailingFed]
  | succ rem ih =>
    unfold feedTrailing
    cases hb : s.params.tb[s.cur.toNat]? with
    | none =>
      have hd : s.params.tb.drop s.cur.toNat = [] :=
        List.drop_eq_nil_of_le (List.getElem?_eq_none_iff.mp hb)
      simp [trailingBytes, hd, trailingFed]
    | some b =>
      have h1 : FitsByte s 1 := fun r hr => by have := h r hr; omega
      have h2 : FitsByte { s with regs := s.regs.map (fedReg [b]), cur := s.cur + 1 } rem :=
        fitsByte_fed (bs := [b]) (by simpa [Nat.add_comm] using h) rfl rfl
      simp only [feedAll_eq h1, flow_ok_bind]
      rw [ih (by exact hT) h2, trailingFed_cons, trailingBytes_succ hb hT (s.regs.map (fedReg [b]))]
      simp

theorem feedTrailing_ok {rem : Nat} {s t : State} (hT : s.params.tb.length ≤ 65535)
    (h : feedTrailing rem s = .ok t) :
    (trailingBytes rem s).length = rem ∧ t = trailingFed (trailingBytes rem s) s := by
  induction rem generalizing s with
  | zero => simpa [feedTrailing, trailingBytes, trailingFed] using h.symm
  | succ rem ih =>
    unfold feedTrailing at h
    cases hb : s.params.tb[s.cur.toNat]? with
    | none => simp [hb] at h
    | some b =>
      simp only [hb] at h
      obtain ⟨s1, h1, h2⟩ := flow_bind_ok.mp h
      obtain ⟨-, rfl⟩ := feedAll_ok h1
      obtain ⟨hl, rfl⟩ := ih (s := { s with regs := s.regs.map (fedReg [b]), cur := s.cur + 1 }) hT h2
      rw [trailingFed_cons, trailingBytes_succ hb hT (s.regs.map (fedReg [b]))]
      exact ⟨by rw [List.length_cons, hl], rfl⟩

theorem feedTrailing_error {rem : Nat} {s : State} {r : Result} (hT : s.params.tb.length ≤ 65535)
    (h : feedTrailing rem s = .error r) :
    r = .fault .registerContract ∨
      ((trailingBytes rem s).length < rem ∧
        r = raiseInsufficient (trailingFed (trailingBytes rem s) s)) := by
  induction rem generalizing s with
  | zero => cases h
  | succ rem ih =>
    unfold feedTrailing at h
    cases hb : s.params.tb[s.cur.toNat]? with
    | none =>
      have hd : s.params.tb.drop s.cur.toNat = [] :=
        List.drop_eq_nil_of_le (List.getElem?_eq_none_iff.mp hb)
      simp only [hb] at h
      cases h
      exact .inr (by simp [trailingBytes, hd, trailingFed])
    | some b =>
      simp only [hb] at h
      rcases flow_bind_error.mp h with h | ⟨s1, h1, h2⟩
      · exact .inl (feedAll_error h)
      · obtain ⟨-, rfl⟩ := feedAll_ok h1
        rcases ih (s := { s with regs := s.regs.map (fedReg [b]), cur := s.cur + 1 }) hT h2 with
          h | ⟨hl, h⟩
        · exact .inl h
        · rw [trailingFed_cons] at h
          rw [trailingBytes_succ hb hT (s.regs.map (fedReg [b]))]
          exact .inr ⟨by simpa using hl, h⟩

/-! ### Ensure -/

theorem needBytes_eq_zero {count : Nat} {s : State} : needBytes count s = 0 ↔ count ≤ bitCount 0 s := by
  unfold needBytes
  rw [ceilDiv_eight_eq_zero]
  omega

theorem needBytes_spec (count : Nat) (s : State) :
    count ≤ bitCount 0 s + 8 * needBytes count s ∧
      8 * needBytes count s ≤ (count - bitCount 0 s) + 7 := by
  have := ceilDiv_eight_spec (count - bitCount 0 s)
  unfold needBytes
  omega

theorem sourceSupply_length_le (count : Nat) (s : State) :
    (sourceSupply count s).length ≤ needBytes count s := by
  unfold sourceSupply
  split
  · simp
  · rw [nextBytes_readCount_length]
    exact (readCount_le _ _ _).trans (sourceReach_le _ _)

theorem supply_length_le (count : Nat) (s : State) : (supply count s).length ≤ needBytes count s := by
  have := sourceSupply_length_le count s
  simp only [supply, trailingSupply, List.length_append, List.length_take]
  omega

/-- With enough bits buffered the feed does nothing (R85). -/
theorem fedState_of_buffered {count : Nat} {s : State} (h : count ≤ bitCount 0 s) :
    fedState count s = s ∧ (supply count s).length = needBytes count s := by
  have h0 : needBytes count s = 0 := needBytes_eq_zero.mpr h
  have hn : noRead count s = true := by simp [noRead, h0]
  have hs : sourceSupply count s = [] := by simp [sourceSupply, hn]
  have ht : trailingSupply count s = [] := by simp [trailingSupply, h0]
  have hsup : supply count s = [] := by simp [supply, hs, ht]
  refine ⟨?_, by simp [hsup, h0]⟩
  simp [fedState, hsup, ht, hn]

/-- Once padding has begun a feed takes trailing bytes only (R30). -/
theorem fedState_of_padding {count : Nat} {s : State} (h : paddingBegun s = true) :
    fedState count s = trailingFed (trailingBytes (needBytes count s) s) s ∧
      supply count s = trailingBytes (needBytes count s) s := by
  have hn : noRead count s = true := by simp [noRead, h]
  have hs : sourceSupply count s = [] := by simp [sourceSupply, hn]
  have ht : trailingSupply count s = trailingBytes (needBytes count s) s := by
    simp [trailingSupply, trailingBytes, hs]
  refine ⟨?_, by simp [supply, hs, ht]⟩
  simp [fedState, trailingFed, supply, hs, ht, hn]

/-- A feed with a source read takes the source's bytes and then trailing bytes. -/
theorem fedState_of_read {count : Nat} {s : State} (h : noRead count s = false) {s2 : State}
    (h2 : s2 = { s with
      regs := s.regs.map (fedReg (sourceSupply count s))
      src := sourceAfter (readCount s.params.srcFullRead (needBytes count s) s.src) s.src }) :
    trailingFed (trailingBytes (needBytes count s - (sourceSupply count s).length) s2) s2 =
        fedState count s ∧
      trailingBytes (needBytes count s - (sourceSupply count s).length) s2 =
        trailingSupply count s := by
  subst h2
  have ht : ∀ t : State, t.params = s.params → t.cur = s.cur →
      trailingBytes (needBytes count s - (sourceSupply count s).length) t = trailingSupply count s := by
    intro t hp hc
    simp [trailingBytes, trailingSupply, hp, hc]
  refine ⟨?_, ht _ rfl rfl⟩
  rw [ht { s with
      regs := s.regs.map (fedReg (sourceSupply count s))
      src := sourceAfter (readCount s.params.srcFullRead (needBytes count s) s.src) s.src } rfl rfl]
  simp only [trailingFed, fedState, map_fedReg_map, supply, h]
  rfl

/-- The steps of `ensure` where it reads the source. -/
theorem ensure_of_read {i : Instr} {count : Nat} {s : State} (h : noRead count s = false) :
    ensure i count s = (do
      let (bytes, s1) ← srcRead i 0 (needBytes count s) s
      let s2 ← feedBytes bytes s1
      feedTrailing (needBytes count s - bytes.length) s2) := by
  simp only [noRead, Bool.or_eq_false_iff, decide_eq_false_iff_not, needBytes_eq_zero] at h
  simp [ensure, h.1, h.2, needBytes]

theorem ensure_of_padding {i : Instr} {count : Nat} {s : State} (h : ¬ count ≤ bitCount 0 s)
    (hp : paddingBegun s = true) : ensure i count s = feedTrailing (needBytes count s) s := by
  simp [ensure, h, hp, needBytes]

/-- `Ensure(count)` (R85) where the bytes fit and the source returns at once: the closed form. -/
theorem ensure_eq {i : Instr} {count : Nat} {s : State} (hT : s.params.tb.length ≤ 65535)
    (hf : FitsByte s (needBytes count s)) (hr : noRead count s = true ∨ SourceReady s) :
    ensure i count s =
      if (supply count s).length = needBytes count s then .ok (fedState count s)
      else .error (raiseInsufficient (fedState count s)) := by
  by_cases hb : count ≤ bitCount 0 s
  · obtain ⟨h1, h2⟩ := fedState_of_buffered hb
    simp [ensure, hb, h1, h2]
  cases hp : paddingBegun s with
  | true =>
    obtain ⟨h1, h2⟩ := fedState_of_padding (count := count) hp
    rw [ensure_of_padding hb hp, feedTrailing_eq hT hf, h1, h2]
  | false =>
    have hn : noRead count s = false := by simp [noRead, hp, needBytes_eq_zero, hb]
    have hready : SourceReady s := hr.resolve_left (by simp [hn])
    have hsrc : sourceSupply count s =
        nextBytes (readCount s.params.srcFullRead (needBytes count s) s.src) s.src := by
      simp [sourceSupply, hn]
    have hle := sourceSupply_length_le count s
    rw [ensure_of_read hn, srcRead_eq hready]
    simp only [flow_ok_bind, ← hsrc]
    have hf1 : FitsByte { s with
        src := sourceAfter (readCount s.params.srcFullRead (needBytes count s) s.src) s.src }
        (sourceSupply count s).length := fun r hr' => by
      have := hf r hr'
      dsimp only
      omega
    rw [feedBytes_eq hf1]
    simp only [flow_ok_bind]
    obtain ⟨e1, e2⟩ := fedState_of_read hn rfl
    have hf2 : FitsByte { s with
        regs := s.regs.map (fedReg (sourceSupply count s))
        src := sourceAfter (readCount s.params.srcFullRead (needBytes count s) s.src) s.src }
        (needBytes count s - (sourceSupply count s).length) := by
      refine fitsByte_fed (s := s) (bs := sourceSupply count s) ?_ rfl rfl
      rw [Nat.add_sub_cancel' hle]
      exact hf
    rw [feedTrailing_eq (by exact hT) hf2, e1, e2]
    have : ((trailingSupply count s).length = needBytes count s - (sourceSupply count s).length) ↔
        (supply count s).length = needBytes count s := by
      simp only [supply, List.length_append]
      omega
    simp only [this]

/-- If `Ensure` goes on, the state is the closed form and the feed was enough. -/
theorem ensure_ok {i : Instr} {count : Nat} {s t : State} (hT : s.params.tb.length ≤ 65535)
    (h : ensure i count s = .ok t) :
    t = fedState count s ∧ (supply count s).length = needBytes count s ∧
      (noRead count s = true ∨ SourceReady s) := by
  by_cases hb : count ≤ bitCount 0 s
  · obtain ⟨h1, h2⟩ := fedState_of_buffered hb
    simp only [ensure, hb, if_true] at h
    cases h
    exact ⟨h1.symm, h2, .inl (by simp [noRead, needBytes_eq_zero, hb])⟩
  cases hp : paddingBegun s with
  | true =>
    obtain ⟨h1, h2⟩ := fedState_of_padding (count := count) hp
    rw [ensure_of_padding hb hp] at h
    obtain ⟨hl, rfl⟩ := feedTrailing_ok hT h
    exact ⟨h1.symm, by rw [h2, hl], .inl (by simp [noRead, hp])⟩
  | false =>
    have hn : noRead count s = false := by simp [noRead, hp, needBytes_eq_zero, hb]
    rw [ensure_of_read hn] at h
    obtain ⟨⟨bytes, s1⟩, h1, h2⟩ := flow_bind_ok.mp h
    obtain ⟨hready, hbytes, rfl⟩ := srcRead_ok h1
    have hsrc : sourceSupply count s = bytes := by simp [sourceSupply, hn, hbytes]
    obtain ⟨s2, h3, h4⟩ := flow_bind_ok.mp h2
    have h5 := feedBytes_ok h3
    rw [← hsrc] at h5 h4
    obtain ⟨hl, rfl⟩ := feedTrailing_ok (by subst h5; exact hT) h4
    obtain ⟨e1, e2⟩ := fedState_of_read hn h5
    refine ⟨e1, ?_, .inr hready⟩
    rw [e2] at hl
    have hle := sourceSupply_length_le count s
    simp only [supply, List.length_append]
    omega

/-- If `Ensure` ends the command, it was for want of bytes, by waiting, or by a fault. -/
theorem ensure_error {i : Instr} {count : Nat} {s : State} {r : Result}
    (hT : s.params.tb.length ≤ 65535) (h : ensure i count s = .error r) :
    r = .fault .registerContract ∨
      (noRead count s = false ∧ ¬ SourceReady s ∧ ∃ ws, r = .next (waiting i 0 ws s)) ∨
      ((supply count s).length < needBytes count s ∧ (noRead count s = true ∨ SourceReady s) ∧
        r = raiseInsufficient (fedState count s)) := by
  by_cases hb : count ≤ bitCount 0 s
  · simp [ensure, hb] at h
  cases hp : paddingBegun s with
  | true =>
    obtain ⟨h1, h2⟩ := fedState_of_padding (count := count) hp
    rw [ensure_of_padding hb hp] at h
    rcases feedTrailing_error hT h with h | ⟨hl, h⟩
    · exact .inl h
    · exact .inr (.inr ⟨by rw [h2]; exact hl, .inl (by simp [noRead, hp]), by rw [h1]; exact h⟩)
  | false =>
    have hn : noRead count s = false := by simp [noRead, hp, needBytes_eq_zero, hb]
    rw [ensure_of_read hn] at h
    rcases flow_bind_error.mp h with h | ⟨⟨bytes, s1⟩, h1, h2⟩
    · obtain ⟨hr, hw⟩ := srcRead_error h
      exact .inr (.inl ⟨hn, hr, hw⟩)
    obtain ⟨hready, hbytes, rfl⟩ := srcRead_ok h1
    have hsrc : sourceSupply count s = bytes := by simp [sourceSupply, hn, hbytes]
    rcases flow_bind_error.mp h2 with h | ⟨s2, h3, h4⟩
    · exact .inl (feedBytes_error h)
    have h5 := feedBytes_ok h3
    rw [← hsrc] at h5 h4
    obtain ⟨e1, e2⟩ := fedState_of_read hn h5
    rcases feedTrailing_error (by subst h5; exact hT) h4 with h | ⟨hl, h⟩
    · exact .inl h
    · rw [e1] at h
      rw [e2] at hl
      refine .inr (.inr ⟨?_, .inr hready, h⟩)
      have hle := sourceSupply_length_le count s
      simp only [supply, List.length_append]
      omega

/-- Padding begun is a positive cursor (R30). -/
theorem paddingBegun_eq (s : State) : paddingBegun s = decide (0 < s.cur.toNat) := by
  rw [Bool.eq_iff_iff]
  simp only [paddingBegun, bne_iff_ne, ne_eq, decide_eq_true_eq]
  constructor
  · intro h
    by_contra h'
    exact h (BitVec.eq_of_toNat_eq (by simpa using h'))
  · intro h h'
    simp [h'] at h

/-- With a full-read source the feed takes the coming bytes in order (R94). -/
theorem supply_of_fullRead {s : State} (count : Nat) (hf : s.params.srcFullRead = true) :
    supply count s = comingBytes (needBytes count s) s := by
  have hsrc : sourceSupply count s =
      if paddingBegun s then [] else nextBytes (needBytes count s) s.src := by
    unfold sourceSupply noRead
    cases hp : paddingBegun s
    · simp only [Bool.or_false, decide_eq_true_eq, Bool.false_eq_true, if_false]
      split
      · next h => simp [h]
      · rw [hf, readCount_full, nextBytes_reach]
    · simp
  have hle := sourceSupply_length_le count s
  rw [supply, trailingSupply, comingBytes, ← hsrc, List.take_append, List.take_of_length_le hle]

end Sys2Proof.Machine
end

