-- ==== Sys2Proof/Laws/Drain.lean ====
section
/-! SUPPORT. Alignment (R95) and the drain of R98 and R99, said once. -/

namespace Sys2Proof.Machine

@[simp] theorem discardedRegs_length (n : Nat) (s : State) :
    (discardedRegs n s).length = s.regs.length := by simp [discardedRegs]

@[simp] theorem discardedRegs_zero (s : State) : discardedRegs 0 s = s.regs := by
  simp [discardedRegs]

theorem discardedRegs_congr {s t : State} (h : s.regs = t.regs) (n : Nat) :
    discardedRegs n s = discardedRegs n t := by simp [discardedRegs, h]

/-- Discarding twice is discarding the sum. -/
theorem discardedRegs_discarded {s t : State} {n : Nat} (h : t.regs = discardedRegs n s) (m : Nat) :
    discardedRegs m t = discardedRegs (n + m) s := by
  simp [discardedRegs, h, List.drop_drop]

theorem bitCount_discarded {s t : State} {n : Nat} (h : t.regs = discardedRegs n s) (i : Nat) :
    bitCount i t = bitCount i s - n := by
  simp only [bitCount, h, discardedRegs, List.getElem?_map]
  cases s.regs[i]? <;> simp

theorem lockstep_discarded {s t : State} {n : Nat} (hl : Lockstep s) (h : t.regs = discardedRegs n s) :
    Lockstep t := by
  intro r hr
  rw [bitCount_discarded h]
  rw [h] at hr
  obtain ⟨r0, h0, rfl⟩ := List.mem_map.mp hr
  simp [hl r0 h0]

theorem lockstep_congr {s t : State} (hl : Lockstep s) (h : t.regs = s.regs) : Lockstep t := by
  intro r hr
  rw [bitCount_congr h]
  exact hl r (h ▸ hr)

theorem canDiscard_of_lockstep {s : State} {n : Nat} (hl : Lockstep s) (hc : n ≤ s.params.cap)
    (hn : n ≤ bitCount 0 s) : CanDiscard n s := fun r hr => ⟨hc, by rw [hl r hr]; exact hn⟩

theorem frontValue_congr {s t : State} (h : s.regs = t.regs) (i n : Nat) :
    frontValue i n s = frontValue i n t := by simp [frontValue, h]

theorem frontValue_lt (i n : Nat) (s : State) : frontValue i n s < 2 ^ n := by
  unfold frontValue
  split
  · exact bitVal_lt _ _ _
  · exact Nat.two_pow_pos n

theorem bufferedBytes_congr {s t : State} (h : s.regs = t.regs) (skip k : Nat) :
    bufferedBytes skip k s = bufferedBytes skip k t := by simp [bufferedBytes, h]

@[simp] theorem bufferedBytes_zero (skip : Nat) (s : State) : bufferedBytes skip 0 s = [] := by
  unfold bufferedBytes
  split <;> simp

/-- The first buffered byte is the front value; the others stand behind its 8 bits. -/
theorem bufferedBytes_succ {s t : State} (hr : 0 < s.regs.length) (h : t.regs = discardedRegs 8 s)
    (k : Nat) :
    bufferedBytes 0 (k + 1) s = BitVec.ofNat 8 (frontValue 0 8 s) :: bufferedBytes 0 k t := by
  have h0 : s.regs[0]? = some s.regs[0] := List.getElem?_eq_getElem hr
  simp only [bufferedBytes, frontValue, h, discardedRegs, List.getElem?_map, h0, Option.map_some,
    List.range_succ_eq_map, List.map_cons, List.map_map, Function.comp_def, List.drop_drop]
  simp [Nat.mul_add, Nat.add_comm]

theorem bufferedBytes_discarded {s t : State} {n : Nat} (h : t.regs = discardedRegs n s)
    (skip k : Nat) : bufferedBytes skip k t = bufferedBytes (n + skip) k s := by
  simp only [bufferedBytes, h, discardedRegs, List.getElem?_map]
  cases s.regs[0]? <;> simp [List.drop_drop, Nat.add_assoc]

/-! ### Align -/

/-- The state after `n` bits were discarded everywhere and counted. -/
def consumed (n : Nat) (s : State) : State :=
  { s with regs := discardedRegs n s, total := s.total + BitVec.ofNat 64 n }

@[simp] theorem consumed_zero (s : State) : consumed 0 s = s := by simp [consumed]

@[simp] theorem consumed_regs (n : Nat) (s : State) : (consumed n s).regs = discardedRegs n s := rfl
@[simp] theorem consumed_total (n : Nat) (s : State) :
    (consumed n s).total = s.total + BitVec.ofNat 64 n := rfl
@[simp] theorem consumed_cur (n : Nat) (s : State) : (consumed n s).cur = s.cur := rfl
@[simp] theorem consumed_busy (n : Nat) (s : State) : (consumed n s).busy = s.busy := rfl
@[simp] theorem consumed_inFlight (n : Nat) (s : State) : (consumed n s).inFlight = s.inFlight := rfl
@[simp] theorem consumed_delivered (n : Nat) (s : State) :
    (consumed n s).delivered = s.delivered := rfl
@[simp] theorem consumed_params (n : Nat) (s : State) : (consumed n s).params = s.params := rfl
@[simp] theorem consumed_words (n : Nat) (s : State) : (consumed n s).words = s.words := rfl
@[simp] theorem consumed_src (n : Nat) (s : State) : (consumed n s).src = s.src := rfl
@[simp] theorem consumed_dst (n : Nat) (s : State) : (consumed n s).dst = s.dst := rfl
@[simp] theorem consumed_resps (n : Nat) (s : State) : (consumed n s).resps = s.resps := rfl

/-- Counting and discarding the same number of bits, as DECODE, ALIGN and the drain do. -/
theorem addTotal_discardAll_eq {n : Nat} {s : State} (hd : CanDiscard n s)
    (ht : s.total.toNat + n < 2 ^ 64) :
    (addTotal n s >>= discardAll n) = .ok (consumed n s) := by
  rw [addTotal_eq ht, flow_ok_bind]
  exact discardAll_eq (s := { s with total := s.total + BitVec.ofNat 64 n }) hd

theorem addTotal_discardAll_ok {n : Nat} {s t : State}
    (h : (addTotal n s >>= discardAll n) = .ok t) :
    CanDiscard n s ∧ s.total.toNat + n < 2 ^ 64 ∧ t = consumed n s := by
  obtain ⟨s1, h1, h2⟩ := flow_bind_ok.mp h
  obtain ⟨ht, rfl⟩ := addTotal_ok h1
  obtain ⟨hd, rfl⟩ := discardAll_ok h2
  exact ⟨hd, ht, rfl⟩

theorem alignAll_eq {s : State} (hd : CanDiscard (bitCount 0 s % 8) s)
    (ht : s.total.toNat + bitCount 0 s % 8 < 2 ^ 64) :
    alignAll s = .ok (consumed (bitCount 0 s % 8) s) := by
  unfold alignAll
  by_cases h : bitCount 0 s % 8 = 0
  · simp [h]
  · simpa [h] using addTotal_discardAll_eq hd ht

theorem alignAll_overflow {s : State} (ht : 2 ^ 64 ≤ s.total.toNat + bitCount 0 s % 8) :
    alignAll s = .error (.fault .totalOverflow) := by
  have h : bitCount 0 s % 8 ≠ 0 := by
    intro h
    have := s.total.isLt
    omega
  unfold alignAll
  simp only [h, if_false, addTotal_overflow ht, flow_error_bind]

theorem alignAll_ok {s t : State} (h : alignAll s = .ok t) :
    s.total.toNat + bitCount 0 s % 8 < 2 ^ 64 ∧ t = consumed (bitCount 0 s % 8) s ∧
      ∀ r ∈ s.regs, bitCount 0 s % 8 ≤ r.q.length := by
  unfold alignAll at h
  by_cases hr : bitCount 0 s % 8 = 0
  · simp only [hr, if_true] at h
    cases h
    exact ⟨by rw [hr]; exact s.total.isLt, by rw [hr, consumed_zero], by simp [hr]⟩
  · simp only [hr, if_false] at h
    obtain ⟨hd, ht, rfl⟩ := addTotal_discardAll_ok h
    exact ⟨ht, rfl, fun r hm => (hd r hm).2⟩

theorem alignAll_error {s : State} {r : Result} (h : alignAll s = .error r) :
    ∃ f, r = .fault f := by
  unfold alignAll at h
  dsimp only at h
  split at h
  · cases h
  · rcases flow_bind_error.mp h with h | ⟨s1, -, h⟩
    · exact ⟨_, addTotal_error h⟩
    · exact ⟨_, discardAll_error h⟩

/-! ### Drain -/

theorem drainByte_eq {s : State} (hr : 0 < s.regs.length) (hd : CanDiscard 8 s)
    (ht : s.total.toNat + 8 < 2 ^ 64) :
    drainByte s = .ok (frontValue 0 8 s, consumed 8 s) := by
  have h0 := hd s.regs[0] (List.getElem_mem hr)
  unfold drainByte
  rw [peekReg_eq (List.getElem?_eq_getElem hr) h0.1 h0.2, flow_ok_bind, addTotal_eq ht, flow_ok_bind,
    discardAll_eq (s := { s with total := s.total + BitVec.ofNat 64 8 }) hd]
  rfl

theorem drainByte_overflow {s : State} (hr : 0 < s.regs.length) (hd : CanDiscard 8 s)
    (ht : 2 ^ 64 ≤ s.total.toNat + 8) : drainByte s = .error (.fault .totalOverflow) := by
  have h0 := hd s.regs[0] (List.getElem_mem hr)
  unfold drainByte
  rw [peekReg_eq (List.getElem?_eq_getElem hr) h0.1 h0.2, flow_ok_bind, addTotal_overflow ht]
  rfl

theorem drainByte_ok {s t : State} {v : Nat} (h : drainByte s = .ok (v, t)) :
    0 < s.regs.length ∧ CanDiscard 8 s ∧ s.total.toNat + 8 < 2 ^ 64 ∧ v = frontValue 0 8 s ∧
      t = consumed 8 s := by
  obtain ⟨v', h1, h2⟩ := flow_bind_ok.mp h
  obtain ⟨s1, h3, h4⟩ := flow_bind_ok.mp h2
  obtain ⟨s2, h5, h6⟩ := flow_bind_ok.mp h4
  obtain ⟨r, hr, -, -, rfl⟩ := peekReg_ok h1
  obtain ⟨ht, rfl⟩ := addTotal_ok h3
  obtain ⟨hd, rfl⟩ := discardAll_ok h5
  cases h6
  exact ⟨(List.getElem?_eq_some_iff.mp hr).1, hd, ht, rfl, rfl⟩

theorem drainByte_error {s : State} {r : Result} (h : drainByte s = .error r) :
    ∃ f, r = .fault f := by
  rcases flow_bind_error.mp h with h | ⟨v, -, h⟩
  · exact ⟨_, peekReg_error h⟩
  rcases flow_bind_error.mp h with h | ⟨s1, -, h⟩
  · exact ⟨_, addTotal_error h⟩
  rcases flow_bind_error.mp h with h | ⟨s2, -, h⟩
  · exact ⟨_, discardAll_error h⟩
  · cases h

/-- The state after the first `n` buffered bytes were drained to the destination. -/
def drained (n : Nat) (s : State) : State := dstWrite (bufferedBytes 0 n s) (consumed (8 * n) s)

@[simp] theorem drained_zero (s : State) : drained 0 s = s := by simp [drained, dstWrite]

/-- Draining one byte and then `n` is draining `n + 1`. -/
theorem drained_succ {s : State} (hr : 0 < s.regs.length) (n : Nat) :
    drained n (dstWrite [BitVec.ofNat 8 (frontValue 0 8 s)] (consumed 8 s)) = drained (n + 1) s := by
  have hb : bufferedBytes 0 n (dstWrite [BitVec.ofNat 8 (frontValue 0 8 s)] (consumed 8 s)) =
      bufferedBytes 0 n (consumed 8 s) := bufferedBytes_congr rfl 0 n
  have ht : s.total + BitVec.ofNat 64 8 + BitVec.ofNat 64 (8 * n) =
      s.total + BitVec.ofNat 64 (8 * (n + 1)) := by
    rw [BitVec.add_assoc, ← BitVec.ofNat_add, Nat.mul_add, Nat.add_comm 8]
  have hd : discardedRegs (8 * n) (dstWrite [BitVec.ofNat 8 (frontValue 0 8 s)] (consumed 8 s)) =
      discardedRegs (8 * (n + 1)) s := by
    rw [discardedRegs_discarded (s := s) (n := 8) rfl]
    congr 1
    omega
  unfold drained
  rw [hb, bufferedBytes_succ hr (t := consumed 8 s) rfl]
  simp only [dstWrite, consumed] at *
  rw [ht, hd]
  simp

/-- The drain loop of R98 answers how many bytes it drained and the state after draining them. -/
theorem drainBytes_ok {left n : Nat} {s t : State} (h : drainBytes left s = .ok (n, t)) :
    t = drained n s ∧ n ≤ left ∧ s.total.toNat + 8 * n < 2 ^ 64 ∧
      (∀ r ∈ s.regs, 8 * n ≤ r.q.length) ∧ (n < left → bitCount 0 t = 0) := by
  induction left generalizing s n t with
  | zero =>
    cases h
    exact ⟨by simp, by omega, by have := s.total.isLt; omega, by simp, by omega⟩
  | succ left ih =>
    unfold drainBytes at h
    split at h
    · next hb =>
      cases h
      exact ⟨by simp, by omega, by have := s.total.isLt; omega, by simp, fun _ => hb⟩
    · obtain ⟨⟨v, s1⟩, h1, h2⟩ := flow_bind_ok.mp h
      obtain ⟨hr, hd, ht, rfl, rfl⟩ := drainByte_ok h1
      obtain ⟨⟨m, s2⟩, h3, h4⟩ := flow_bind_ok.mp h2
      cases h4
      obtain ⟨rfl, hm, ht', hq, hz⟩ := ih h3
      rw [drained_succ hr] at hz ⊢
      simp only [dstWrite_total, consumed_total, total_add_toNat ht] at ht'
      refine ⟨rfl, by omega, by omega, ?_, fun hlt => hz (by omega)⟩
      intro r hm'
      have h8 := (hd r hm').2
      have := hq { r with q := r.q.drop 8 } (List.mem_map.mpr ⟨r, hm', rfl⟩)
      simp only [List.length_drop] at this
      omega

theorem drainBytes_error {left : Nat} {s : State} {r : Result} (h : drainBytes left s = .error r) :
    ∃ f, r = .fault f := by
  induction left generalizing s with
  | zero => cases h
  | succ left ih =>
    unfold drainBytes at h
    split at h
    · cases h
    · rcases flow_bind_error.mp h with h | ⟨⟨v, s1⟩, -, h⟩
      · exact drainByte_error h
      rcases flow_bind_error.mp h with h | ⟨⟨m, s2⟩, -, h⟩
      · exact ih h
      · cases h

/-- On aligned registers in lockstep the drain takes every whole byte it has room for (R98). -/
theorem drainBytes_eq {left : Nat} {s : State} (hl : Lockstep s) (h8 : bitCount 0 s % 8 = 0)
    (hc : bitCount 0 s ≤ s.params.cap)
    (ht : s.total.toNat + 8 * min left (bitCount 0 s / 8) < 2 ^ 64) :
    drainBytes left s =
      .ok (min left (bitCount 0 s / 8), drained (min left (bitCount 0 s / 8)) s) := by
  induction left generalizing s with
  | zero => simp [drainBytes]
  | succ left ih =>
    unfold drainBytes
    by_cases hb : bitCount 0 s = 0
    · simp [hb]
    · have hr : 0 < s.regs.length := by
        by_contra hn
        have : s.regs = [] := List.eq_nil_of_length_eq_zero (by omega)
        simp [bitCount, this] at hb
      have hd : CanDiscard 8 s := canDiscard_of_lockstep hl (by omega) (by omega)
      have hbc : ∀ bs, bitCount 0 (dstWrite bs (consumed 8 s)) = bitCount 0 s - 8 :=
        fun bs => bitCount_discarded (s := s) (n := 8) rfl 0
      have hmin : min (left + 1) (bitCount 0 s / 8) = min left ((bitCount 0 s - 8) / 8) + 1 := by omega
      rw [if_neg hb, drainByte_eq hr hd (by omega), flow_ok_bind]
      dsimp only
      rw [ih (s := dstWrite _ (consumed 8 s)) (lockstep_discarded hl rfl) (by rw [hbc]; omega)
        (by rw [hbc, dstWrite_params, consumed_params]; omega)
        (by
          rw [hbc, dstWrite_total, consumed_total, total_add_toNat (by omega)]
          omega)]
      simp only [flow_ok_bind, flow_pure, hbc, hmin, drained_succ hr]

/-- The drain can only fail by the counter's overflow. -/
theorem drainBytes_error_lockstep {left : Nat} {s : State} {r : Result} (hl : Lockstep s)
    (h8 : bitCount 0 s % 8 = 0) (hc : bitCount 0 s ≤ s.params.cap) (h : drainBytes left s = .error r) :
    r = .fault .totalOverflow := by
  induction left generalizing s with
  | zero => cases h
  | succ left ih =>
    unfold drainBytes at h
    split at h
    · cases h
    · next hb =>
      have hr : 0 < s.regs.length := by
        by_contra hn
        have : s.regs = [] := List.eq_nil_of_length_eq_zero (by omega)
        simp [bitCount, this] at hb
      have hd : CanDiscard 8 s := canDiscard_of_lockstep hl (by omega) (by omega)
      by_cases ht : s.total.toNat + 8 < 2 ^ 64
      · rw [drainByte_eq hr hd ht, flow_ok_bind] at h
        dsimp only at h
        rcases flow_bind_error.mp h with h | ⟨⟨m, s2⟩, -, h⟩
        · refine ih (s := dstWrite _ (consumed 8 s)) (lockstep_discarded hl rfl) ?_ ?_ h <;>
            rw [bitCount_discarded (s := s) (n := 8) rfl]
          · omega
          · rw [dstWrite_params, consumed_params]
            omega
        · cases h
      · rw [drainByte_overflow hr hd (by omega), flow_error_bind] at h
        cases h
        rfl

/-- The bytes drained from byte-aligned registers are the bytes fed (R43). -/
theorem bufferedBytes_of_bytes {s : State} {bs : List Byte} (h0 : 0 < s.regs.length)
    (hq : ∀ r ∈ s.regs, r.q = bs.flatMap (expand r.order)) {k : Nat} (hk : k ≤ bs.length) :
    bufferedBytes 0 k s = bs.take k := by
  unfold bufferedBytes
  rw [List.getElem?_eq_getElem h0]
  simp only
  rw [hq _ (List.getElem_mem h0)]
  apply List.ext_getElem
  · simp; omega
  · intro m h1 h2
    have hm : m < bs.length := by simp at h1; omega
    simp only [List.getElem_map, List.getElem_range, List.getElem_take, Nat.zero_add]
    rw [expandAll_drop, List.drop_eq_getElem_cons hm, List.flatMap_cons, bitVal_expand]
    simp

end Sys2Proof.Machine
end

