-- ==== Sys2Proof/Laws/Commands.lean ====
section
/-! SUPPORT. What each instruction can do when it answers a next state, said once per instruction. -/

namespace Sys2Proof.Machine

theorem respond_eq_next {st : Status} {v : BitVec 64} {s t : State} :
    respond st v s = .next t ↔ t = responded st v s := by
  simp [respond, eq_comm]

theorem raiseUsage_eq_next {u : Usage} {s t : State} :
    raiseUsage u s = .next t ↔ t = responded .usage (usageCode u) s := respond_eq_next

theorem raiseInsufficient_eq_next {s t : State} :
    raiseInsufficient s = .next t ↔ t = responded .insufficient 0 s := respond_eq_next

/-- R66's last two checks pass exactly on these operands. -/
theorem bitCommandCheck_eq_none {reg count : Nat} {s : State} :
    bitCommandCheck reg count s = none ↔ reg < s.regs.length ∧ count ≤ s.params.maxReq := by
  unfold bitCommandCheck
  split
  · simp; omega
  · split
    · simp; omega
    · simp; omega

/-- What the feed of PEEK or DECODE ends the command with, when that is a next state. -/
inductive FeedStops (i : Instr) (count : Nat) (s : State) : State → Prop where
  | waits (ws : List Wait) (hn : noRead count s = false) (hr : ¬ SourceReady s) :
      FeedStops i count s (waiting i 0 ws s)
  | insufficient (hl : (supply count s).length < needBytes count s)
      (hr : noRead count s = true ∨ SourceReady s) :
      FeedStops i count s (responded .insufficient 0 (fedState count s))

theorem ensure_stops {i : Instr} {count : Nat} {s t : State} (hT : s.params.tb.length ≤ 65535)
    (h : ensure i count s = .error (.next t)) : FeedStops i count s t := by
  rcases ensure_error hT h with h | ⟨hn, hr, ws, h⟩ | ⟨hl, hr, h⟩
  · cases h
  · cases h
    exact .waits ws hn hr
  · rw [eq_comm, raiseInsufficient_eq_next] at h
    subst h
    exact .insufficient hl hr

/-- PEEK (R89). -/
theorem execPeek_next {reg count : Nat} {s t : State} (hT : s.params.tb.length ≤ 65535)
    (h : execPeek reg count s = .next t) :
    (∃ u, bitCommandCheck reg count s = some u ∧ t = responded .usage (usageCode u) s) ∨
      (bitCommandCheck reg count s = none ∧
        (FeedStops (.peek reg count) count s t ∨
          ((supply count s).length = needBytes count s ∧
            (noRead count s = true ∨ SourceReady s) ∧
            t = responded .ok (BitVec.ofNat 64 (frontValue reg count (fedState count s)))
              (fedState count s)))) := by
  unfold execPeek at h
  cases hc : bitCommandCheck reg count s with
  | some u =>
    rw [hc] at h
    exact .inl ⟨u, rfl, raiseUsage_eq_next.mp h⟩
  | none =>
    rw [hc] at h
    refine .inr ⟨rfl, ?_⟩
    rcases runCommand_eq.mp h with h | h
    · obtain ⟨s1, h1, h2⟩ := flow_bind_ok.mp h
      obtain ⟨rfl, hl, hr⟩ := ensure_ok hT h1
      obtain ⟨v, h3, h4⟩ := flow_bind_ok.mp h2
      obtain ⟨-, -, -, -, rfl⟩ := peekReg_ok h3
      cases h4
      exact .inr ⟨hl, hr, rfl⟩
    · rcases flow_bind_error.mp h with h | ⟨s1, -, h⟩
      · exact .inl (ensure_stops hT h)
      · rcases flow_bind_error.mp h with h | ⟨v, -, h⟩
        · cases peekReg_error h
        · cases h

/-- DECODE (R90). -/
theorem execDecode_next {reg count : Nat} {s t : State} (hT : s.params.tb.length ≤ 65535)
    (h : execDecode reg count s = .next t) :
    (∃ u, bitCommandCheck reg count s = some u ∧ t = responded .usage (usageCode u) s) ∨
      (bitCommandCheck reg count s = none ∧
        (FeedStops (.decode reg count) count s t ∨
          ((supply count s).length = needBytes count s ∧
            (noRead count s = true ∨ SourceReady s) ∧
            s.total.toNat + count < 2 ^ 64 ∧ CanDiscard count (fedState count s) ∧
            t = responded .ok (BitVec.ofNat 64 (frontValue reg count (fedState count s)))
              (consumed count (fedState count s))))) := by
  unfold execDecode at h
  cases hc : bitCommandCheck reg count s with
  | some u =>
    rw [hc] at h
    exact .inl ⟨u, rfl, raiseUsage_eq_next.mp h⟩
  | none =>
    rw [hc] at h
    refine .inr ⟨rfl, ?_⟩
    rcases runCommand_eq.mp h with h | h
    · obtain ⟨s1, h1, h2⟩ := flow_bind_ok.mp h
      obtain ⟨rfl, hl, hr⟩ := ensure_ok hT h1
      obtain ⟨v, h3, h4⟩ := flow_bind_ok.mp h2
      obtain ⟨-, -, -, -, rfl⟩ := peekReg_ok h3
      obtain ⟨s2, h5, h6⟩ := flow_bind_ok.mp h4
      obtain ⟨ht, rfl⟩ := addTotal_ok h5
      obtain ⟨s3, h7, h8⟩ := flow_bind_ok.mp h6
      obtain ⟨hd, rfl⟩ := discardAll_ok h7
      cases h8
      exact .inr ⟨hl, hr, ht, hd, rfl⟩
    · rcases flow_bind_error.mp h with h | ⟨s1, -, h⟩
      · exact .inl (ensure_stops hT h)
      rcases flow_bind_error.mp h with h | ⟨v, -, h⟩
      · cases peekReg_error h
      rcases flow_bind_error.mp h with h | ⟨s2, -, h⟩
      · cases addTotal_error h
      rcases flow_bind_error.mp h with h | ⟨s3, -, h⟩
      · cases discardAll_error h
      · cases h

/-- ALIGN (R96). -/
theorem execAlign_next {s t : State} (h : execAlign s = .next t) :
    s.total.toNat + bitCount 0 s % 8 < 2 ^ 64 ∧
      t = responded .ok 0 (consumed (bitCount 0 s % 8) s) ∧
      ∀ r ∈ s.regs, bitCount 0 s % 8 ≤ r.q.length := by
  unfold execAlign at h
  rcases runCommand_eq.mp h with h | h
  · obtain ⟨s1, h1, h2⟩ := flow_bind_ok.mp h
    obtain ⟨ht, rfl, hq⟩ := alignAll_ok h1
    cases h2
    exact ⟨ht, rfl, hq⟩
  · rcases flow_bind_error.mp h with h | ⟨s1, -, h⟩
    · obtain ⟨f, hf⟩ := alignAll_error h
      cases hf
    · cases h

/-- The state of READBYTES and READBYTE after alignment (R95). -/
abbrev aligned (s : State) : State := consumed (bitCount 0 s % 8) s

/-- The outcome READBYTES reports (R98). -/
theorem finishBulk_eq_next {room n : Nat} {s t : State} :
    finishBulk room n s = .next t ↔
      t = if n = 0 ∧ 0 < room then responded .eos 0 s else responded .ok (BitVec.ofNat 64 n) s := by
  unfold finishBulk
  split <;> exact respond_eq_next

/-- READBYTES (R98): alignment and a drain of `m` bytes, then, if there is room and padding has not begun,
one source read, which returns or leaves the command waiting. -/
theorem execReadBytes_next {room : Nat} {s t : State} (h : execReadBytes room s = .next t) :
    s.total.toNat + bitCount 0 s % 8 < 2 ^ 64 ∧
    (∀ r ∈ s.regs, bitCount 0 s % 8 ≤ r.q.length) ∧
    ∃ m, m ≤ room - s.delivered ∧
      s.total.toNat + bitCount 0 s % 8 + 8 * m < 2 ^ 64 ∧
      (∀ r ∈ (aligned s).regs, 8 * m ≤ r.q.length) ∧
      (m < room - s.delivered → bitCount 0 (drained m (aligned s)) = 0) ∧
      ((¬ (s.delivered + m < room ∧ paddingBegun s = false) ∧
          finishBulk room (s.delivered + m) (drained m (aligned s)) = .next t) ∨
        (s.delivered + m < room ∧ paddingBegun s = false ∧ ¬ SourceReady s ∧
          ∃ ws, t = waiting (.readBytes room) (s.delivered + m) ws (drained m (aligned s))) ∨
        (s.delivered + m < room ∧ paddingBegun s = false ∧ SourceReady s ∧
          ∃ j, j = readCount s.params.srcFullRead (room - (s.delivered + m)) s.src ∧
            s.total.toNat + bitCount 0 s % 8 + 8 * m + 8 * j < 2 ^ 64 ∧
            finishBulk room (s.delivered + m + j)
              { dstWrite (nextBytes j s.src) (drained m (aligned s)) with
                src := sourceAfter j s.src
                total := (drained m (aligned s)).total + BitVec.ofNat 64 (8 * j) } = .next t)) := by
  unfold execReadBytes at h
  rcases runCommand_eq.mp h with h | h
  · obtain ⟨s1, h1, h2⟩ := flow_bind_ok.mp h
    obtain ⟨ht, rfl, hq⟩ := alignAll_ok h1
    obtain ⟨⟨m, s2⟩, h3, h4⟩ := flow_bind_ok.mp h2
    obtain ⟨rfl, hm, htm, hqm, hz⟩ := drainBytes_ok h3
    rw [consumed_total, total_add_toNat ht] at htm
    refine ⟨ht, hq, m, hm, htm, hqm, hz, ?_⟩
    dsimp only at h4
    split at h4
    · next hc =>
      obtain ⟨⟨bs, s3⟩, h5, h6⟩ := flow_bind_ok.mp h4
      obtain ⟨hr, hbs, rfl⟩ := srcRead_ok h5
      obtain ⟨s4, h7, h8⟩ := flow_bind_ok.mp h6
      obtain ⟨hj, rfl⟩ := addTotal_ok h7
      have hlen : bs.length =
          readCount s.params.srcFullRead (room - (s.delivered + m)) s.src := by
        rw [hbs]
        exact nextBytes_readCount_length _ _ _
      refine .inr (.inr ⟨hc.1, hc.2, hr, _, rfl, ?_, ?_⟩)
      · rw [hlen] at hj
        simp only [drained, dstWrite_total, consumed_total] at hj
        rw [total_add_toNat (by rw [total_add_toNat ht]; exact htm), total_add_toNat ht] at hj
        exact hj
      · rw [hlen] at h8
        rw [hbs] at h8
        exact Except.ok.inj h8
    · next hc => exact .inl ⟨hc, Except.ok.inj h4⟩
  · rcases flow_bind_error.mp h with h | ⟨s1, h1, h⟩
    · obtain ⟨f, hf⟩ := alignAll_error h
      cases hf
    obtain ⟨ht, rfl, hq⟩ := alignAll_ok h1
    rcases flow_bind_error.mp h with h | ⟨⟨m, s2⟩, h3, h⟩
    · obtain ⟨f, hf⟩ := drainBytes_error h
      cases hf
    obtain ⟨rfl, hm, htm, hqm, hz⟩ := drainBytes_ok h3
    rw [consumed_total, total_add_toNat ht] at htm
    dsimp only at h
    split at h
    · next hc =>
      rcases flow_bind_error.mp h with h | ⟨⟨bs, s3⟩, -, h⟩
      · obtain ⟨hr, ws, hw⟩ := srcRead_error h
        cases hw
        exact ⟨ht, hq, m, hm, htm, hqm, hz, .inr (.inl ⟨hc.1, hc.2, hr, ws, rfl⟩)⟩
      rcases flow_bind_error.mp h with h | ⟨s4, -, h⟩
      · cases addTotal_error h
      · cases h
    · cases h

/-- READBYTE (R99). -/
theorem execReadByte_next {s t : State} (h : execReadByte s = .next t) :
    s.total.toNat + bitCount 0 s % 8 < 2 ^ 64 ∧
    (∀ r ∈ s.regs, bitCount 0 s % 8 ≤ r.q.length) ∧
    ((0 < bitCount 0 (aligned s) ∧ CanDiscard 8 (aligned s) ∧
        s.total.toNat + bitCount 0 s % 8 + 8 < 2 ^ 64 ∧
        t = responded .ok (BitVec.ofNat 64 (frontValue 0 8 (aligned s))) (consumed 8 (aligned s))) ∨
      (bitCount 0 (aligned s) = 0 ∧ paddingBegun s = true ∧ t = responded .eos 0 (aligned s)) ∨
      (bitCount 0 (aligned s) = 0 ∧ paddingBegun s = false ∧ ¬ SourceReady s ∧
        ∃ ws, t = waiting .readByte 0 ws (aligned s)) ∨
      (bitCount 0 (aligned s) = 0 ∧ paddingBegun s = false ∧ SourceReady s ∧
        ∃ j, j = readCount s.params.srcFullRead 1 s.src ∧
          ((nextBytes j s.src = [] ∧
              t = responded .eos 0 { aligned s with src := sourceAfter j s.src }) ∨
            ∃ b bs, nextBytes j s.src = b :: bs ∧
              s.total.toNat + bitCount 0 s % 8 + 8 < 2 ^ 64 ∧
              t = responded .ok (b.setWidth 64)
                { aligned s with
                  src := sourceAfter j s.src
                  total := (aligned s).total + BitVec.ofNat 64 8 }))) := by
  unfold execReadByte at h
  rcases runCommand_eq.mp h with h | h
  · obtain ⟨s1, h1, h2⟩ := flow_bind_ok.mp h
    obtain ⟨ht, rfl, hq⟩ := alignAll_ok h1
    refine ⟨ht, hq, ?_⟩
    split at h2
    · next hb =>
      obtain ⟨⟨v, s2⟩, h3, h4⟩ := flow_bind_ok.mp h2
      obtain ⟨-, hd, ht8, rfl, rfl⟩ := drainByte_ok h3
      rw [consumed_total, total_add_toNat ht] at ht8
      cases h4
      exact .inl ⟨hb, hd, ht8, rfl⟩
    · next hb =>
      have hb0 : bitCount 0 (aligned s) = 0 := Nat.eq_zero_of_not_pos hb
      split at h2
      · next hp =>
        cases h2
        exact .inr (.inl ⟨hb0, hp, rfl⟩)
      · next hp =>
        have hp' : paddingBegun s = false := Bool.eq_false_iff.mpr hp
        obtain ⟨⟨bs, s2⟩, h3, h4⟩ := flow_bind_ok.mp h2
        obtain ⟨hr, hbs, rfl⟩ := srcRead_ok h3
        refine .inr (.inr (.inr ⟨hb0, hp', hr, _, rfl, ?_⟩))
        cases bs with
        | nil =>
          cases h4
          exact .inl ⟨hbs.symm, rfl⟩
        | cons b bs =>
          obtain ⟨s3, h5, h6⟩ := flow_bind_ok.mp h4
          obtain ⟨ht8, rfl⟩ := addTotal_ok h5
          simp only [consumed_total, total_add_toNat ht] at ht8
          cases h6
          exact .inr ⟨b, bs, hbs.symm, ht8, rfl⟩
  · rcases flow_bind_error.mp h with h | ⟨s1, h1, h⟩
    · obtain ⟨f, hf⟩ := alignAll_error h
      cases hf
    obtain ⟨ht, rfl, hq⟩ := alignAll_ok h1
    refine ⟨ht, hq, ?_⟩
    split at h
    · rcases flow_bind_error.mp h with h | ⟨⟨v, s2⟩, -, h⟩
      · obtain ⟨f, hf⟩ := drainByte_error h
        cases hf
      · cases h
    · next hb =>
      have hb0 : bitCount 0 (aligned s) = 0 := Nat.eq_zero_of_not_pos hb
      split at h
      · cases h
      · next hp =>
        have hp' : paddingBegun s = false := Bool.eq_false_iff.mpr hp
        rcases flow_bind_error.mp h with h | ⟨⟨bs, s2⟩, -, h⟩
        · obtain ⟨hr, ws, hw⟩ := srcRead_error h
          cases hw
          exact .inr (.inr (.inl ⟨hb0, hp', hr, ws, rfl⟩))
        · cases bs with
          | nil => cases h
          | cons b bs =>
            rcases flow_bind_error.mp h with h | ⟨s3, -, h⟩
            · cases addTotal_error h
            · cases h

/-- A register-port operation that answers a next state. -/
theorem onPort_next {i : Nat} {op : BitReg → Except Usage (BitVec 64 × BitReg)} {s t : State}
    (h : onPort i op s = .next t) :
    ∃ r, s.regs[i]? = some r ∧
      ((∃ v r', op r = .ok (v, r') ∧
          t = portResponded i .ok v { s with regs := s.regs.set i r' }) ∨
        ∃ u, op r = .error u ∧ t = portResponded i .usage (usageCode u) s) := by
  unfold onPort at h
  split at h
  · cases h
  · next r hr =>
    refine ⟨r, hr, ?_⟩
    split at h
    · next v r' ho =>
      cases h
      exact .inl ⟨v, r', ho, rfl⟩
    · next u ho =>
      cases h
      exact .inr ⟨u, ho, rfl⟩

theorem onPort_absent {i : Nat} {op : BitReg → Except Usage (BitVec 64 × BitReg)} {s : State}
    (h : s.regs.length ≤ i) : onPort i op s = .refused .noSuchRegisterPort := by
  simp [onPort, List.getElem?_eq_none h]

/-- READBYTES always ends with a response, `EOS` or `OK` (R98). -/
theorem finishBulk_eq (room n : Nat) (s : State) :
    finishBulk room n s =
      .next (answered (if n = 0 ∧ 0 < room then 3 else 0) (BitVec.ofNat 64 n) s) := by
  unfold finishBulk
  split
  · next h =>
    obtain ⟨rfl, -⟩ := h
    rfl
  · rfl

end Sys2Proof.Machine
end

