-- ==== Sys2Proof/Laws/Decode.lean ====
section
/-! SUPPORT. The fields of a word and the word of the fields (R63, R70), said once each way. -/

namespace Sys2Proof

/-- Appending puts the left word above the right one. -/
theorem append_toNat {m n : Nat} (x : BitVec m) (y : BitVec n) :
    (x ++ y).toNat = x.toNat * 2 ^ n + y.toNat := by
  rw [BitVec.toNat_append, ← Nat.shiftLeft_add_eq_or_of_lt y.isLt, Nat.shiftLeft_eq]

/-- A field is a quotient and a remainder (R9). -/
theorem extract_toNat {n : Nat} (x : BitVec n) (lo len : Nat) :
    (x.extractLsb' lo len).toNat = x.toNat / 2 ^ lo % 2 ^ len := by
  rw [BitVec.extractLsb'_toNat, Nat.shiftRight_eq_div_pow]

theorem commandWord_toNat (opc reg imm : Nat) :
    (commandWord opc reg imm).toNat =
      imm % 65536 * 65536 + reg % 256 * 256 + opc % 16 := by
  simp only [commandWord, append_toNat, BitVec.toNat_ofNat]
  omega

theorem opcOf_eq (w : CommandWord) : opcOf w = w.toNat % 16 := by
  simp [opcOf]

theorem rsvOf_eq (w : CommandWord) : rsvOf w = w.toNat / 16 % 16 :=
  extract_toNat _ _ _

theorem regOf_eq (w : CommandWord) : regOf w = w.toNat / 256 % 256 :=
  extract_toNat _ _ _

theorem immOf_eq (w : CommandWord) : immOf w = w.toNat / 65536 % 65536 :=
  extract_toNat _ _ _

theorem opcOf_commandWord {opc : Nat} (h : opc < 16) (reg imm : Nat) :
    opcOf (commandWord opc reg imm) = opc := by
  rw [opcOf_eq, commandWord_toNat]; omega

theorem rsvOf_commandWord (opc reg imm : Nat) : rsvOf (commandWord opc reg imm) = 0 := by
  rw [rsvOf_eq, commandWord_toNat]; omega

theorem regOf_commandWord {reg : Nat} (h : reg < 256) (opc imm : Nat) :
    regOf (commandWord opc reg imm) = reg := by
  rw [regOf_eq, commandWord_toNat]; omega

theorem immOf_commandWord {imm : Nat} (h : imm < 65536) (opc reg : Nat) :
    immOf (commandWord opc reg imm) = imm := by
  rw [immOf_eq, commandWord_toNat]; omega

/-- A word whose reserved field is 0 is the word of its other fields. -/
theorem commandWord_fields {w : CommandWord} (h : rsvOf w = 0) :
    commandWord (opcOf w) (regOf w) (immOf w) = w := by
  apply BitVec.eq_of_toNat_eq
  rw [rsvOf_eq] at h
  rw [commandWord_toNat, opcOf_eq, regOf_eq, immOf_eq]
  have := w.isLt
  omega

theorem regOf_lt (w : CommandWord) : regOf w < 256 := by rw [regOf_eq]; omega

theorem immOf_lt (w : CommandWord) : immOf w < 65536 := by rw [immOf_eq]; omega

theorem regPortWord_toNat (rop cnt : Nat) (data : Byte) :
    (regPortWord rop cnt data).toNat = data.toNat * 65536 + cnt % 256 * 256 + rop % 8 := by
  simp only [regPortWord, append_toNat, BitVec.toNat_ofNat]
  omega

theorem ropOf_eq (u : RegPortWord) : ropOf u = u.toNat % 8 := by simp [ropOf]

theorem rrsvOf_eq (u : RegPortWord) : rrsvOf u = u.toNat / 8 % 32 := extract_toNat _ _ _

theorem cntOf_eq (u : RegPortWord) : cntOf u = u.toNat / 256 % 256 := extract_toNat _ _ _

theorem dataOf_toNat (u : RegPortWord) : (dataOf u).toNat = u.toNat / 65536 % 256 :=
  extract_toNat _ _ _

theorem ropOf_regPortWord {rop : Nat} (h : rop < 8) (cnt : Nat) (data : Byte) :
    ropOf (regPortWord rop cnt data) = rop := by
  rw [ropOf_eq, regPortWord_toNat]; omega

theorem rrsvOf_regPortWord (rop cnt : Nat) (data : Byte) : rrsvOf (regPortWord rop cnt data) = 0 := by
  rw [rrsvOf_eq, regPortWord_toNat]; omega

theorem cntOf_regPortWord {cnt : Nat} (h : cnt < 256) (rop : Nat) (data : Byte) :
    cntOf (regPortWord rop cnt data) = cnt := by
  rw [cntOf_eq, regPortWord_toNat]; omega

theorem dataOf_regPortWord (rop cnt : Nat) (data : Byte) : dataOf (regPortWord rop cnt data) = data := by
  apply BitVec.eq_of_toNat_eq
  rw [dataOf_toNat, regPortWord_toNat]
  have := data.isLt
  omega

theorem regPortWord_fields {u : RegPortWord} (h : rrsvOf u = 0) :
    regPortWord (ropOf u) (cntOf u) (dataOf u) = u := by
  apply BitVec.eq_of_toNat_eq
  rw [rrsvOf_eq] at h
  rw [regPortWord_toNat, ropOf_eq, cntOf_eq, dataOf_toNat]
  have := u.isLt
  omega

theorem cntOf_lt (u : RegPortWord) : cntOf u < 256 := by rw [cntOf_eq]; omega

/-- The command check of the word alone, said once (R66). -/
theorem decodeCommand_ok {w : CommandWord} {i : Instr} :
    decodeCommand w = .ok i ↔
      commandOf (opcOf w) (regOf w) (immOf w) = some i ∧ rsvOf w = 0 ∧
        commandUnusedNonzero i (regOf w) (immOf w) = false := by
  unfold decodeCommand
  cases commandOf (opcOf w) (regOf w) (immOf w) with
  | none => simp
  | some j =>
    by_cases h0 : rsvOf w = 0
    · cases hu : commandUnusedNonzero j (regOf w) (immOf w)
      · simp only [h0, ne_eq, not_true_eq_false, if_false, hu, Bool.false_eq_true]
        constructor
        · intro h
          cases h
          exact ⟨rfl, trivial, hu⟩
        · rintro ⟨h, -, -⟩
          cases h
          rfl
      · simp only [h0, ne_eq, not_true_eq_false, if_false, hu, if_true]
        constructor
        · intro h
          cases h
        · rintro ⟨h, -, h'⟩
          cases h
          rw [hu] at h'
          cases h'
    · simp [h0]

/-- The register-port check, said once (R72). -/
theorem decodeRegPort_ok {port : Nat} {u : RegPortWord} {i : Instr} :
    decodeRegPort port u = .ok i ↔
      regOpOf port (ropOf u) (cntOf u) (dataOf u) = some i ∧ rrsvOf u = 0 ∧
        regOpUnusedNonzero i (cntOf u) (dataOf u) = false := by
  unfold decodeRegPort
  cases regOpOf port (ropOf u) (cntOf u) (dataOf u) with
  | none => simp
  | some j =>
    by_cases h0 : rrsvOf u = 0
    · cases hu : regOpUnusedNonzero j (cntOf u) (dataOf u)
      · simp only [h0, ne_eq, not_true_eq_false, if_false, hu, Bool.false_eq_true]
        constructor
        · intro h
          cases h
          exact ⟨rfl, trivial, hu⟩
        · rintro ⟨h, -, -⟩
          cases h
          rfl
      · simp only [h0, ne_eq, not_true_eq_false, if_false, hu, if_true]
        constructor
        · intro h
          cases h
        · rintro ⟨h, -, h'⟩
          cases h
          rw [hu] at h'
          cases h'
    · simp [h0]

end Sys2Proof
end

