-- ==== Sys2Proof/Laws/Invariant.lean ====
section
/-! SUPPORT. The invariants of Safety.lean under the operations that change the registers: a feed, a discard,
a clear. -/

namespace Sys2Proof.Machine

theorem legal_regs_pos {s : State} (h : s.config.Legal) : 0 < s.regs.length := h.1

theorem legal_tb {s : State} (h : s.config.Legal) : s.params.tb.length ≤ 65535 := h.2.2.2.2.2

theorem legal_cap {s : State} (h : s.config.Legal) :
    s.params.maxReq + 7 ≤ s.params.cap ∧ s.params.cap ≤ 64 := ⟨h.2.2.2.1, h.2.2.2.2.1⟩

theorem legal_congr {s t : State} (h : s.regs.map (·.order) = t.regs.map (·.order))
    (hp : s.params = t.params) (hl : s.config.Legal) : t.config.Legal := config_congr h hp ▸ hl

/-- Register 0's bit count is the length of a queue that is there. -/
theorem bitCount_mem {s : State} (h : 0 < s.regs.length) :
    ∃ r ∈ s.regs, bitCount 0 s = r.q.length :=
  ⟨s.regs[0], List.getElem_mem h, by simp [bitCount, List.getElem?_eq_getElem h]⟩

theorem bitCount_le_bound {s : State} (h : 0 < s.regs.length) (hb : DecoderBound s) :
    bitCount 0 s ≤ s.params.maxReq + 7 := by
  obtain ⟨r, hr, he⟩ := bitCount_mem h
  rw [he]
  exact hb r hr

/-- R87: the bytes PEEK or DECODE needs fit in every register. -/
theorem fits_needBytes {s : State} {count : Nat} (hL : s.config.Legal) (hl : Lockstep s)
    (hb : DecoderBound s) (hc : count ≤ s.params.maxReq) : FitsByte s (needBytes count s) := by
  intro r hr
  have h1 := (needBytes_spec count s).2
  have h2 := bitCount_le_bound (legal_regs_pos hL) hb
  have h3 := legal_cap hL
  rw [hl r hr]
  by_cases h : count ≤ bitCount 0 s
  · rw [needBytes_eq_zero.mpr h]
    omega
  · omega

theorem lockstep_fed {s t : State} {bs : List Byte} (h0 : 0 < s.regs.length) (hl : Lockstep s)
    (h : t.regs = s.regs.map (fedReg bs)) : Lockstep t := by
  intro r hr
  rw [bitCount_fed bs 0 h0 h]
  rw [h] at hr
  obtain ⟨r0, hr0, rfl⟩ := List.mem_map.mp hr
  rw [fedReg_q_length, hl r0 hr0]

/-- The bit count after the feed of PEEK or DECODE. -/
theorem bitCount_fedState {s : State} (h0 : 0 < s.regs.length) (count : Nat) :
    bitCount 0 (fedState count s) = bitCount 0 s + 8 * (supply count s).length :=
  bitCount_fed (supply count s) 0 h0 rfl

/-- R87's lower bound: a feed that was enough leaves at least `count` bits. -/
theorem count_le_fedState {s : State} {count : Nat} (h0 : 0 < s.regs.length)
    (h : (supply count s).length = needBytes count s) : count ≤ bitCount 0 (fedState count s) := by
  rw [bitCount_fedState h0, h]
  exact (needBytes_spec count s).1

/-- R87's upper bound. -/
theorem fedState_le {s : State} (h0 : 0 < s.regs.length) (count : Nat) :
    bitCount 0 (fedState count s) ≤ max (bitCount 0 s) (count + 7) := by
  rw [bitCount_fedState h0]
  have h1 := (needBytes_spec count s).2
  have h2 := supply_length_le count s
  by_cases h : count ≤ bitCount 0 s
  · rw [needBytes_eq_zero.mpr h] at h2
    omega
  · omega

/-- A feed that was too short leaves fewer than `count` bits (R87). -/
theorem fedState_lt {s : State} {count : Nat} (h0 : 0 < s.regs.length)
    (h : (supply count s).length < needBytes count s) : bitCount 0 (fedState count s) < count := by
  rw [bitCount_fedState h0]
  have h1 := (needBytes_spec count s).2
  have h2 : ¬ count ≤ bitCount 0 s := fun hc => by
    rw [needBytes_eq_zero.mpr hc] at h
    omega
  omega

/-- A list in lockstep within a bound on register 0 is within it everywhere. -/
theorem decoderBound_of_lockstep {s : State} (hl : Lockstep s)
    (hb : bitCount 0 s ≤ s.params.maxReq + 7) : DecoderBound s := fun r hr => by rw [hl r hr]; exact hb

theorem decoderBound_discarded {s t : State} {n : Nat} (hb : DecoderBound s)
    (h : t.regs = discardedRegs n s) (hp : t.params = s.params) : DecoderBound t := by
  intro r hr
  rw [h] at hr
  obtain ⟨r0, hr0, rfl⟩ := List.mem_map.mp hr
  have := hb r0 hr0
  simp only [List.length_drop, hp]
  omega

theorem capacityBound_of_decoderBound {s : State} (hL : s.config.Legal) (hb : DecoderBound s) :
    CapacityBound s := fun r hr => le_trans (hb r hr) (legal_cap hL).1

/-! ### Content (R23) -/

theorem lockstep_of_content {s : State} (hc : Content s) : Lockstep s := by
  obtain ⟨fed, n, -, hq⟩ := hc
  have hlen : ∀ r ∈ s.regs, r.q.length = 8 * fed.length - n := fun r hr => by
    rw [hq r hr, List.length_drop, expandAll_length]
  intro r hr
  obtain ⟨r0, hr0, he⟩ := bitCount_mem (List.length_pos_of_mem hr)
  rw [he, hlen r hr, hlen r0 hr0]

theorem content_congr {s t : State} (hc : Content s) (h : t.regs = s.regs) : Content t := by
  obtain ⟨fed, n, hn, hq⟩ := hc
  exact ⟨fed, n, hn, fun r hr => hq r (h ▸ hr)⟩

theorem content_fed {s t : State} {bs : List Byte} (hc : Content s)
    (h : t.regs = s.regs.map (fedReg bs)) : Content t := by
  obtain ⟨fed, n, hn, hq⟩ := hc
  refine ⟨fed ++ bs, n, by rw [List.length_append]; omega, fun r hr => ?_⟩
  rw [h] at hr
  obtain ⟨r0, hr0, rfl⟩ := List.mem_map.mp hr
  rw [fedReg_q, fedReg_order, hq r0 hr0, List.flatMap_append,
    List.drop_append_of_le_length (by rw [expandAll_length]; exact hn)]

theorem content_discarded {s t : State} {n : Nat} (hc : Content s)
    (hn : ∀ r ∈ s.regs, n ≤ r.q.length) (h : t.regs = discardedRegs n s) : Content t := by
  obtain ⟨fed, m, hm, hq⟩ := hc
  rcases hs : s.regs with _ | ⟨r0, rs⟩
  · refine ⟨[], 0, by simp, fun r hr => ?_⟩
    simp [h, discardedRegs, hs] at hr
  · have h0 := hn r0 (by simp [hs])
    rw [hq r0 (by simp [hs]), List.length_drop, expandAll_length] at h0
    refine ⟨fed, m + n, by omega, fun r hr => ?_⟩
    rw [h] at hr
    obtain ⟨r1, hr1, rfl⟩ := List.mem_map.mp hr
    dsimp only
    rw [hq r1 hr1, List.drop_drop]

theorem content_cleared {s t : State} (h : t.regs = s.regs.map regClear) : Content t := by
  refine ⟨[], 0, by simp, fun r hr => ?_⟩
  rw [h] at hr
  obtain ⟨r0, -, rfl⟩ := List.mem_map.mp hr
  simp

/-! ### The cursor (R29) -/

/-- The cursor moves by the trailing bytes fed, and stays within `T`. -/
theorem fedState_cur_toNat {s : State} (hT : s.params.tb.length ≤ 65535) (hc : CursorBound s)
    (count : Nat) :
    (fedState count s).cur.toNat = s.cur.toNat + (trailingSupply count s).length ∧
      s.cur.toNat + (trailingSupply count s).length ≤ s.params.tb.length := by
  have hle : s.cur.toNat + (trailingSupply count s).length ≤ s.params.tb.length := by
    have : s.cur.toNat ≤ s.params.tb.length := hc
    simp only [trailingSupply, List.length_take, List.length_drop]
    omega
  refine ⟨?_, hle⟩
  rw [fedState_cur, BitVec.toNat_add, BitVec.toNat_ofNat,
    Nat.mod_eq_of_lt (a := (trailingSupply count s).length) (by omega)]
  exact Nat.mod_eq_of_lt (by omega)

theorem fedState_orders (count : Nat) (s : State) :
    (fedState count s).regs.map (·.order) = s.regs.map (·.order) := by
  simp [Function.comp_def]

theorem discardedRegs_orders (n : Nat) (s : State) :
    (discardedRegs n s).map (·.order) = s.regs.map (·.order) := by
  simp [discardedRegs, Function.comp_def]

end Sys2Proof.Machine
end

