-- ==== Sys2Proof/Laws/PerInstr.lean ====
section
/-! SUPPORT. The family of statements about every instruction as syntax: an instruction the decoder answers
is well formed, and it stands on the kind of port its word came from. -/

namespace Sys2Proof.Laws.DecodedWellFormed

/-- What the decoder answers is well formed (R64, R70), and a command comes from the command port only. -/
def Statement (i : Instr) : Prop :=
  ∀ w, decode w = .ok i →
    i.wellFormed = true ∧ (i.isCommand = true ↔ ∃ c, w = .command c)

/-- The instructions of the command port. -/
theorem of_command {i : Instr} {w : CommandWord} (h : decodeCommand w = .ok i) :
    i.wellFormed = true ∧ i.isCommand = true := by
  obtain ⟨h, -, -⟩ := decodeCommand_ok.mp h
  have hr := regOf_lt w
  have hi := immOf_lt w
  unfold commandOf at h
  split at h <;> cases h <;> simp [Instr.wellFormed, Instr.isCommand, hr, hi]

/-- The operations of a register port. -/
theorem of_regPort {i : Instr} {port : Nat} {u : RegPortWord} (h : decodeRegPort port u = .ok i) :
    i.wellFormed = true ∧ i.isCommand = false := by
  obtain ⟨h, -, -⟩ := decodeRegPort_ok.mp h
  have hc := cntOf_lt u
  unfold regOpOf at h
  split at h <;> cases h <;> simp [Instr.wellFormed, Instr.isCommand, hc]

/-- Every instruction, by the port its word came from. -/
theorem of_decode (i : Instr) : Statement i := by
  intro w h
  cases w with
  | command w =>
    obtain ⟨h1, h2⟩ := of_command h
    exact ⟨h1, fun _ => ⟨w, rfl⟩, fun _ => h2⟩
  | regPort port u =>
    obtain ⟨h1, h2⟩ := of_regPort h
    exact ⟨h1, fun h => by simp [h2] at h, fun ⟨c, hc⟩ => by cases hc⟩

theorem peek (reg count : Nat) : Statement (.peek reg count) := of_decode _
theorem decode (reg count : Nat) : Statement (.decode reg count) := of_decode _
theorem align : Statement .align := of_decode _
theorem readBytes (room : Nat) : Statement (.readBytes room) := of_decode _
theorem readByte : Statement .readByte := of_decode _
theorem totalIn : Statement .totalIn := of_decode _
theorem clear : Statement .clear := of_decode _
theorem reset : Statement .reset := of_decode _
theorem rFeed (port : Nat) (data : Byte) : Statement (.rFeed port data) := of_decode _
theorem rPeek (port count : Nat) : Statement (.rPeek port count) := of_decode _
theorem rDiscard (port count : Nat) : Statement (.rDiscard port count) := of_decode _
theorem rCount (port : Nat) : Statement (.rCount port) := of_decode _
theorem rClear (port : Nat) : Statement (.rClear port) := of_decode _

end Sys2Proof.Laws.DecodedWellFormed
end

