-- ==== Sys2Proof/Laws/Step.lean ====
section
/-! SUPPORT. What `exec` and `step` can do when they answer a next state, each said once for all
instructions. -/

namespace Sys2Proof.Machine

/-- The state after READBYTES aligned, drained `m` bytes and read `j` bytes directly (R98). -/
def bulkRead (m j : Nat) (s : State) : State :=
  { dstWrite (nextBytes j s.src) (drained m (aligned s)) with
    src := sourceAfter j s.src
    total := (drained m (aligned s)).total + BitVec.ofNat 64 (8 * j) }

/-- Every next state an instruction can lead to. -/
inductive Effect (s : State) : Instr → State → Prop where
  | peekUsage (reg count : Nat) (u : Usage) :
      Effect s (.peek reg count) (responded .usage (usageCode u) s)
  | decodeUsage (reg count : Nat) (u : Usage) :
      Effect s (.decode reg count) (responded .usage (usageCode u) s)
  | peekStops (reg count : Nat) (t : State) (hr : reg < s.regs.length) (hc : count ≤ s.params.maxReq)
      (h : FeedStops (.peek reg count) count s t) : Effect s (.peek reg count) t
  | decodeStops (reg count : Nat) (t : State) (hr : reg < s.regs.length) (hc : count ≤ s.params.maxReq)
      (h : FeedStops (.decode reg count) count s t) : Effect s (.decode reg count) t
  | peekOk (reg count : Nat) (hr : reg < s.regs.length) (hc : count ≤ s.params.maxReq)
      (hl : (supply count s).length = needBytes count s) (hw : noRead count s = true ∨ SourceReady s) :
      Effect s (.peek reg count)
        (responded .ok (BitVec.ofNat 64 (frontValue reg count (fedState count s))) (fedState count s))
  | decodeOk (reg count : Nat) (hr : reg < s.regs.length) (hc : count ≤ s.params.maxReq)
      (hl : (supply count s).length = needBytes count s) (hw : noRead count s = true ∨ SourceReady s)
      (ht : s.total.toNat + count < 2 ^ 64) (hd : CanDiscard count (fedState count s)) :
      Effect s (.decode reg count)
        (responded .ok (BitVec.ofNat 64 (frontValue reg count (fedState count s)))
          (consumed count (fedState count s)))
  | align (ht : s.total.toNat + bitCount 0 s % 8 < 2 ^ 64)
      (hq : ∀ r ∈ s.regs, bitCount 0 s % 8 ≤ r.q.length) :
      Effect s .align (responded .ok 0 (aligned s))
  | bulkBuffered (room m : Nat) (st : Status) (v : BitVec 64)
      (hq : ∀ r ∈ s.regs, bitCount 0 s % 8 ≤ r.q.length)
      (hqm : ∀ r ∈ (aligned s).regs, 8 * m ≤ r.q.length) (hm : m ≤ room - s.delivered)
      (ht : s.total.toNat + bitCount 0 s % 8 + 8 * m < 2 ^ 64)
      (hst : (st = .eos ∧ v = 0) ∨ (st = .ok ∧ v = BitVec.ofNat 64 (s.delivered + m))) :
      Effect s (.readBytes room) (responded st v (drained m (aligned s)))
  | bulkWaits (room m : Nat) (ws : List Wait)
      (hq : ∀ r ∈ s.regs, bitCount 0 s % 8 ≤ r.q.length)
      (hqm : ∀ r ∈ (aligned s).regs, 8 * m ≤ r.q.length) (hm : s.delivered + m < room)
      (hz : bitCount 0 (drained m (aligned s)) = 0)
      (ht : s.total.toNat + bitCount 0 s % 8 + 8 * m < 2 ^ 64) (hp : paddingBegun s = false)
      (hr : ¬ SourceReady s) :
      Effect s (.readBytes room) (waiting (.readBytes room) (s.delivered + m) ws (drained m (aligned s)))
  | bulkDirect (room m j : Nat) (st : Status) (v : BitVec 64)
      (hq : ∀ r ∈ s.regs, bitCount 0 s % 8 ≤ r.q.length)
      (hqm : ∀ r ∈ (aligned s).regs, 8 * m ≤ r.q.length) (hm : s.delivered + m < room)
      (hz : bitCount 0 (drained m (aligned s)) = 0)
      (ht : s.total.toNat + bitCount 0 s % 8 + 8 * m + 8 * j < 2 ^ 64) (hp : paddingBegun s = false)
      (hr : SourceReady s) (hj : j = readCount s.params.srcFullRead (room - (s.delivered + m)) s.src)
      (hst : (st = .eos ∧ v = 0) ∨ (st = .ok ∧ v = BitVec.ofNat 64 (s.delivered + m + j))) :
      Effect s (.readBytes room) (responded st v (bulkRead m j s))
  | byteBuffered (hq : ∀ r ∈ s.regs, bitCount 0 s % 8 ≤ r.q.length) (hd : CanDiscard 8 (aligned s))
      (ht : s.total.toNat + bitCount 0 s % 8 + 8 < 2 ^ 64) :
      Effect s .readByte
        (responded .ok (BitVec.ofNat 64 (frontValue 0 8 (aligned s))) (consumed 8 (aligned s)))
  | byteEnd (hq : ∀ r ∈ s.regs, bitCount 0 s % 8 ≤ r.q.length)
      (ht : s.total.toNat + bitCount 0 s % 8 < 2 ^ 64) (hp : paddingBegun s = true) :
      Effect s .readByte (responded .eos 0 (aligned s))
  | byteWaits (ws : List Wait) (hq : ∀ r ∈ s.regs, bitCount 0 s % 8 ≤ r.q.length)
      (hz : bitCount 0 (aligned s) = 0) (ht : s.total.toNat + bitCount 0 s % 8 < 2 ^ 64)
      (hp : paddingBegun s = false) (hr : ¬ SourceReady s) :
      Effect s .readByte (waiting .readByte 0 ws (aligned s))
  | byteNone (j : Nat) (hq : ∀ r ∈ s.regs, bitCount 0 s % 8 ≤ r.q.length)
      (hz : bitCount 0 (aligned s) = 0) (ht : s.total.toNat + bitCount 0 s % 8 < 2 ^ 64)
      (hp : paddingBegun s = false) (hr : SourceReady s)
      (hj : j = readCount s.params.srcFullRead 1 s.src) (hb : nextBytes j s.src = []) :
      Effect s .readByte (responded .eos 0 { aligned s with src := sourceAfter j s.src })
  | byteDirect (j : Nat) (b : Byte) (bs : List Byte) (hq : ∀ r ∈ s.regs, bitCount 0 s % 8 ≤ r.q.length)
      (hz : bitCount 0 (aligned s) = 0) (ht : s.total.toNat + bitCount 0 s % 8 + 8 < 2 ^ 64)
      (hp : paddingBegun s = false) (hr : SourceReady s)
      (hj : j = readCount s.params.srcFullRead 1 s.src) (hb : nextBytes j s.src = b :: bs) :
      Effect s .readByte (responded .ok (b.setWidth 64)
        { aligned s with
          src := sourceAfter j s.src
          total := (aligned s).total + BitVec.ofNat 64 8 })
  | totalIn : Effect s .totalIn (responded .ok (BitVec.ofNat 64 (totalInValue s)) s)
  | clear : Effect s .clear (responded .ok 0 (clearAll s))
  | reset : Effect s .reset (responded .ok 0 { clearAll s with cur := 0, total := 0 })
  | port (i : Instr) (p : Nat) (st : Status) (v : BitVec 64) (r r' : BitReg) (hi : i.isCommand = false)
      (hr : s.regs[p]? = some r) (ho : r'.order = r.order)
      (hq : r.q.length ≤ s.params.cap → r'.q.length ≤ s.params.cap)
      (hst : st = .ok ∨ st = .usage) :
      Effect s i (portResponded p st v { s with regs := s.regs.set p r' })

/-- A register-port operation has the shape of `Effect.port`, if what it does to the register keeps the order
and the capacity. -/
theorem effect_of_onPort {i : Instr} {p : Nat} {op : BitReg → Except Usage (BitVec 64 × BitReg)}
    {s t : State} (hi : i.isCommand = false)
    (hop : ∀ r v r', op r = .ok (v, r') → r'.order = r.order ∧
      (r.q.length ≤ s.params.cap → r'.q.length ≤ s.params.cap))
    (h : onPort p op s = .next t) : Effect s i t := by
  obtain ⟨r, hr, ⟨v, r', ho, rfl⟩ | ⟨u, -, rfl⟩⟩ := onPort_next h
  · exact .port i p .ok v r r' hi hr (hop r v r' ho).1 (hop r v r' ho).2 (.inl rfl)
  · have he : s = { s with regs := s.regs.set p r } := by
      obtain ⟨hl, he⟩ := List.getElem?_eq_some_iff.mp hr
      rw [← he, List.set_getElem_self]
    have := Effect.port (s := s) i p .usage (usageCode u) r r hi hr rfl id (.inr rfl)
    rw [← he] at this
    exact this

theorem finishBulk_next {room n : Nat} {s t : State} (h : finishBulk room n s = .next t) :
    ∃ st v, t = responded st v s ∧ ((st = .eos ∧ v = 0) ∨ (st = .ok ∧ v = BitVec.ofNat 64 n)) := by
  rw [finishBulk_eq_next] at h
  split at h
  · exact ⟨_, _, h, .inl ⟨rfl, rfl⟩⟩
  · exact ⟨_, _, h, .inr ⟨rfl, rfl⟩⟩

/-- What every instruction can do, said once. -/
theorem exec_next {i : Instr} {s t : State} (hT : s.params.tb.length ≤ 65535)
    (h : exec i s = .next t) : Effect s i t := by
  cases i with
  | peek reg count =>
    rcases execPeek_next hT h with ⟨u, -, rfl⟩ | ⟨hc, h | ⟨hl, hw, rfl⟩⟩
    · exact .peekUsage reg count u
    · obtain ⟨h1, h2⟩ := bitCommandCheck_eq_none.mp hc
      exact .peekStops reg count t h1 h2 h
    · obtain ⟨h1, h2⟩ := bitCommandCheck_eq_none.mp hc
      exact .peekOk reg count h1 h2 hl hw
  | decode reg count =>
    rcases execDecode_next hT h with ⟨u, -, rfl⟩ | ⟨hc, h | ⟨hl, hw, ht, hd, rfl⟩⟩
    · exact .decodeUsage reg count u
    · obtain ⟨h1, h2⟩ := bitCommandCheck_eq_none.mp hc
      exact .decodeStops reg count t h1 h2 h
    · obtain ⟨h1, h2⟩ := bitCommandCheck_eq_none.mp hc
      exact .decodeOk reg count h1 h2 hl hw ht hd
  | align =>
    obtain ⟨ht, rfl, hq⟩ := execAlign_next h
    exact .align ht hq
  | readBytes room =>
    obtain ⟨-, hq, m, hm, ht, hqm, hz, ⟨-, h⟩ |
      ⟨hlt, hp, hr, ws, rfl⟩ | ⟨hlt, hp, hr, j, hj, htj, h⟩⟩ :=
      execReadBytes_next h
    · obtain ⟨st, v, rfl, hst⟩ := finishBulk_next h
      exact .bulkBuffered room m st v hq hqm hm ht hst
    · exact .bulkWaits room m ws hq hqm hlt (hz (by omega)) ht hp hr
    · obtain ⟨st, v, rfl, hst⟩ := finishBulk_next h
      exact .bulkDirect room m j st v hq hqm hlt (hz (by omega)) htj hp hr hj hst
  | readByte =>
    obtain ⟨ht, hq, ⟨-, hd, ht8, rfl⟩ | ⟨-, hp, rfl⟩ | ⟨hz, hp, hr, ws, rfl⟩ |
      ⟨hz, hp, hr, j, hj, ⟨hb, rfl⟩ | ⟨b, bs, hb, ht8, rfl⟩⟩⟩ := execReadByte_next h
    · exact .byteBuffered hq hd ht8
    · exact .byteEnd hq ht hp
    · exact .byteWaits ws hq hz ht hp hr
    · exact .byteNone j hq hz ht hp hr hj hb
    · exact .byteDirect j b bs hq hz ht8 hp hr hj hb
  | totalIn =>
    obtain rfl := respond_eq_next.mp h
    exact .totalIn
  | clear =>
    obtain rfl := respond_eq_next.mp h
    exact .clear
  | reset =>
    obtain rfl := respond_eq_next.mp h
    exact .reset
  | rFeed p b =>
    refine effect_of_onPort rfl (fun r v r' ho => ?_) h
    by_cases hf : r.q.length + 8 ≤ s.params.cap
    · rw [regFeed_of_fits b hf] at ho
      cases ho
      exact ⟨rfl, fun _ => by rw [fedReg_q_length]; simpa using hf⟩
    · rw [regFeed_of_not_fits b (by omega)] at ho
      cases ho
  | rPeek p n =>
    refine effect_of_onPort rfl (fun r v r' ho => ?_) h
    cases hv : regPeek s.params.cap n r with
    | error u =>
      rw [hv] at ho
      cases ho
    | ok x =>
      rw [hv] at ho
      cases ho
      exact ⟨rfl, id⟩
  | rDiscard p n =>
    refine effect_of_onPort rfl (fun r v r' ho => ?_) h
    by_cases hd : n ≤ s.params.cap ∧ n ≤ r.q.length
    · rw [regDiscard_of_le hd.1 hd.2] at ho
      cases ho
      exact ⟨rfl, fun h => by simp only [List.length_drop]; omega⟩
    · have : ∃ u, regDiscard s.params.cap n r = .error u := by
        unfold regDiscard
        split
        · exact ⟨_, rfl⟩
        · split
          · exact ⟨_, rfl⟩
          · exact absurd ⟨by omega, by omega⟩ hd
      obtain ⟨u, hu⟩ := this
      rw [hu] at ho
      cases ho
  | rCount p =>
    simp only [exec, execRCount] at h
    refine effect_of_onPort rfl (fun r v r' ho => ?_) h
    cases ho
    exact ⟨rfl, id⟩
  | rClear p =>
    simp only [exec, execRClear] at h
    refine effect_of_onPort rfl (fun r v r' ho => ?_) h
    cases ho
    exact ⟨rfl, fun _ => Nat.zero_le _⟩

/-- A step at a free port takes the next word (R61). -/
theorem step_accept {s : State} {w : PortWord} {rest : List PortWord} (hL : s.config.Legal)
    (hb : s.busy = false) (hw : s.words = w :: rest) :
    step s = match decode w with
      | .ok i => exec i (acceptWord w rest s)
      | .error e => rejectWord w e (acceptWord w rest s) := by
  cases hd : decode w <;> simp only [step, if_pos hL, hb, hw, hd]

/-- A word the decoder rejects is answered, or refused at a port that is not there. -/
theorem rejectWord_next {w : PortWord} {e : DecodeError} {s t : State}
    (h : rejectWord w e s = .next t) :
    (∃ c, w = .command c ∧ t = responded .usage (usageCode (Machine.decodeUsage e)) s) ∨
      ∃ p u, w = .regPort p u ∧ t = portResponded p .usage (usageCode (Machine.decodeUsage e)) s := by
  cases w with
  | command c => exact .inl ⟨c, rfl, raiseUsage_eq_next.mp h⟩
  | regPort p u =>
    simp only [rejectWord] at h
    obtain ⟨r, -, ⟨v, r', ho, -⟩ | ⟨u', ho, rfl⟩⟩ := onPort_next h
    · cases ho
    · cases ho
      exact .inr ⟨p, u, rfl, rfl⟩

/-- What a step can do when it answers a next state, said once. -/
inductive Moves (s t : State) : Prop where
  | resumes (i : Instr) (hb : s.busy = true) (hi : s.inFlight = some i) (h : exec i s = .next t)
  | stuck (hb : s.busy = true) (hi : s.inFlight = none) (h : t = s)
  | idles (hb : s.busy = false) (hw : s.words = []) (h : t = s)
  | runs (w : PortWord) (rest : List PortWord) (i : Instr) (hb : s.busy = false) (hw : s.words = w :: rest)
      (hd : decode w = .ok i) (h : exec i (acceptWord w rest s) = .next t)
  | rejects (w : PortWord) (rest : List PortWord) (e : DecodeError) (hb : s.busy = false)
      (hw : s.words = w :: rest) (hd : decode w = .error e)
      (h : rejectWord w e (acceptWord w rest s) = .next t)

theorem step_next {s t : State} (h : step s = .next t) : s.config.Legal ∧ Moves s t := by
  by_cases hL : s.config.Legal
  · refine ⟨hL, ?_⟩
    cases hb : s.busy with
    | true =>
      cases hi : s.inFlight with
      | none =>
        unfold step at h
        rw [if_pos hL, hb, hi] at h
        cases h
        exact .stuck hb hi rfl
      | some i =>
        unfold step at h
        rw [if_pos hL, hb, hi] at h
        exact .resumes i hb hi h
    | false =>
      cases hw : s.words with
      | nil =>
        unfold step at h
        rw [if_pos hL, hb, hw] at h
        cases h
        exact .idles hb hw rfl
      | cons w rest =>
        rw [step_accept hL hb hw] at h
        cases hd : decode w with
        | ok i =>
          rw [hd] at h
          exact .runs w rest i hb hw hd h
        | error e =>
          rw [hd] at h
          exact .rejects w rest e hb hw hd h
  · unfold step at h
    rw [if_neg hL] at h
    cases h

/-- One step of a run that goes on. -/
theorem run_succ_of_next {k : Nat} {s t : State} (h : step s = .next t) :
    Host.Core.run Sys2Proof.core (k + 1) s = Host.Core.run Sys2Proof.core k t := by
  have gen : ∀ (M : Host.Core) (a b : M.State), M.step a = .next b → M.run (k + 1) a = M.run k b :=
    fun M a b hab => by simp only [Host.Core.run, hab]
  exact gen Sys2Proof.core s t h

/-- Taking a word changes neither the registers nor anything else the commands work on. -/
@[simp] theorem acceptWord_regs (w : PortWord) (rest : List PortWord) (s : State) :
    (acceptWord w rest s).regs = s.regs := by cases w <;> rfl
@[simp] theorem acceptWord_cur (w : PortWord) (rest : List PortWord) (s : State) :
    (acceptWord w rest s).cur = s.cur := by cases w <;> rfl
@[simp] theorem acceptWord_total (w : PortWord) (rest : List PortWord) (s : State) :
    (acceptWord w rest s).total = s.total := by cases w <;> rfl
@[simp] theorem acceptWord_params (w : PortWord) (rest : List PortWord) (s : State) :
    (acceptWord w rest s).params = s.params := by cases w <;> rfl
@[simp] theorem acceptWord_words (w : PortWord) (rest : List PortWord) (s : State) :
    (acceptWord w rest s).words = rest := by cases w <;> rfl
@[simp] theorem acceptWord_src (w : PortWord) (rest : List PortWord) (s : State) :
    (acceptWord w rest s).src = s.src := by cases w <;> rfl
@[simp] theorem acceptWord_dst (w : PortWord) (rest : List PortWord) (s : State) :
    (acceptWord w rest s).dst = s.dst := by cases w <;> rfl
@[simp] theorem acceptWord_resps (w : PortWord) (rest : List PortWord) (s : State) :
    (acceptWord w rest s).resps = s.resps := by cases w <;> rfl
@[simp] theorem acceptWord_inFlight (w : PortWord) (rest : List PortWord) (s : State) :
    (acceptWord w rest s).inFlight = s.inFlight := by cases w <;> rfl
@[simp] theorem acceptWord_delivered (w : PortWord) (rest : List PortWord) (s : State) :
    (acceptWord w rest s).delivered = s.delivered := by cases w <;> rfl

end Sys2Proof.Machine
end

