-- ==== Sys2Proof/Laws/Stream.lean ====
section
/-! SUPPORT. The stream ahead of a block with a full-read source (R54, R94): the coming bytes are prefixes of one
another, and a feed takes them in order. -/

namespace Sys2Proof.Machine

/-- The next `j` coming bytes are the first of the next `k`. -/
theorem comingBytes_take {j k : Nat} (h : j ≤ k) (s : State) : (comingBytes k s).take j = comingBytes j s := by
  unfold comingBytes
  rw [List.take_take, Nat.min_eq_left h]
  split
  · rfl
  · have hlen : j - sourceReach k s.src = j - sourceReach j s.src := by
      obtain ⟨m, rfl⟩ := Nat.exists_eq_add_of_le h
      have hadd := congrArg List.length (nextBytes_add j m s.src)
      rw [List.length_append, nextBytes_length, nextBytes_length] at hadd
      by_cases hj : sourceReach j s.src < j
      · rw [nextBytes_exhausted hj] at hadd
        exact congrArg (j - ·) hadd
      · omega
    rw [List.take_append, List.take_append, nextBytes_take h, nextBytes_take (Nat.le_refl j), nextBytes_length,
      nextBytes_length, hlen]

theorem comingBytes_length_le (n : Nat) (s : State) : (comingBytes n s).length ≤ n := by
  unfold comingBytes
  exact List.length_take_le _ _

/-- Where fewer bytes are coming than asked for, no more are. -/
theorem comingBytes_exhausted {j : Nat} {s : State} (h : (comingBytes j s).length < j) (k : Nat) :
    comingBytes (j + k) s = comingBytes j s := by
  have h1 := comingBytes_take (Nat.le_add_right j k) s
  rcases Nat.lt_or_ge j (comingBytes (j + k) s).length with hl | hl
  · rw [← h1, List.length_take] at h
    omega
  · rw [← h1, List.take_of_length_le hl]

/-- No request finds more than one that ran short. -/
theorem comingBytes_length_short {j : Nat} {s : State} (h : (comingBytes j s).length < j) (k : Nat) :
    (comingBytes k s).length ≤ (comingBytes j s).length := by
  rcases Nat.le_total k j with hk | hk
  · rw [← comingBytes_take hk s]
    exact List.length_take_le' _ _
  · obtain ⟨m, rfl⟩ := Nat.exists_eq_add_of_le hk
    rw [comingBytes_exhausted h]

/-- `count` bits can be supplied exactly where the feed of `count` bits finds the bytes it needs (R94). -/
theorem canSupply_iff (count : Nat) (s : State) :
    CanSupply count s ↔ (comingBytes (needBytes count s) s).length = needBytes count s := by
  obtain ⟨h1, h2⟩ := needBytes_spec count s
  have hle := comingBytes_length_le (needBytes count s) s
  unfold CanSupply
  constructor
  · intro h
    by_contra hne
    have hlt : (comingBytes (needBytes count s) s).length < needBytes count s := by omega
    have := comingBytes_length_short hlt count
    omega
  · intro h
    have hn : needBytes count s ≤ count := by omega
    have := congrArg List.length (comingBytes_take hn s)
    rw [List.length_take] at this
    omega

/-- A feed that was enough has taken its bytes off the front of the coming ones (R53). -/
theorem comingBytes_fed {s t : State} {count : Nat} (hT : s.params.tb.length ≤ 65535) (hc : CursorBound s)
    (hf : s.params.srcFullRead = true) (hs : (supply count s).length = needBytes count s)
    (hp : t.params = s.params) (hcur : t.cur = (fedState count s).cur)
    (hsrc : t.src = (fedState count s).src) (n : Nat) :
    comingBytes n t = (comingBytes (needBytes count s + n) s).drop (needBytes count s) := by
  have hcurN : t.cur.toNat = s.cur.toNat + (trailingSupply count s).length := by
    rw [hcur]
    exact (fedState_cur_toNat hT hc count).1
  have hlen : (sourceSupply count s).length + (trailingSupply count s).length = needBytes count s := by
    rw [← hs, supply, List.length_append]
  unfold comingBytes
  rw [List.drop_take, Nat.add_sub_cancel_left, hp, hcurN]
  cases hn : noRead count s with
  | true =>
    have e1 : t.src = s.src := by
      rw [hsrc, fedState_src, hn]
      rfl
    have e2 : (sourceSupply count s).length = 0 := by simp [sourceSupply, hn]
    cases hpb : paddingBegun s with
    | true =>
      have hpt : paddingBegun t = true := by
        rw [paddingBegun_eq] at hpb ⊢
        simp only [decide_eq_true_eq] at hpb ⊢
        omega
      simp only [hpt, if_true, List.nil_append, List.drop_drop]
      rw [show s.cur.toNat + (trailingSupply count s).length = s.cur.toNat + needBytes count s by omega]
    | false =>
      have hz : needBytes count s = 0 := by simpa [noRead, hpb] using hn
      have hpt : paddingBegun t = false := by
        rw [paddingBegun_eq] at hpb ⊢
        rw [hcurN, show (trailingSupply count s).length = 0 by omega]
        exact hpb
      simp [hpt, e1, hz, show trailingSupply count s = [] from List.length_eq_zero_iff.mp (by omega)]
  | false =>
    have hpb : paddingBegun s = false := (Bool.or_eq_false_iff.mp hn).2
    have hc0 : s.cur.toNat = 0 := by
      rw [paddingBegun_eq] at hpb
      simpa using hpb
    have e1 : t.src = sourceAfter (sourceReach (needBytes count s) s.src) s.src := by
      rw [hsrc, fedState_src, hn, hf, readCount_full]
      rfl
    have e2 : (sourceSupply count s).length = sourceReach (needBytes count s) s.src := by
      simp [sourceSupply, hn, hf]
    have hdrop : (nextBytes (needBytes count s) s.src).drop (needBytes count s) = [] :=
      List.drop_of_length_le (nextBytes_length _ _ ▸ sourceReach_le _ _)
    have hsplit := nextBytes_add (needBytes count s) n s.src
    simp only [hpb, Bool.false_eq_true, if_false]
    rcases Nat.lt_or_ge (sourceReach (needBytes count s) s.src) (needBytes count s) with hlt | hge
    · have hpt : paddingBegun t = true := by
        rw [paddingBegun_eq, hcurN]
        simp only [decide_eq_true_eq]
        omega
      rw [nextBytes_exhausted hlt, List.append_nil] at hsplit
      simp only [hpt, if_true, List.nil_append, hsplit]
      rw [List.drop_append, hdrop, List.nil_append, List.drop_drop, nextBytes_length]
      congr 2
      omega
    · have hre : sourceReach (needBytes count s) s.src = needBytes count s :=
        Nat.le_antisymm (sourceReach_le _ _) hge
      have hz : (trailingSupply count s).length = 0 := by omega
      have hpt : paddingBegun t = false := by
        rw [paddingBegun_eq, hcurN, hc0, hz]
        rfl
      simp only [hpt, Bool.false_eq_true, if_false, e1, hre, hz, Nat.add_zero, hsplit, List.append_assoc]
      rw [List.drop_append_of_le_length (by rw [nextBytes_length, hre]), hdrop, List.nil_append]

end Sys2Proof.Machine
end

