-- ==== Sys2Proof/Tests/Slice0.lean ====
section
/-! SUPPORT. Tests. Expected values are those of spec/ (95_test_vectors.md, 30_encoding.md R75, the examples of
the rules), or worked out by hand from the rules named. The last part shows, for every statement of
Certificates/Slice0/Obligations.lean that has hypotheses, states and operands that meet them. -/

namespace Sys2Proof.Tests

open Sys2Proof.Machine

/-! ### WellFormed refuses what no word can hold -/

theorem test_wf_peek_reg : (Instr.peek 256 0).wellFormed = false := by decide
theorem test_wf_decode_reg : (Instr.decode 256 0).wellFormed = false := by decide
theorem test_wf_peek_count : (Instr.peek 0 65536).wellFormed = false := by decide
theorem test_wf_decode_count : (Instr.decode 0 65536).wellFormed = false := by decide
theorem test_wf_readBytes_room : (Instr.readBytes 65536).wellFormed = false := by decide
theorem test_wf_rPeek_count : (Instr.rPeek 0 256).wellFormed = false := by decide
theorem test_wf_rDiscard_count : (Instr.rDiscard 0 256).wellFormed = false := by decide
theorem test_wf_limits : (Instr.peek 255 65535).wellFormed = true ∧
    (Instr.readBytes 65535).wellFormed = true ∧ (Instr.rDiscard 7 255).wellFormed = true := by decide

/-! ### Decoding: words written out bit by bit, `IMM REG RSV OPC` and `DATA CNT RRSV ROP` -/

/-- `peek 13, r1` (R75). -/
theorem test_decode_peek :
    decode (.command 0b00000000000011010000000100000001) = .ok (.peek 1 13) := by decide
/-- `decode 32, r0` (R75). -/
theorem test_decode_decode :
    decode (.command 0b00000000001000000000000000000010) = .ok (.decode 0 32) := by decide
theorem test_decode_align :
    decode (.command 0b00000000000000000000000000000011) = .ok .align := by decide
/-- `readbytes 16` (R75). -/
theorem test_decode_readBytes :
    decode (.command 0b00000000000100000000000000000100) = .ok (.readBytes 16) := by decide
theorem test_decode_readByte :
    decode (.command 0b00000000000000000000000000000101) = .ok .readByte := by decide
theorem test_decode_totalIn :
    decode (.command 0b00000000000000000000000000000110) = .ok .totalIn := by decide
theorem test_decode_clear :
    decode (.command 0b00000000000000000000000000000111) = .ok .clear := by decide
theorem test_decode_reset :
    decode (.command 0b00000000000000000000000000001000) = .ok .reset := by decide
/-- `r.feed 0xA5` (R75). -/
theorem test_decode_rFeed :
    decode (.regPort 0 0b101001010000000000000001) = .ok (.rFeed 0 0xA5) := by decide
/-- `r.peek 4` (R75). -/
theorem test_decode_rPeek :
    decode (.regPort 0 0b000000000000010000000010) = .ok (.rPeek 0 4) := by decide
theorem test_decode_rDiscard :
    decode (.regPort 2 0b000000000000010000000011) = .ok (.rDiscard 2 4) := by decide
theorem test_decode_rCount :
    decode (.regPort 0 0b000000000000000000000100) = .ok (.rCount 0) := by decide
theorem test_decode_rClear :
    decode (.regPort 0 0b000000000000000000000101) = .ok (.rClear 0) := by decide

/-- The words of 95_test_vectors.md 2.1 that R66 rejects by the word alone. -/
theorem test_decode_illegal_commands :
    decode (.command 0x00000000) = .error .illegalOpcode ∧
    decode (.command 0x0000000F) = .error .illegalOpcode ∧
    decode (.command 0x00000009) = .error .illegalOpcode ∧
    decode (.command 0x000000F9) = .error .illegalOpcode ∧
    decode (.command 0x00000013) = .error .reservedNonzero ∧
    decode (.command 0x00010003) = .error .reservedNonzero ∧
    decode (.command 0x00000108) = .error .reservedNonzero ∧
    decode (.command 0x00000104) = .error .reservedNonzero := by decide

/-- Rows 22 to 28 of 95_test_vectors.md 2.2. -/
theorem test_decode_illegal_regPort :
    decode (.regPort 0 0x000000) = .error .illegalOpcode ∧
    decode (.regPort 0 0x000006) = .error .illegalOpcode ∧
    decode (.regPort 0 0x000008) = .error .illegalOpcode ∧
    decode (.regPort 0 0x00000A) = .error .reservedNonzero ∧
    decode (.regPort 0 0x000101) = .error .reservedNonzero ∧
    decode (.regPort 0 0x010002) = .error .reservedNonzero ∧
    decode (.regPort 0 0x000104) = .error .reservedNonzero := by decide

/-- The numbering of spec/opcode_table.json; other lengths are no rows. -/
theorem test_decodeTableWord :
    decodeTableWord 32 0x00040002 = some (.decode 0 4) ∧
    decodeTableWord 24 0xA50001 = some (.rFeed 0 0xA5) ∧
    decodeTableWord 32 0x00000013 = none ∧ decodeTableWord 16 1 = none := by decide

/-- R73: a comment, hexadecimal, `.word`; a line that is not in the syntax has no word. -/
theorem test_assembler :
    assembleLine 0 ['r', 'e', 's', 'e', 't', ' ', ';', ' ', 'x'] = some (.word (.command 8)) ∧
    assembleLine 0 ['p', 'e', 'e', 'k', ' ', '0', 'x', '1', 'F'] = some (.word (.command 0x001F0001)) ∧
    assembleLine 0 ['.', 'w', 'o', 'r', 'd', ' ', '1', '6'] = some (.word (.command 0x00000010)) ∧
    assembleLine 0 [';', 'x'] = some .empty ∧
    assembleLine 0 ['a', 'l', 'i', 'g', 'n', ' ', '1'] = none := by decide

/-! ### One instruction on a small state -/

/-- R7's values for this hardware with the given bit orders and trailing bytes. -/
def cfg (orders : List BitOrder) (tb : List Byte) : Config :=
  { n := orders.length, orders := orders, params := { Config.default.params with tb := tb } }

/-- A block in the reset state with the given source. -/
def fresh (orders : List BitOrder) (tb src : List Byte) : State :=
  connected (cfg orders tb) { bytes := src, rest := .ends, reads := 0, waits := [] }

/-- One `LSB_FIRST` register, no trailing bytes. -/
abbrev one (src : List Byte) : State := fresh [.lsbFirst] [] src

/-- The registers hold the bytes `bs` less `n` bits, and `TOTAL` is `total`. -/
def holding (bs : List Byte) (n total : Nat) (s : State) : State :=
  { s with
    regs := s.regs.map fun r => { r with q := (bs.flatMap (expand r.order)).drop n }
    total := BitVec.ofNat 64 total }

/-- Registers of 8 times `k` zero bits less `n`. -/
abbrev zeros (k n : Nat) : State := holding (List.replicate k 0) n 0 (one [])

/-- The last response of a next state, as two numbers. -/
def answer (r : Result) : Option (Nat × Nat) :=
  match r with
  | .next t => t.resps.getLast?.map fun x => (x.status.toNat, x.value.toNat)
  | _ => none

/-- `p` holds of the next state. -/
def nextSat (p : State → Bool) (r : Result) : Bool :=
  match r with
  | .next t => p t
  | _ => false

/-- The fault a result is, if it is one. -/
def faultOf (r : Result) : Option Fault :=
  match r with
  | .fault f => some f
  | _ => none

/-- Bit count of register 0, `TOTAL`, `CUR`. -/
def counts (s : State) : Nat × Nat × Nat := (bitCount 0 s, s.total.toNat, s.cur.toNat)

/-- V-PI, first row. -/
theorem test_peek_feeds :
    answer (exec (.peek 0 4) (one [0xA5, 0x3C])) = some (0, 0x5) ∧
    nextSat (fun t => counts t = (8, 0, 0) ∧ t.src.bytes = [0x3C]) (exec (.peek 0 4) (one [0xA5, 0x3C])) := by
  decide
/-- V-BOUND, third row: 23 bits are buffered and 39 after it. -/
theorem test_peek_bound :
    answer (exec (.peek 0 32) (holding [1, 2, 3] 1 1 (one [4, 5]))) = some (0, 0x82018100) ∧
    nextSat (fun t => counts t = (39, 1, 0)) (exec (.peek 0 32) (holding [1, 2, 3] 1 1 (one [4, 5]))) := by
  decide
/-- V-LSB12, first row: the queue left is 1100. -/
theorem test_decode_spans_bytes :
    answer (exec (.decode 0 12) (one [0xA5, 0x3C])) = some (0, 0xCA5) ∧
    nextSat (fun t => t.regs.map (·.q) = [[true, true, false, false]] ∧ counts t = (4, 12, 0))
      (exec (.decode 0 12) (one [0xA5, 0x3C])) := by decide
/-- V-INS, first row, and V-TB's values with `MSB_FIRST` in register 1. -/
theorem test_decode_insufficient :
    answer (exec (.decode 0 24) (fresh [.lsbFirst] [0] [0xAB])) = some (2, 0) ∧
    nextSat (fun t => counts t = (16, 0, 1)) (exec (.decode 0 24) (fresh [.lsbFirst] [0] [0xAB])) ∧
    answer (exec (.decode 1 16) (fresh [.lsbFirst, .msbFirst] [0xEE, 0xFF] [])) = some (0, 0xEEFF) := by
  decide
/-- V-AL: with `BC = 13`, `align` discards 5 bits. -/
theorem test_align :
    nextSat (fun t => counts t = (8, 8, 0)) (exec .align (holding [0xA5, 0x3C] 3 3 (one []))) := by decide
/-- V-RB, third row: the buffered 22 is drained, then 33 is read. -/
theorem test_readBytes :
    answer (exec (.readBytes 4) (holding [0x22] 0 8 (one [0x33]))) = some (0, 2) ∧
    nextSat (fun t => t.dst = [0x22, 0x33] ∧ counts t = (0, 24, 0))
      (exec (.readBytes 4) (holding [0x22] 0 8 (one [0x33]))) := by decide
/-- V-RB, the last rows: no byte is `EOS` where there was room, `OK` where there was none. -/
theorem test_readBytes_end :
    answer (exec (.readBytes 4) (one [])) = some (3, 0) ∧
    answer (exec (.readBytes 0) (one [0x33])) = some (0, 0) := by decide
/-- V-RB1-AL: 5 bits are aligned away, the byte 3C is drained. -/
theorem test_readByte_aligns :
    answer (exec .readByte (holding [0xA5, 0x3C] 3 3 (one []))) = some (0, 0x3C) ∧
    nextSat (fun t => counts t = (0, 16, 0)) (exec .readByte (holding [0xA5, 0x3C] 3 3 (one []))) := by
  decide
/-- V-RB1-ZERO, and V-RB-PAD's last row: no read once padding has begun. -/
theorem test_readByte_zero_and_end :
    answer (exec .readByte (one [0])) = some (0, 0) ∧ answer (exec .readByte (one [])) = some (3, 0) ∧
    answer (exec .readByte { fresh [.lsbFirst] [0] [7] with cur := 1 }) = some (3, 0) := by decide
/-- V-RT: 15 bits are 2 bytes; V-OVF: 2^64 − 1 bits are 2^61 bytes. -/
theorem test_totalIn :
    answer (exec .totalIn (holding [] 0 15 (one []))) = some (0, 2) ∧
    answer (exec .totalIn (holding [] 0 (2 ^ 64 - 1) (one []))) = some (0, 2 ^ 61) := by decide
/-- V-CLR: the byte is lost, `TOTAL` and `CUR` stay. -/
theorem test_clear :
    nextSat (fun t => counts t = (0, 5, 1))
      (exec .clear { holding [0xEE] 0 5 (fresh [.lsbFirst] [0xEE, 0xFF] []) with cur := 1 }) := by decide
/-- V-RST. -/
theorem test_reset :
    answer (exec .reset { holding [] 0 8 (fresh [.lsbFirst] [0xEE, 0xFF] []) with cur := 2 }) = some (0, 0) ∧
    nextSat (fun t => counts t = (0, 0, 0))
      (exec .reset { holding [7] 0 8 (fresh [.lsbFirst] [0xEE, 0xFF] []) with cur := 2 }) := by decide
/-- V-OVF: `TOTAL` stops at 2^64 − 1. -/
theorem test_total_overflow :
    faultOf (exec (.decode 0 4) (holding [0] 0 (2 ^ 64 - 4) (one []))) = some .totalOverflow ∧
    answer (exec (.decode 0 4) (holding [0] 0 (2 ^ 64 - 5) (one []))) = some (0, 0) := by decide
/-- 2.2, row 1: the queue of 0xA5. -/
theorem test_rFeed :
    nextSat (fun t => t.regs.map (·.q) = [[true, false, true, false, false, true, false, true]])
      (exec (.rFeed 0 0xA5) (one [])) := by decide
/-- 2.2, rows 17 and 18. -/
theorem test_rFeed_full :
    answer (exec (.rFeed 0 0) (zeros 7 0)) = some (0, 0) ∧
    answer (exec (.rFeed 0 0) (zeros 8 7)) = some (1, 5) := by decide
/-- 2.2, rows 2 and 14, and the shift-register table's LSB value. -/
theorem test_rPeek :
    answer (exec (.rPeek 0 4) (holding [0xA5] 0 0 (one []))) = some (0, 0x5) ∧
    answer (exec (.rPeek 0 12) (holding [0xA5, 0x3C] 0 0 (fresh [.msbFirst] [] []))) = some (0, 0xA53) ∧
    answer (exec (.rPeek 0 12) (holding [0xA5, 0x3C] 0 0 (one []))) = some (0, 0xCA5) := by decide
/-- 2.2, rows 7, 20 and 21. -/
theorem test_rPeek_usage :
    answer (exec (.rPeek 0 5) (holding [0xA5] 4 0 (one []))) = some (1, 6) ∧
    answer (exec (.rPeek 0 65) (zeros 8 0)) = some (1, 4) ∧
    answer (exec (.rPeek 0 200) (one [])) = some (1, 4) := by decide
/-- 2.2, rows 4 and 8. -/
theorem test_rDiscard :
    nextSat (fun t => t.regs.map (·.q) = [[false, true, false, true]])
      (exec (.rDiscard 0 4) (holding [0xA5] 0 0 (one []))) ∧
    answer (exec (.rDiscard 0 5) (holding [0xA5] 4 0 (one []))) = some (1, 6) := by decide
/-- R79's example. -/
theorem test_rCount : answer (exec (.rCount 0) (holding [0xA5] 3 0 (one []))) = some (0, 5) := by decide
/-- R80's example; the other register keeps its bits (R70: the port is one register's). -/
theorem test_rClear :
    nextSat (fun t => bitCount 0 t = 0 ∧ bitCount 1 t = 8)
      (exec (.rClear 0) (holding [0xFF] 0 0 (fresh [.lsbFirst, .msbFirst] [] []))) := by decide

/-! ### One step -/

/-- 95_test_vectors.md 2.1: a reserved opcode answers `E_USAGE(1)` and the word is gone. -/
theorem test_step_illegal :
    answer (step { one [] with words := [.command 0x0000000F] }) = some (1, 1) ∧
    nextSat (fun t => t.words = [] ∧ t.busy = false) (step { one [] with words := [.command 0x0000000F] }) := by
  decide
/-- 2.1: the register index is checked before the count. -/
theorem test_step_checks_in_order :
    answer (step { one [] with words := [.command 0x00210102] }) = some (1, 3) ∧
    answer (step { one [] with words := [.command 0x00210002] }) = some (1, 4) := by decide
/-- R120: a read that waits leaves the command in progress, and no response. -/
theorem test_step_waits :
    nextSat (fun t => t.busy = true ∧ t.inFlight = some (.peek 0 4) ∧ t.resps = [])
      (exec (.peek 0 4) (withWaits [.steps 1] (one [0xA5]))) := by decide
/-- The host's question: a table row's word is the first instruction after reset. -/
theorem test_withFetchWord :
    answer (step (State.reset.withFetchWord 32 0x00000006)) = some (0, 0) ∧
    answer (step (State.reset.withFetchWord 24 0xA50001)) = some (0, 0) ∧
    answer (step (State.reset.withFetchWord 32 0x00040002)) = some (2, 0) := by decide

/-- A block whose source gives 0xA5 and then the bytes of an endless stream (R50). -/
abbrev endless : State := connected Config.default { bytes := [0xA5], rest := .endless 0 7, reads := 0, waits := [] }

/-- R50: an endless full-read source returns every byte asked for, in the order of its stream, and its position
advances by as many. -/
theorem test_endless_source :
    answer (exec (.readBytes 3) endless) = some (0, 3) ∧
    nextSat (fun t => counts t = (0, 24, 0) ∧ t.src.bytes = [] ∧ t.src.rest = .endless 0 9)
      (exec (.readBytes 3) endless) ∧
    (∃ t, exec (.readBytes 3) endless = .next t ∧
      t.dst = [0xA5, Config.endlessByte 0 7, Config.endlessByte 0 8]) :=
  ⟨by decide, by decide, _, rfl, rfl⟩

/-! ### The hypotheses of the statements can be met -/

theorem next_of_nextSat {p : State → Bool} {r : Result} (h : nextSat p r = true) :
    ∃ t, r = .next t ∧ p t = true := by
  unfold nextSat at h
  split at h
  · exact ⟨_, rfl, h⟩
  · cases h

/-- What most statements ask of a state, and a source whose next read returns at once. -/
structure Fit (s : State) : Prop where
  legal : s.config.Legal
  lockstep : Lockstep s
  bound : DecoderBound s
  cursor : CursorBound s
  ready : SourceReady s

/-- Two registers of either order with 13 bits buffered, and one source byte. -/
abbrev mixed : State := holding [0xA5, 0x3C] 3 3 (fresh [.lsbFirst, .msbFirst] [] [0x7E])

/-- Padding has begun: one of two trailing bytes is still to come. -/
abbrev padding : State := { fresh [.lsbFirst] [0xEE, 0xFF] [0x11] with cur := 1 }

/-- A block with K = 1 source byte and T = 2 trailing bytes (V-TB). -/
abbrev tail : State := fresh [.lsbFirst] [0xEE, 0xFF] [0x11]

/-- A decoder's largest bit count, 39 (V-BOUND). -/
abbrev fullest : State := holding [1, 2, 3, 4, 5] 1 1 (one [])

/-- `TOTAL` four bits below its end, 8 bits buffered (V-OVF). -/
abbrev atEnd (n : Nat) : State := holding [0xA5] 0 (2 ^ 64 - n) (one [0x3C])

theorem fit_one : Fit (one [0xA5, 0x3C]) :=
  ⟨by decide, by unfold Lockstep; decide, by unfold DecoderBound; decide, by unfold CursorBound; decide, trivial⟩
theorem fit_mixed : Fit mixed :=
  ⟨by decide, by unfold Lockstep; decide, by unfold DecoderBound; decide, by unfold CursorBound; decide, trivial⟩
theorem fit_padding : Fit padding :=
  ⟨by decide, by unfold Lockstep; decide, by unfold DecoderBound; decide, by unfold CursorBound; decide, trivial⟩
theorem fit_tail : Fit tail :=
  ⟨by decide, by unfold Lockstep; decide, by unfold DecoderBound; decide, by unfold CursorBound; decide, trivial⟩
theorem fit_fullest : Fit fullest :=
  ⟨by decide, by unfold Lockstep; decide, by unfold DecoderBound; decide, by unfold CursorBound; decide, trivial⟩
theorem fit_atEnd_four : Fit (atEnd 4) :=
  ⟨by decide, by unfold Lockstep; decide, by unfold DecoderBound; decide, by unfold CursorBound; decide, trivial⟩
theorem fit_atEnd_nine : Fit (atEnd 9) :=
  ⟨by decide, by unfold Lockstep; decide, by unfold DecoderBound; decide, by unfold CursorBound; decide, trivial⟩

/-- The invariant of a block with 13 bits buffered, command words waiting, and any waits of its source. -/
theorem inv_mixed (ws : List Wait) : Inv { withWaits ws mixed with words := [.command 0x00100002] } where
  legal := fit_mixed.legal
  host := ⟨fun w hw => List.mem_singleton.mp hw ▸ rfl, fun _ h => nomatch (show none = some _ from h)⟩
  content := ⟨[0xA5, 0x3C], 3, by decide,
    (by decide : ∀ r ∈ mixed.regs, r.q = ([0xA5, 0x3C].flatMap (expand r.order)).drop 3)⟩
  bound := fit_mixed.bound
  cursor := fit_mixed.cursor
  handshake := ⟨rfl, fun _ => rfl⟩

/-- The invariant while a DECODE waits for its read. -/
theorem inv_waiting :
    Inv { withWaits [.forever] mixed with busy := true, inFlight := some (.decode 0 16) } where
  legal := fit_mixed.legal
  host := by
    refine ⟨fun w hw => ?_, fun i h => ?_⟩
    · exact absurd (show w ∈ [] from hw) (by simp)
    · obtain rfl : Instr.decode 0 16 = i := Option.some.inj h
      rfl
  content := ⟨[0xA5, 0x3C], 3, by decide,
    (by decide : ∀ r ∈ mixed.regs, r.q = ([0xA5, 0x3C].flatMap (expand r.order)).drop 3)⟩
  bound := fit_mixed.bound
  cursor := fit_mixed.cursor
  handshake := ⟨rfl, fun h => by cases h⟩

/-! #### Encoding -/

theorem witness_DecodeOfEncode : (Instr.decode 255 65535).wellFormed = true ∧
    (Instr.rFeed 3 255).wellFormed = true := by decide
theorem witness_EncodeOfDecode : decode (.command 0xFFFFFF01) = .ok (.peek 255 65535) ∧
    decode (.regPort 9 0x00FF03) = .ok (.rDiscard 9 255) := by decide
theorem legal_one : (one []).config.Legal := by decide

/-- Opcodes 0, 9 and 15, and one word for each way a field can be wrong. -/
theorem witness_IllegalCommandAnswered :
    (∀ w ∈ ([0x00000000, 0x00000009, 0xFFFFFFFF] : List CommandWord), ∃ s : State, s.config.Legal ∧
      Between s ∧ s.words = [.command w] ∧ (w.toNat % 16 = 0 ∨ 9 ≤ w.toNat % 16)) ∧
    (∀ w ∈ ([0x00000011, 0x00010003, 0x00000108, 0x00000104] : List CommandWord), ∃ s : State,
      s.config.Legal ∧ Between s ∧ s.words = [.command w] ∧ (1 ≤ w.toNat % 16 ∧ w.toNat % 16 ≤ 8 ∧
      (w.toNat / 16 % 16 ≠ 0 ∨ (w.toNat % 16 ∉ [1, 2, 4] ∧ w.toNat / 256 ≠ 0) ∨
        (w.toNat % 16 = 4 ∧ w.toNat / 256 % 256 ≠ 0)))) :=
  ⟨fun w hw => ⟨{ one [] with words := [.command w] }, legal_one, ⟨rfl, rfl, rfl⟩, rfl,
      (by simp : ∀ w ∈ ([0x00000000, 0x00000009, 0xFFFFFFFF] : List CommandWord),
        (w.toNat % 16 = 0 ∨ 9 ≤ w.toNat % 16)) w hw⟩,
    fun w hw => ⟨{ one [] with words := [.command w] }, legal_one, ⟨rfl, rfl, rfl⟩, rfl,
      (by simp : ∀ w ∈ ([0x00000011, 0x00010003, 0x00000108, 0x00000104] : List CommandWord),
        (1 ≤ w.toNat % 16 ∧ w.toNat % 16 ≤ 8 ∧
      (w.toNat / 16 % 16 ≠ 0 ∨ (w.toNat % 16 ∉ [1, 2, 4] ∧ w.toNat / 256 ≠ 0) ∨
        (w.toNat % 16 = 4 ∧ w.toNat / 256 % 256 ≠ 0)))) w hw⟩⟩
/-- Register 1 of 1 register; register 0 with one bit more than `MAXREQ`. -/
theorem witness_RangeCheckAnswered : (one []).regs.length ≤ 1 ∧
    0 < (one []).regs.length ∧ (one []).params.maxReq < 33 := by decide
theorem witness_IllegalRegPortAnswered :
    (∀ u ∈ ([0x000000, 0x000006, 0xFFFFFF] : List RegPortWord), ∃ s : State, s.config.Legal ∧ Between s ∧
      s.words = [.regPort 0 u] ∧ 0 < s.regs.length ∧ (u.toNat % 8 = 0 ∨ 6 ≤ u.toNat % 8)) ∧
    (∀ u ∈ ([0x00000A, 0x000101, 0x010002, 0x000104, 0x010005] : List RegPortWord), ∃ s : State,
      s.config.Legal ∧ Between s ∧ s.words = [.regPort 0 u] ∧ 0 < s.regs.length ∧
      (1 ≤ u.toNat % 8 ∧ u.toNat % 8 ≤ 5 ∧
      (u.toNat / 8 % 32 ≠ 0 ∨ (u.toNat % 8 = 1 ∧ u.toNat / 256 % 256 ≠ 0) ∨
        (u.toNat % 8 ∈ [2, 3] ∧ u.toNat / 65536 ≠ 0) ∨ (u.toNat % 8 ∈ [4, 5] ∧ u.toNat / 256 ≠ 0)))) :=
  ⟨fun u hu => ⟨{ one [] with words := [.regPort 0 u] }, legal_one, ⟨rfl, rfl, rfl⟩, rfl, legal_one.1,
      (by simp : ∀ u ∈ ([0x000000, 0x000006, 0xFFFFFF] : List RegPortWord),
        (u.toNat % 8 = 0 ∨ 6 ≤ u.toNat % 8)) u hu⟩,
    fun u hu => ⟨{ one [] with words := [.regPort 0 u] }, legal_one, ⟨rfl, rfl, rfl⟩, rfl, legal_one.1,
      (by simp : ∀ u ∈ ([0x00000A, 0x000101, 0x010002, 0x000104, 0x010005] : List RegPortWord),
        (1 ≤ u.toNat % 8 ∧ u.toNat % 8 ≤ 5 ∧
      (u.toNat / 8 % 32 ≠ 0 ∨ (u.toNat % 8 = 1 ∧ u.toNat / 256 % 256 ≠ 0) ∨
        (u.toNat % 8 ∈ [2, 3] ∧ u.toNat / 65536 ≠ 0) ∨ (u.toNat % 8 ∈ [4, 5] ∧ u.toNat / 256 ≠ 0))))
        u hu⟩⟩

/-! #### The step and the handshake -/

theorem witness_StepRunsDecoded : ∃ s : State, s.config.Legal ∧ s.busy = false ∧
    s.words = [.command 0x00040002] ∧ decode (.command 0x00040002) = .ok (.decode 0 4) :=
  ⟨{ one [] with words := [.command 0x00040002] }, by decide, rfl, rfl, by decide⟩
theorem witness_StepResumesOrIdles :
    (∃ s : State, s.config.Legal ∧ s.busy = true ∧ s.inFlight = some (.peek 0 4)) ∧
    ∃ s : State, s.config.Legal ∧ s.busy = false ∧ s.words = [] :=
  ⟨⟨{ one [] with busy := true, inFlight := some (.peek 0 4) }, by decide, rfl, rfl⟩,
    ⟨one [], by decide, rfl, rfl⟩⟩
theorem witness_CommandHandshake :
    (∃ s t, Inv s ∧ step s = .next t ∧ s.busy = true) ∧
    ∃ s t, Inv s ∧ step s = .next t ∧ s.busy = false ∧ s.words ≠ [] := by
  obtain ⟨t, ht, -⟩ := next_of_nextSat (p := fun _ => true)
    (r := step { withWaits [.forever] mixed with busy := true, inFlight := some (.decode 0 16) }) (by decide)
  obtain ⟨u, hu, -⟩ := next_of_nextSat (p := fun _ => true)
    (r := step { withWaits [] mixed with words := [.command 0x00100002] }) (by decide)
  exact ⟨⟨_, t, inv_waiting, ht, rfl⟩, ⟨_, u, inv_mixed [], hu, rfl, by simp⟩⟩
theorem witness_BlockedSourceNeverResponds : ∃ s t, Inv s ∧ step s = .next t ∧ t.busy = true ∧
    t.src.waits = .forever :: [] := by
  obtain ⟨t, ht, h⟩ := next_of_nextSat (p := fun t => decide (t.busy = true ∧ t.src.waits = [.forever]))
    (r := step { withWaits [.forever] mixed with words := [.command 0x00100002] }) (by decide)
  exact ⟨_, t, inv_mixed _, ht, of_decide_eq_true h⟩
theorem witness_WaitingIsTransparent : ∃ s t : State, s.config.Legal ∧ Lockstep s ∧ DecoderBound s ∧
    s.params.srcFullRead = true ∧ s.delivered = 0 ∧ (Instr.decode 0 16).isCommand = true ∧
    exec (.decode 0 16) (withWaits (.steps 0 :: []) s) = .next t ∧ t.src.reads = s.src.reads + 1 := by
  obtain ⟨t, ht, h⟩ := next_of_nextSat (p := fun t => decide (t.src.reads = 1))
    (r := exec (.decode 0 16) (withWaits [.steps 0] mixed)) (by decide)
  exact ⟨mixed, t, fit_mixed.legal, fit_mixed.lockstep, fit_mixed.bound, rfl, rfl, rfl, ht,
    of_decide_eq_true h⟩

/-! #### Construction, bit order, the operations of one register -/

theorem witness_ResetState : (cfg [.lsbFirst, .msbFirst] [0xEE]).Legal := by decide
/-- Each condition of R8 broken by one. -/
theorem witness_IllegalConfigurationRefused :
    ({ Config.default with n := 0 } : Config).n < 1 ∧
    (∃ c : Config, c.params.cap + 1 = c.params.maxReq + 7) ∧ (∃ c : Config, c.params.cap = 65) ∧
    (∃ c : Config, c.params.tb.length = 65536) ∧
    ({ Config.default with n := 2 } : Config).orders.length < 2 :=
  ⟨by decide,
    ⟨{ Config.default with params := { Config.default.params with cap := 38 } }, rfl⟩,
    ⟨{ Config.default with params := { Config.default.params with cap := 65 } }, rfl⟩,
    ⟨{ Config.default with params := { Config.default.params with tb := List.replicate 65536 0 } },
      List.length_replicate⟩,
    by decide⟩
theorem witness_ConfigurationNeverChanges : ∃ t, step mixed = .next t := ⟨mixed, rfl⟩
theorem witness_ValueIsWeightedSum : 2 ≤ [true, false].length := by decide
/-- 56 bits take a byte, 57 do not. -/
theorem witness_RegisterFeed :
    (∃ r, (zeros 7 0).regs[0]? = some r ∧ r.q.length + 8 = (zeros 7 0).params.cap) ∧
    ∃ r, (zeros 8 7).regs[0]? = some r ∧ (zeros 8 7).params.cap + 1 = r.q.length + 8 :=
  ⟨⟨_, rfl, by decide⟩, ⟨_, rfl, by decide⟩⟩
/-- 64 bits of 64; 65 bits; one bit more than is buffered. -/
theorem witness_RegisterPeek :
    (zeros 8 0).params.cap ≤ 64 ∧
    (∃ r, (zeros 8 0).regs[0]? = some r ∧ 64 ≤ (zeros 8 0).params.cap ∧ 64 ≤ r.q.length) ∧
    (zeros 8 0).params.cap < 65 ∧
    ∃ r, (zeros 1 0).regs[0]? = some r ∧ 9 ≤ (zeros 1 0).params.cap ∧ r.q.length < 9 :=
  ⟨by decide, ⟨_, rfl, by decide⟩, by decide, ⟨_, rfl, by decide⟩⟩
theorem witness_RegisterDiscard :
    (∃ r, (zeros 8 0).regs[0]? = some r ∧ 64 ≤ (zeros 8 0).params.cap ∧ 64 ≤ r.q.length) ∧
    (zeros 8 0).params.cap < 65 ∧
    ∃ r, (zeros 1 0).regs[0]? = some r ∧ 9 ≤ (zeros 1 0).params.cap ∧ r.q.length < 9 :=
  ⟨⟨_, rfl, by decide⟩, by decide, ⟨_, rfl, by decide⟩⟩
theorem witness_RegisterCountAndClear : ∃ r, (zeros 8 0).regs[0]? = some r ∧ r.q.length < 2 ^ 64 :=
  ⟨_, rfl, by decide⟩
theorem witness_AbsentRegisterPortRefused : (one []).regs.length ≤ 1 := by decide
theorem witness_ShiftRegisterRefinesQueue :
    ([true] : List Bool).length ≤ 64 ∧
    (∃ r', regFeed 64 0xA5 { order := .msbFirst, q := [true] } = .ok r') ∧
    (∃ v, regPeek 64 1 { order := .msbFirst, q := [true] } = .ok v) ∧
    ∃ r', regDiscard 64 1 { order := .lsbFirst, q := [true] } = .ok r' :=
  ⟨by decide, ⟨_, rfl⟩, ⟨_, rfl⟩, ⟨_, rfl⟩⟩

/-! #### PEEK and DECODE -/

/-- Enough supplied with the largest count, none needed in padding, and one byte too few. -/
theorem witness_PeekResult :
    (Fit tail ∧ 0 < tail.regs.length ∧ 24 ≤ tail.params.maxReq ∧
      (supply 24 tail).length = needBytes 24 tail) ∧
    (Fit padding ∧ noRead 8 padding = true ∧ (supply 8 padding).length = needBytes 8 padding) ∧
    (Fit tail ∧ 25 ≤ tail.params.maxReq ∧ (supply 25 tail).length ≠ needBytes 25 tail) :=
  ⟨⟨fit_tail, by decide, by decide, by decide⟩, ⟨fit_padding, by decide, by decide⟩,
    ⟨fit_tail, by decide, by decide⟩⟩
/-- The last bit of the counter, one bit beyond it, and too few bytes. -/
theorem witness_DecodeResult :
    (Fit (atEnd 4) ∧ 0 < (atEnd 4).regs.length ∧ 3 ≤ (atEnd 4).params.maxReq ∧
      (supply 3 (atEnd 4)).length = needBytes 3 (atEnd 4) ∧ (atEnd 4).total.toNat + 3 < 2 ^ 64) ∧
    ((supply 4 (atEnd 4)).length = needBytes 4 (atEnd 4) ∧ 2 ^ 64 ≤ (atEnd 4).total.toNat + 4) ∧
    (Fit mixed ∧ 1 < mixed.regs.length ∧ 22 ≤ mixed.params.maxReq ∧
      (supply 22 mixed).length ≠ needBytes 22 mixed) :=
  ⟨⟨fit_atEnd_four, by decide, by decide, by decide, by decide⟩, ⟨by decide, by decide⟩,
    ⟨fit_mixed, by decide, by decide, by decide⟩⟩
/-- All 21 bits that can be had, and one more. -/
theorem witness_EnsureBound : Fit mixed ∧ 22 ≤ mixed.params.maxReq ∧
    (∃ t, ensure (.peek 0 21) 21 mixed = .ok t) ∧
    ∃ t, ensure (.peek 0 22) 22 mixed = .error (raiseInsufficient t) :=
  ⟨fit_mixed, by decide, ⟨_, rfl⟩, ⟨_, rfl⟩⟩
theorem witness_InsufficientKeepsFedBytes : Fit tail ∧ ∃ t v, exec (.decode 0 25) tail = .next t ∧
    t.resps = tail.resps ++ [{ port := .command, status := 2, value := v }] := by
  obtain ⟨t, ht, h⟩ := next_of_nextSat (r := exec (.decode 0 25) tail)
    (p := fun t => decide (t.resps = [{ port := .command, status := 2, value := 0 }])) (by decide)
  exact ⟨fit_tail, t, _, ht, of_decide_eq_true h⟩
theorem witness_PeekIsNonDestructive : Fit (atEnd 9) ∧ ∃ t v, exec (.peek 0 4) (atEnd 9) = .next t ∧
    t.resps = (atEnd 9).resps ++ [{ port := .command, status := 0, value := v }] ∧
    t.total.toNat + 4 < 2 ^ 64 := by
  obtain ⟨t, ht, h⟩ := next_of_nextSat (r := exec (.peek 0 4) (atEnd 9))
    (p := fun t => decide (t.resps = [{ port := .command, status := 0, value := 5 }] ∧
      t.total.toNat + 4 < 2 ^ 64)) (by decide)
  exact ⟨fit_atEnd_nine, t, _, ht, of_decide_eq_true h⟩
/-- V-RT's counts and the rest of what V-TB's block holds, and a sequence that was answered in full. -/
theorem witness_RoundTripAccounting :
    (tail.config.Legal ∧ tail.total = 0 ∧ ∃ t answers,
      execAll ([(0, 3), (0, 5), (0, 16)].map fun p => .decode p.1 p.2) tail = some t ∧
      t.resps = tail.resps ++ answers ∧ answers.length = [(0, 3), (0, 5), (0, 16)].length ∧
      ∀ r ∈ answers, r.status = 0) ∧
    (Fit tail ∧ tail.params.srcFullRead = true ∧ tail.src.waits = [] ∧
      (∀ p ∈ [(0, 3), (0, 5), (0, 16)], p.1 < tail.regs.length ∧ p.2 ≤ tail.params.maxReq) ∧
      CanSupply ([(0, 3), (0, 5), (0, 16)].map (·.2)).sum tail ∧
      ([(0, 3), (0, 5), (0, 16)].map (·.2)).sum < 2 ^ 64) := by
  refine ⟨⟨fit_tail.legal, rfl, ?_⟩, fit_tail, rfl, rfl, by decide, by decide, by decide⟩
  have h : (execAll ([(0, 3), (0, 5), (0, 16)].map fun p => .decode p.1 p.2) tail).any (fun t => decide
      (t.resps.length = 3 ∧ ∀ r ∈ t.resps, r.status = 0)) = true := by decide
  obtain ⟨t, ht, h⟩ := Option.any_eq_true _ _ |>.mp h
  obtain ⟨h1, h2⟩ := of_decide_eq_true h
  exact ⟨t, t.resps, ht, rfl, h1, h2⟩
/-- DECODE through register 0 of 16 bits, for which one byte is fed: 5 bits stay in every register. -/
theorem witness_RegisterSynchronization : Fit mixed ∧ ∃ t v, exec (.decode 0 16) mixed = .next t ∧
    t.resps = mixed.resps ++ [{ port := .command, status := 0, value := v }] ∧
    5 ≤ mixed.params.maxReq ∧ 5 ≤ bitCount 0 t ∧ ∃ r, (fedState 16 mixed).regs[1]? = some r := by
  obtain ⟨t, ht, h⟩ := next_of_nextSat (r := exec (.decode 0 16) mixed)
    (p := fun t => decide (t.resps = [{ port := .command, status := 0, value := 0xC794 }] ∧
      5 ≤ bitCount 0 t)) (by decide)
  obtain ⟨h1, h2⟩ := of_decide_eq_true h
  exact ⟨fit_mixed, t, _, ht, h1, by decide, h2, _, rfl⟩
/-- 24 bits can be had, 25 cannot (V-TB). -/
theorem witness_TrailingByteFallback : Fit tail ∧ tail.params.srcFullRead = true ∧ 0 < tail.regs.length ∧
    25 ≤ tail.params.maxReq ∧ CanSupply 24 tail ∧ ¬ CanSupply 25 tail :=
  ⟨fit_tail, rfl, by decide, by decide, by decide, by decide⟩
theorem witness_DecodeReadsTheStream : Fit mixed ∧ mixed.params.srcFullRead = true ∧ mixed.src.waits = [] ∧
    (∀ p ∈ [(1, 7), (0, 14)], p.1 < mixed.regs.length ∧ p.2 ≤ mixed.params.maxReq) ∧
    CanSupply ([(1, 7), (0, 14)].map (·.2)).sum mixed ∧
    mixed.total.toNat + ([(1, 7), (0, 14)].map (·.2)).sum < 2 ^ 64 :=
  ⟨fit_mixed, rfl, rfl, by decide, by decide, by decide⟩

/-! #### ALIGN, READBYTES and READBYTE -/

/-- Three bits that `TOTAL` can just count, and four that it cannot. -/
theorem witness_AlignResult :
    (Fit (holding [0xA5] 5 (2 ^ 64 - 4) (one [])) ∧
      (holding [0xA5] 5 (2 ^ 64 - 4) (one [])).total.toNat +
        bitCount 0 (holding [0xA5] 5 (2 ^ 64 - 4) (one [])) % 8 < 2 ^ 64) ∧
    2 ^ 64 ≤ (holding [0xA5] 4 (2 ^ 64 - 4) (one [])).total.toNat +
      bitCount 0 (holding [0xA5] 4 (2 ^ 64 - 4) (one [])) % 8 :=
  ⟨⟨⟨by decide, by unfold Lockstep; decide, by unfold DecoderBound; decide, by unfold CursorBound; decide,
    trivial⟩, by decide⟩, by decide⟩
theorem witness_AlignIsIdempotent : Fit mixed ∧ ∃ t, exec .align mixed = .next t := by
  obtain ⟨t, ht, -⟩ := next_of_nextSat (r := exec .align mixed) (p := fun _ => true) (by decide)
  exact ⟨fit_mixed, t, ht⟩
theorem witness_AlignedFront : mixed.config.Legal ∧ 3 ≤ 8 * [0xA5, 0x3C].length ∧
    (∀ r ∈ mixed.regs, r.q = ([0xA5, 0x3C].flatMap (expand r.order)).drop 3) ∧
    ∃ t, exec .align mixed = .next t := by
  obtain ⟨t, ht, -⟩ := next_of_nextSat (r := exec .align mixed) (p := fun _ => true) (by decide)
  exact ⟨fit_mixed.legal, by decide, by decide, t, ht⟩
/-- Two bytes buffered in either order, one in the source. -/
theorem witness_BulkMovesBytesUnchanged :
    Fit (holding [0xA5, 0x3C] 0 0 (fresh [.lsbFirst, .msbFirst] [] [0x7E])) ∧
    (∀ r ∈ (holding [0xA5, 0x3C] 0 0 (fresh [.lsbFirst, .msbFirst] [] [0x7E])).regs,
      r.q = [0xA5, 0x3C].flatMap (expand r.order)) ∧
    (0 : Nat) + 8 * (3 + 1) < 2 ^ 64 :=
  ⟨⟨by decide, by unfold Lockstep; decide, by unfold DecoderBound; decide, by unfold CursorBound; decide,
    trivial⟩, by decide, by decide⟩
/-- A drain and a direct read, and a block whose counter cannot hold the byte. -/
theorem witness_ReadBytesResult :
    (Fit mixed ∧ mixed.delivered = 0 ∧ 5 = bitCount 0 mixed % 8 ∧ 1 = min 2 (bitCount 0 mixed / 8) ∧
      true = (decide (1 < 2) && !paddingBegun mixed) ∧
      1 = (if true then readCount mixed.params.srcFullRead (2 - 1) mixed.src else 0) ∧
      mixed.total.toNat + (5 + 8 * (1 + 1)) < 2 ^ 64) ∧
    (Fit (atEnd 4) ∧ 0 = bitCount 0 (atEnd 4) % 8 ∧ 1 = min 1 (bitCount 0 (atEnd 4) / 8) ∧
      false = (decide (1 < 1) && !paddingBegun (atEnd 4)) ∧
      2 ^ 64 ≤ (atEnd 4).total.toNat + (0 + 8 * (1 + 0))) :=
  ⟨⟨fit_mixed, rfl, by decide, by decide, by decide, by decide, by decide⟩,
    ⟨fit_atEnd_four, by decide, by decide, by decide, by decide⟩⟩
/-- Each clause: a byte buffered, its overflow, padding begun, no byte, a byte, its overflow, the overflow of
the alignment. -/
theorem witness_ReadByteResult :
    (Fit (atEnd 9) ∧ 8 ≤ bitCount 0 (atEnd 9) ∧ (atEnd 9).total.toNat + (0 + 8) < 2 ^ 64) ∧
    (Fit (atEnd 4) ∧ 8 ≤ bitCount 0 (atEnd 4) ∧ 2 ^ 64 ≤ (atEnd 4).total.toNat + (0 + 8)) ∧
    (Fit padding ∧ bitCount 0 padding < 8 ∧ paddingBegun padding = true ∧
      padding.total.toNat + 0 < 2 ^ 64) ∧
    (bitCount 0 (one []) < 8 ∧ SourceReady (one []) ∧
      nextBytes (readCount true 1 (one []).src) (one []).src = [] ∧ (one []).total.toNat + 0 < 2 ^ 64) ∧
    (bitCount 0 (one [7]) < 8 ∧ SourceReady (one [7]) ∧
      nextBytes (readCount true 1 (one [7]).src) (one [7]).src = [7] ∧
      (one [7]).total.toNat + (0 + 8) < 2 ^ 64) ∧
    2 ^ 64 ≤ (holding [] 0 (2 ^ 64 - 8) (one [7])).total.toNat + (0 + 8) ∧
    2 ^ 64 ≤ (holding [0xA5] 4 (2 ^ 64 - 4) (one [])).total.toNat +
      bitCount 0 (holding [0xA5] 4 (2 ^ 64 - 4) (one [])) % 8 :=
  ⟨⟨fit_atEnd_nine, by decide, by decide⟩, ⟨fit_atEnd_four, by decide, by decide⟩,
    ⟨fit_padding, by decide, by decide, by decide⟩, ⟨by decide, trivial, by decide, by decide⟩,
    ⟨by decide, trivial, by decide, by decide⟩, by decide, by decide⟩
theorem witness_BulkEqualsBitPath : Fit (atEnd 16) ∧ (atEnd 16).delivered = 0 ∧ bitCount 0 (atEnd 16) % 8 = 0 ∧
    paddingBegun (atEnd 16) = false ∧ (atEnd 16).src.waits = [] ∧ 8 ≤ (atEnd 16).params.maxReq ∧
    1 ≤ bitCount 0 (atEnd 16) / 8 + (nextBytes 1 (atEnd 16).src).length ∧
    (atEnd 16).total.toNat + 8 * 1 < 2 ^ 64 :=
  ⟨⟨by decide, by unfold Lockstep; decide, by unfold DecoderBound; decide, by unfold CursorBound; decide,
    trivial⟩, rfl, by decide, by decide, rfl, by decide, by decide, by decide⟩

/-! #### Whole-machine rules -/

theorem witness_StepKeepsInvariant : ∃ s t, Inv s ∧ step s = .next t := by
  obtain ⟨t, ht, -⟩ := next_of_nextSat (p := fun _ => true)
    (r := step { withWaits [] mixed with words := [.command 0x00100002] }) (by decide)
  exact ⟨_, t, inv_mixed [], ht⟩
/-- The largest number of registers. -/
theorem witness_StartHasInvariant : (cfg (List.replicate 256 .msbFirst) [0]).Legal := by
  have key : ∀ l : List BitOrder, l.length = 256 → (cfg l [0]).Legal := fun l h =>
    ⟨by show 1 ≤ l.length; omega, by show l.length ≤ 256; omega, rfl, by show 32 + 7 ≤ 64; decide,
      by show 64 ≤ 64; decide, by show 1 ≤ 65535; decide⟩
  exact key _ List.length_replicate
theorem witness_ReachableWithinCapacity :
    Reachable { connected Config.default ⟨[0xA5], .ends, 0, []⟩ with words := [.command 3] } :=
  .present _ 3 (.start Config.default ⟨[0xA5], .ends, 0, []⟩ (by decide))
theorem witness_CapacityNeverExceeded : ∃ t, CapacityBound fullest ∧ step fullest = .next t :=
  ⟨fullest, by unfold CapacityBound; decide, rfl⟩
theorem witness_RegisterContractNeverBroken : ∃ s, Inv s := ⟨_, inv_mixed [.forever]⟩
theorem witness_TotalNeverDecreases : ∃ t, mixed.config.Legal ∧ exec .align mixed = .next t ∧
    mixed.total ≠ t.total := by
  obtain ⟨t, ht, h⟩ := next_of_nextSat (r := exec .align mixed)
    (p := fun t => decide (mixed.total ≠ t.total)) (by decide)
  exact ⟨t, by decide, ht, of_decide_eq_true h⟩
/-- Padding has begun with a byte still in the source; RESET there; and no trailing bytes at all. -/
theorem witness_PaddingLatch :
    (∃ t, Fit padding ∧ exec (.decode 0 8) padding = .next t ∧ 0 < padding.cur.toNat) ∧
    (∃ t, exec .reset padding = .next t) ∧
    ∃ t, Fit mixed ∧ exec .readByte mixed = .next t ∧ mixed.params.tb = [] := by
  obtain ⟨t, ht, -⟩ := next_of_nextSat (r := exec (.decode 0 8) padding) (p := fun _ => true) (by decide)
  obtain ⟨u, hu, -⟩ := next_of_nextSat (r := exec .readByte mixed) (p := fun _ => true) (by decide)
  exact ⟨⟨t, fit_padding, ht, by decide⟩, ⟨_, rfl⟩, ⟨u, fit_mixed, hu, rfl⟩⟩
/-- A reserved opcode on the command port, and a reserved operation on a register port. -/
theorem witness_UsageChangesNothing :
    (∃ t, step { one [] with words := [.command 0x0000000F] } = .next t ∧
      t.resps = (one []).resps ++ [{ port := .command, status := 1, value := 1 }]) ∧
    ∃ t, step { one [] with words := [.regPort 0 0x000000] } = .next t ∧
      t.resps = (one []).resps ++ [{ port := .register 0, status := 1, value := 1 }] := by
  obtain ⟨t, ht, h⟩ := next_of_nextSat (r := step { one [] with words := [.command 0x0000000F] })
    (p := fun t => decide (t.resps = [{ port := .command, status := 1, value := 1 }])) (by decide)
  obtain ⟨u, hu, h'⟩ := next_of_nextSat (r := step { one [] with words := [.regPort 0 0x000000] })
    (p := fun t => decide (t.resps = [{ port := .register 0, status := 1, value := 1 }])) (by decide)
  exact ⟨⟨t, ht, of_decide_eq_true h⟩, ⟨u, hu, of_decide_eq_true h'⟩⟩
theorem witness_StatusProducers :
    (∃ t, tail.config.Legal ∧ exec (.peek 0 25) tail = .next t ∧
      t.resps = tail.resps ++ [{ port := .command, status := 2, value := 0 }]) ∧
    ∃ t, (one []).config.Legal ∧ exec .readByte (one []) = .next t ∧
      t.resps = (one []).resps ++ [{ port := .command, status := 3, value := 0 }] := by
  obtain ⟨t, ht, h⟩ := next_of_nextSat (r := exec (.peek 0 25) tail)
    (p := fun t => decide (t.resps = [{ port := .command, status := 2, value := 0 }])) (by decide)
  obtain ⟨u, hu, h'⟩ := next_of_nextSat (r := exec .readByte (one []))
    (p := fun t => decide (t.resps = [{ port := .command, status := 3, value := 0 }])) (by decide)
  exact ⟨⟨t, by decide, ht, of_decide_eq_true h⟩, ⟨u, by decide, hu, of_decide_eq_true h'⟩⟩
theorem witness_StreamsAdvance : ∃ t, mixed.config.Legal ∧ exec (.readBytes 2) mixed = .next t ∧
    t.dst ≠ mixed.dst := by
  obtain ⟨t, ht, h⟩ := next_of_nextSat (r := exec (.readBytes 2) mixed)
    (p := fun t => decide (t.dst ≠ [])) (by decide)
  exact ⟨t, by decide, ht, of_decide_eq_true h⟩
/-- A full read that is short, a full read of an endless stream, and a short-reading source. -/
theorem witness_SourceReadReturns :
    (SourceReady tail ∧ tail.params.srcFullRead = true ∧ tail.src.rest = .ends ∧
      min 2 tail.src.bytes.length < 2) ∧
    (SourceReady endless ∧ endless.params.srcFullRead = true ∧ endless.src.rest = .endless 0 7) ∧
    ∃ s : State, SourceReady s ∧ s.params.srcFullRead = false ∧ s.src.rest = .ends :=
  ⟨⟨trivial, rfl, rfl, by decide⟩, ⟨trivial, rfl, rfl⟩,
    ⟨{ one [7] with params := { Config.default.params with srcFullRead := false } }, trivial, rfl, rfl⟩⟩

end Sys2Proof.Tests
end

section
/-! The configuration is what no step changes (R7, R19), and what R8 refuses. -/

namespace Sys2Proof.Proofs

open Sys2Proof.Machine

/-! ### No operation on the state changes the configuration -/

@[simp] theorem responded_config (st : Status) (v : BitVec 64) (s : State) :
    (responded st v s).config = s.config := rfl

@[simp] theorem portResponded_config (i : Nat) (st : Status) (v : BitVec 64) (s : State) :
    (portResponded i st v s).config = s.config := rfl

@[simp] theorem waiting_config (i : Instr) (n : Nat) (ws : List Wait) (s : State) :
    (waiting i n ws s).config = s.config := rfl

@[simp] theorem dstWrite_config (bs : List Byte) (s : State) : (dstWrite bs s).config = s.config := rfl

@[simp] theorem acceptWord_config (w : PortWord) (rest : List PortWord) (s : State) :
    (acceptWord w rest s).config = s.config :=
  config_congr (by rw [acceptWord_regs]) (acceptWord_params w rest s)

@[simp] theorem fedState_config (count : Nat) (s : State) : (fedState count s).config = s.config :=
  config_congr (fedState_orders count s) rfl

@[simp] theorem consumed_config (n : Nat) (s : State) : (consumed n s).config = s.config :=
  config_congr (discardedRegs_orders n s) rfl

@[simp] theorem drained_config (n : Nat) (s : State) : (drained n s).config = s.config := by
  rw [drained, dstWrite_config, consumed_config]

/-- A direct read moves bytes from the source to the destination and counts them; the registers are
those the drain left. -/
@[simp] theorem bulkRead_config (m j : Nat) (s : State) : (bulkRead m j s).config = s.config :=
  calc (bulkRead m j s).config
    _ = (drained m (aligned s)).config := rfl
    _ = s.config := by rw [drained_config, consumed_config]

@[simp] theorem clearAll_config (s : State) : (clearAll s).config = s.config :=
  config_congr (by simp [Function.comp_def]) rfl

/-- One register may change its queue, but not its order. -/
theorem setReg_config {s : State} {p : Nat} {r r' : BitReg} (hr : s.regs[p]? = some r)
    (ho : r'.order = r.order) : { s with regs := s.regs.set p r' }.config = s.config := by
  refine config_congr ?_ rfl
  obtain ⟨hp, rfl⟩ := List.getElem?_eq_some_iff.mp hr
  apply List.ext_getElem (by simp)
  intro k _ _
  by_cases hk : p = k
  · subst hk
    simp [ho]
  · simp [hk]

/-! ### No instruction and no step changes it -/

theorem feedStops_config {i : Instr} {count : Nat} {s t : State} (h : FeedStops i count s t) :
    t.config = s.config := by
  cases h with
  | waits => exact waiting_config ..
  | insufficient => rw [responded_config, fedState_config]

theorem effect_config {i : Instr} {s t : State} (h : Effect s i t) : t.config = s.config := by
  cases h with
  | peekUsage | decodeUsage | totalIn => exact responded_config ..
  | peekStops _ _ _ _ _ h | decodeStops _ _ _ _ _ h => exact feedStops_config h
  | peekOk => rw [responded_config, fedState_config]
  | decodeOk => rw [responded_config, consumed_config, fedState_config]
  | align | byteEnd => rw [responded_config, consumed_config]
  | byteBuffered => rw [responded_config, consumed_config, consumed_config]
  | bulkBuffered => rw [responded_config, drained_config, consumed_config]
  | bulkWaits => rw [waiting_config, drained_config, consumed_config]
  | bulkDirect => rw [responded_config, bulkRead_config]
  | byteWaits => rw [waiting_config, consumed_config]
  | byteNone | byteDirect => exact consumed_config (bitCount 0 s % 8) s
  | clear | reset => exact clearAll_config s
  | port _ _ _ _ _ _ _ hr ho => rw [portResponded_config, setReg_config hr ho]

theorem exec_config {i : Instr} {s t : State} (hL : s.config.Legal) (h : exec i s = .next t) :
    t.config = s.config :=
  effect_config (exec_next (legal_tb hL) h)

theorem rejectWord_config {w : PortWord} {e : DecodeError} {s t : State}
    (h : rejectWord w e s = .next t) : t.config = s.config := by
  obtain ⟨_, _, rfl⟩ | ⟨_, _, _, rfl⟩ := rejectWord_next h
  · exact responded_config ..
  · exact portResponded_config ..

/-- Settles O14: a step runs an instruction, answers a word that is none, or changes nothing. -/
theorem configurationNeverChanges : Obligations.ConfigurationNeverChanges := by
  intro s t h
  obtain ⟨hL, hm⟩ := step_next h
  cases hm with
  | resumes i _ _ h => exact exec_config hL h
  | stuck _ _ h | idles _ _ h => rw [h]
  | runs w rest i _ _ _ h =>
    have hA : (acceptWord w rest s).config.Legal := by rwa [acceptWord_config]
    rw [exec_config hA h, acceptWord_config]
  | rejects w rest e _ _ _ h => rw [rejectWord_config h, acceptWord_config]

/-! ### Construction -/

theorem build_eq_refused {c : Config} (h : ¬ c.Legal) : build c = .refused .illegalConfiguration :=
  if_neg h

/-- Settles O13: each of R8's five conditions contradicts a part of `Config.Legal`. -/
theorem illegalConfigurationRefused : Obligations.IllegalConfigurationRefused := by
  intro c h
  refine build_eq_refused fun ⟨hn, _, horders, hcap, hcap64, htb⟩ => ?_
  rcases h with h | h | h | h | h <;> omega

end Sys2Proof.Proofs
end

section
/-! Bits and values: `expand` lists a byte's bits, `val` is their weighted sum (R11, R12). -/

namespace Sys2Proof.Proofs

open Sys2Proof.Machine

/-- A bit of a byte is a quotient and a remainder of its value (R9). -/
theorem getLsbD_eq_div_mod (b : Byte) (k : Nat) : b.getLsbD k = (b.toNat / 2 ^ k % 2 == 1) :=
  Nat.testBit_eq_decide_div_mod_eq

/-- Settles O15, bit by bit. -/
theorem expansionListsBits : Obligations.ExpansionListsBits := by
  intro b
  constructor
  · simp only [expand, getLsbD_eq_div_mod, List.map_cons, List.map_nil]
  · simp only [expand, getLsbD_eq_div_mod, List.map_cons, List.map_nil]

/-- The front bit is the least significant: each later bit weighs twice the one before. -/
theorem bitVal_lsbFirst_cons (b : Bool) (q : List Bool) (n : Nat) :
    bitVal .lsbFirst (b :: q) (n + 1) = b.toNat + 2 * bitVal .lsbFirst q n := rfl

/-- The front bit is the most significant: it weighs `2 ^ n` over `n` bits that are there. -/
theorem bitVal_msbFirst_cons (b : Bool) {q : List Bool} {n : Nat} (h : n ≤ q.length) :
    bitVal .msbFirst (b :: q) (n + 1) = b.toNat * 2 ^ n + bitVal .msbFirst q n := by
  simp only [bitVal, List.take_succ_cons, List.reverse_cons, lsbValue_append, List.length_reverse,
    List.length_take, Nat.min_eq_left h, lsbValue_cons, lsbValue_nil]
  ring

/-- A weighted sum over the first `n + 1` bits, the front bit's term taken out. -/
theorem weightedSum_cons (w : Nat → Nat) (b : Bool) (q : List Bool) (n : Nat) :
    ((List.range (n + 1)).map fun i => ((b :: q).getD i false).toNat * w i).sum =
      b.toNat * w 0 + ((List.range n).map fun i => (q.getD i false).toNat * w (i + 1)).sum := by
  simp [List.range_succ_eq_map, Function.comp_def]

/-- R12 for `LSB_FIRST`. -/
theorem bitVal_lsbFirst_eq_sum {q : List Bool} {n : Nat} (h : n ≤ q.length) :
    bitVal .lsbFirst q n = ((List.range n).map fun i => (q.getD i false).toNat * 2 ^ i).sum := by
  induction n generalizing q with
  | zero => simp
  | succ n ih =>
    obtain ⟨b, q, rfl⟩ := List.exists_cons_of_length_pos (by omega : 0 < q.length)
    have hn : n ≤ q.length := by simpa using h
    have hw (x i : Nat) : x * 2 ^ (i + 1) = 2 * (x * 2 ^ i) := by ring
    rw [bitVal_lsbFirst_cons, weightedSum_cons (2 ^ ·), ih hn, ← List.sum_map_mul_left]
    simp only [hw, Nat.pow_zero, Nat.mul_one]

/-- R12 for `MSB_FIRST`. -/
theorem bitVal_msbFirst_eq_sum {q : List Bool} {n : Nat} (h : n ≤ q.length) :
    bitVal .msbFirst q n =
      ((List.range n).map fun i => (q.getD i false).toNat * 2 ^ (n - 1 - i)).sum := by
  induction n generalizing q with
  | zero => simp
  | succ n ih =>
    obtain ⟨b, q, rfl⟩ := List.exists_cons_of_length_pos (by omega : 0 < q.length)
    have hn : n ≤ q.length := by simpa using h
    have hw (i : Nat) : n - 1 - i = n - (i + 1) := by omega
    rw [bitVal_msbFirst_cons b hn, weightedSum_cons (fun i => 2 ^ (n + 1 - 1 - i)), ih hn]
    simp only [hw, Nat.add_sub_cancel, Nat.sub_zero]

/-- Settles O16: the sums by induction on the number of bits, the rest by the laws of `val`. -/
theorem valueIsWeightedSum : Obligations.ValueIsWeightedSum :=
  ⟨fun _ _ h => ⟨bitVal_lsbFirst_eq_sum h, bitVal_msbFirst_eq_sum h⟩, bitVal_lt, bitVal_zero,
    fun o b => by simpa using bitVal_expand o b []⟩

end Sys2Proof.Proofs
end

section
/-! Where a run starts (R37, R123), and the register ports that are not there (R70). -/

namespace Sys2Proof.Proofs

open Sys2Proof.Machine

/-- Settles O22: each of the five operations goes through the port of its register. -/
theorem absentRegisterPortRefused : Obligations.AbsentRegisterPortRefused := by
  intro s p n data h
  simp only [exec, execRFeed, execRPeek, execRDiscard, execRCount, execRClear, onPort_absent h, and_self]

/-! ### The state a block is built in -/

theorem initial_config {c : Config} (h : c.Legal) : (State.initial c).config = c := by
  obtain ⟨-, -, horders, -⟩ := h
  simp [State.initial, State.config, Function.comp_def, horders]

theorem initial_regs_empty {c : Config} {r : BitReg} (h : r ∈ (State.initial c).regs) : r.q = [] := by
  obtain ⟨o, -, rfl⟩ := List.mem_map.mp h
  rfl

theorem cleared_regs_empty {s : State} {r : BitReg} (h : r ∈ (clearAll s).regs) : r.q = [] := by
  obtain ⟨r0, -, rfl⟩ := List.mem_map.mp h
  rfl

theorem build_eq_next {c : Config} (h : c.Legal) : build c = .next (State.initial c) := if_pos h

/-- Settles O12: power-on builds the initial state; RESET clears every register and both counters. -/
theorem resetState : Obligations.ResetState := by
  constructor
  · intro c hc
    exact ⟨_, build_eq_next hc, initial_config hc, fun _ => initial_regs_empty, rfl, rfl, rfl⟩
  · intro s
    exact ⟨_, rfl, clearAll_config s, fun _ => cleared_regs_empty, rfl, rfl, rfl⟩

/-- Empty registers, no word and no command: nothing of the invariant is left to break. -/
theorem connected_inv {c : Config} (hc : c.Legal) (src : Source) : Inv (connected c src) where
  legal := (initial_config hc).symm ▸ hc
  host := ⟨fun _ hw => (nomatch hw), fun _ hi => (nomatch hi)⟩
  content := ⟨[], 0, Nat.zero_le _, fun _ hr => initial_regs_empty hr⟩
  bound := fun _ hr => by rw [initial_regs_empty hr]; exact Nat.zero_le _
  cursor := Nat.zero_le _
  handshake := ⟨rfl, fun _ => rfl⟩

theorem default_legal : Config.default.Legal := by decide

/-- Settles O44: the reset state is the default block with its own source connected. -/
theorem startHasInvariant : Obligations.StartHasInvariant :=
  ⟨connected_inv default_legal State.reset.src, fun _ src hc => connected_inv hc src⟩

end Sys2Proof.Proofs
end

section
/-! What a command does to the registers, to `CUR` and to the handshake, each said once for all commands, and
from that the invariant of a block that a host drives (R20 to R31). -/

namespace Sys2Proof.Proofs

open Sys2Proof.Machine

/-! ### The registers -/

/-- All that a command does to the registers: a feed of at most `MAXREQ` bits and a discard that fits, either of
which may be empty, or a clear. -/
inductive RegsMove (s t : State) : Prop where
  | fedThenDiscarded (count n : Nat) (hcount : count ≤ s.params.maxReq)
      (hn : ∀ r ∈ (fedState count s).regs, n ≤ r.q.length)
      (h : t.regs = discardedRegs n (fedState count s))
  | cleared (h : t.regs = s.regs.map regClear)

/-- A feed of no bits does nothing. -/
@[simp] theorem fedState_zero (s : State) : fedState 0 s = s := (fedState_of_buffered (Nat.zero_le _)).1

theorem RegsMove.fed {s t : State} {count : Nat} (hcount : count ≤ s.params.maxReq)
    (h : t.regs = (fedState count s).regs) : RegsMove s t :=
  .fedThenDiscarded count 0 hcount (fun _ _ => Nat.zero_le _) (by rw [h, discardedRegs_zero])

theorem RegsMove.discarded {s t : State} {n : Nat} (hn : ∀ r ∈ s.regs, n ≤ r.q.length)
    (h : t.regs = discardedRegs n s) : RegsMove s t :=
  .fedThenDiscarded 0 n (Nat.zero_le _) (by rwa [fedState_zero]) (by rwa [fedState_zero])

theorem RegsMove.unchanged {s t : State} (h : t.regs = s.regs) : RegsMove s t :=
  .discarded (n := 0) (fun _ _ => Nat.zero_le _) (by rw [h, discardedRegs_zero])

/-- What can be discarded after alignment can be discarded with the bits alignment discards. -/
theorem RegsMove.alignedThenDiscarded {s t : State} {n : Nat}
    (hr : ∀ r ∈ s.regs, bitCount 0 s % 8 ≤ r.q.length) (hn : ∀ r ∈ (aligned s).regs, n ≤ r.q.length)
    (h : t.regs = discardedRegs n (aligned s)) : RegsMove s t := by
  refine .discarded (n := bitCount 0 s % 8 + n) (fun r hm => ?_) (by rw [h, discardedRegs_discarded rfl])
  have h1 := hr r hm
  have h2 := hn _ (List.mem_map_of_mem hm)
  rw [List.length_drop] at h2
  omega

theorem feedStops_regsMove {i : Instr} {count : Nat} {s t : State} (hcount : count ≤ s.params.maxReq)
    (h : FeedStops i count s t) : RegsMove s t := by
  cases h with
  | waits => exact .unchanged rfl
  | insufficient => exact .fed hcount rfl

theorem effect_regsMove {i : Instr} {s t : State} (hi : i.isCommand = true) (h : Effect s i t) :
    RegsMove s t := by
  cases h with
  | peekUsage | decodeUsage | totalIn => exact .unchanged rfl
  | peekStops _ _ _ _ hc h | decodeStops _ _ _ _ hc h => exact feedStops_regsMove hc h
  | peekOk _ _ _ hc => exact .fed hc rfl
  | decodeOk _ count _ hc _ _ _ hd =>
    exact .fedThenDiscarded count count hc (fun r hr => (hd r hr).2) rfl
  | align _ hq | byteEnd hq | byteWaits _ hq | byteNone _ hq | byteDirect _ _ _ hq =>
    exact .discarded hq rfl
  | bulkBuffered _ m _ _ hq hqm | bulkWaits _ m _ hq hqm | bulkDirect _ m _ _ _ hq hqm =>
    exact .alignedThenDiscarded (n := 8 * m) hq hqm rfl
  | byteBuffered hq hd => exact .alignedThenDiscarded (n := 8) hq (fun r hr => (hd r hr).2) rfl
  | clear | reset => exact .cleared rfl
  | port _ _ _ _ _ _ hp => rw [hp] at hi; cases hi

/-- R23 through a command: fed bytes join the list at its end, discarded bits join the count. -/
theorem RegsMove.content {s t : State} (h : RegsMove s t) (hc : Content s) : Content t := by
  cases h with
  | fedThenDiscarded count n _ hn h =>
    have hfed : Content (fedState count s) := content_fed hc rfl
    exact content_discarded hfed hn h
  | cleared h => exact content_cleared h

/-- R87's upper bound holds of every register. -/
theorem fedState_decoderBound {s : State} {count : Nat} (hl : Lockstep s) (hb : DecoderBound s)
    (hcount : count ≤ s.params.maxReq) : DecoderBound (fedState count s) := by
  intro r hr
  have h0 : 0 < s.regs.length := by simpa using List.length_pos_of_mem hr
  have hlFed : Lockstep (fedState count s) := lockstep_fed h0 hl rfl
  have hbefore := bitCount_le_bound h0 hb
  have hafter := fedState_le h0 count
  rw [hlFed r hr, fedState_params]
  omega

/-- R20's bound of the decoder through a command. -/
theorem RegsMove.decoderBound {s t : State} (h : RegsMove s t) (hl : Lockstep s) (hb : DecoderBound s)
    (hp : t.params = s.params) : DecoderBound t := by
  cases h with
  | fedThenDiscarded count n hcount _ h =>
    exact decoderBound_discarded (fedState_decoderBound hl hb hcount) h hp
  | cleared h =>
    intro r hr
    rw [h] at hr
    obtain ⟨r0, -, rfl⟩ := List.mem_map.mp hr
    exact Nat.zero_le _

/-! ### The cursor -/

/-- All that an instruction does to `CUR`: the feed's advance, which may be by nothing, or RESET's return to 0. -/
inductive CurMove (s : State) (i : Instr) (t : State) : Prop where
  | fed (count : Nat) (h : t.cur = (fedState count s).cur) (hi : i ≠ .reset)
  | reset (h : t.cur = 0) (hi : i = .reset)

theorem CurMove.unchanged {i : Instr} {s t : State} (h : t.cur = s.cur) (hi : i ≠ .reset) : CurMove s i t :=
  .fed 0 (by rw [h, fedState_zero]) hi

theorem feedStops_curMove {i : Instr} {count : Nat} {s t : State} (hi : i ≠ .reset)
    (h : FeedStops i count s t) : CurMove s i t := by
  cases h with
  | waits => exact .unchanged rfl hi
  | insufficient => exact .fed count rfl hi

theorem effect_curMove {i : Instr} {s t : State} (h : Effect s i t) : CurMove s i t := by
  cases h with
  | peekStops _ _ _ _ _ h | decodeStops _ _ _ _ _ h => exact feedStops_curMove (by simp) h
  | peekOk _ count | decodeOk _ count => exact .fed count rfl (by simp)
  | reset => exact .reset rfl rfl
  | port _ _ _ _ _ _ hp => exact .unchanged rfl (by rintro rfl; cases hp)
  | _ => exact .unchanged rfl (by simp)

/-- `CUR` never falls but by RESET, and stays within `T` (R29). -/
theorem CurMove.bounds {i : Instr} {s t : State} (h : CurMove s i t) (hT : s.params.tb.length ≤ 65535)
    (hc : CursorBound s) : t.cur.toNat ≤ s.params.tb.length ∧ (i ≠ .reset → s.cur.toNat ≤ t.cur.toNat) := by
  cases h with
  | fed count h =>
    obtain ⟨hcur, hle⟩ := fedState_cur_toNat hT hc count
    rw [h, hcur]
    exact ⟨hle, fun _ => Nat.le_add_right _ _⟩
  | reset h hi =>
    rw [h]
    exact ⟨Nat.zero_le _, fun hne => absurd hi hne⟩

/-! ### The handshake and the host's words -/

/-- How a command leaves the command port (R61, R120): it has responded, or it waits. -/
inductive PortMove (i : Instr) (t : State) : Prop where
  | responds (hbusy : t.busy = false) (hin : t.inFlight = none) (hd : t.delivered = 0)
  | waits (hbusy : t.busy = true) (hin : t.inFlight = some i)

theorem feedStops_portMove {i : Instr} {count : Nat} {s t : State} (h : FeedStops i count s t) :
    PortMove i t := by
  cases h with
  | waits => exact .waits rfl rfl
  | insufficient => exact .responds rfl rfl rfl

theorem effect_portMove {i : Instr} {s t : State} (hi : i.isCommand = true) (h : Effect s i t) :
    PortMove i t := by
  cases h with
  | peekStops _ _ _ _ _ h | decodeStops _ _ _ _ _ h => exact feedStops_portMove h
  | bulkWaits | byteWaits => exact .waits rfl rfl
  | port _ _ _ _ _ _ hp => rw [hp] at hi; cases hi
  | _ => exact .responds rfl rfl rfl

theorem PortMove.handshake {i : Instr} {t : State} (h : PortMove i t) : Handshake t := by
  cases h with
  | responds hbusy hin hd => exact ⟨by rw [hbusy, hin]; rfl, fun _ => hd⟩
  | waits hbusy hin => exact ⟨by rw [hbusy, hin]; rfl, fun hf => by rw [hbusy] at hf; cases hf⟩

/-- No instruction takes a presented word: the step does (R61). -/
theorem effect_words {i : Instr} {s t : State} (h : Effect s i t) : t.words = s.words := by
  cases h with
  | peekStops _ _ _ _ _ h | decodeStops _ _ _ _ _ h => cases h <;> rfl
  | _ => rfl

theorem PortMove.hostDriven {i : Instr} {t : State} (h : PortMove i t) (hi : i.isCommand = true)
    (hw : ∀ w ∈ t.words, isCommandWord w = true) : HostDriven t := by
  refine ⟨hw, fun i' hin' => ?_⟩
  cases h with
  | responds _ hin => rw [hin] at hin'; cases hin'
  | waits _ hin => rw [hin] at hin'; cases hin'; exact hi

/-! ### The invariant through a step -/

/-- The invariant without the handshake: what holds while a command runs, before it has responded. -/
structure Running (s : State) : Prop where
  legal : s.config.Legal
  words : ∀ w ∈ s.words, isCommandWord w = true
  content : Content s
  bound : DecoderBound s
  cursor : CursorBound s

theorem running_of_inv {s : State} (h : Inv s) : Running s :=
  ⟨h.legal, h.host.1, h.content, h.bound, h.cursor⟩

/-- Taking a word leaves the words behind it. -/
theorem acceptWord_running {s : State} {w : PortWord} {rest : List PortWord} (h : Running s)
    (hw : s.words = w :: rest) : Running (acceptWord w rest s) where
  legal := by rw [acceptWord_config]; exact h.legal
  words := fun w' hw' => h.words w' (by rw [hw]; exact List.mem_cons_of_mem _ (acceptWord_words w rest s ▸ hw'))
  content := content_congr h.content (acceptWord_regs w rest s)
  bound := fun r hr => by
    rw [acceptWord_params]
    exact h.bound r (acceptWord_regs w rest s ▸ hr)
  cursor := by
    have hc : s.cur.toNat ≤ s.params.tb.length := h.cursor
    rwa [CursorBound, acceptWord_cur, acceptWord_params]

/-- A command that runs from the invariant's registers and cursor answers a state with the whole invariant. -/
theorem exec_inv {i : Instr} {s t : State} (h : Running s) (hi : i.isCommand = true)
    (he : exec i s = .next t) : Inv t := by
  have hE : Effect s i t := exec_next (legal_tb h.legal) he
  have hcfg : t.config = s.config := effect_config hE
  have hp : t.params = s.params := congrArg Config.params hcfg
  have hport := effect_portMove hi hE
  have hregs := effect_regsMove hi hE
  have hcur := (effect_curMove hE).bounds (legal_tb h.legal) h.cursor
  exact {
    legal := hcfg ▸ h.legal
    host := hport.hostDriven hi (effect_words hE ▸ h.words)
    content := hregs.content h.content
    bound := hregs.decoderBound (lockstep_of_content h.content) h.bound hp
    cursor := by rw [CursorBound, hp]; exact hcur.1
    handshake := hport.handshake }

/-- A response ends the command and changes nothing else. -/
theorem responded_inv {s : State} (h : Running s) (st : Status) (v : BitVec 64) : Inv (responded st v s) where
  legal := h.legal
  host := ⟨h.words, fun _ hi => by cases hi⟩
  content := h.content
  bound := h.bound
  cursor := h.cursor
  handshake := ⟨rfl, fun _ => rfl⟩

/-- Settles O43: a step goes on with the command in progress, runs or rejects the next command word, or does
nothing. -/
theorem stepKeepsInvariant : Obligations.StepKeepsInvariant := by
  intro s t hs hstep
  obtain ⟨-, hm⟩ := step_next hstep
  cases hm with
  | resumes i _ hi he => exact exec_inv (running_of_inv hs) (hs.host.2 i hi) he
  | stuck _ _ h | idles _ _ h => exact h ▸ hs
  | runs w rest i _ hw hd he =>
    have hcmd : isCommandWord w = true := hs.host.1 w (by simp [hw])
    cases w with
    | command c =>
      obtain ⟨-, hi⟩ := Laws.DecodedWellFormed.of_command hd
      exact exec_inv (acceptWord_running (running_of_inv hs) hw) hi he
    | regPort p u => cases hcmd
  | rejects w rest e _ hw _ he =>
    have hcmd : isCommandWord w = true := hs.host.1 w (by simp [hw])
    obtain ⟨c, rfl, rfl⟩ | ⟨p, u, rfl, -⟩ := rejectWord_next he
    · exact responded_inv (acceptWord_running (running_of_inv hs) hw) _ _
    · cases hcmd

end Sys2Proof.Proofs
end

section
/-! What follows from the invariant and from what each instruction can do: capacity in every reachable state
(R20, R22), the counter (R26) and the padding latch (R30). -/

namespace Sys2Proof.Proofs

open Sys2Proof.Machine

/-! ### Reachable states -/

/-- A command word presented last is one more word of the command port. -/
theorem presented_inv {s : State} (h : Inv s) (w : CommandWord) :
    Inv { s with words := s.words ++ [.command w] } where
  legal := h.legal
  host := by
    refine ⟨fun w' hw' => ?_, h.host.2⟩
    rcases List.mem_append.mp hw' with hw' | hw'
    · exact h.host.1 w' hw'
    · rw [List.mem_singleton.mp hw']
      rfl
  content := h.content
  bound := h.bound
  cursor := h.cursor
  handshake := h.handshake

theorem reachable_inv {s : State} (h : Reachable s) : Inv s := by
  induction h with
  | start c src hc => exact connected_inv hc src
  | present s w _ ih => exact presented_inv ih w
  | step s t _ hs ih => exact stepKeepsInvariant s t ih hs

/-- Settles O45, by the invariant. -/
theorem reachableWithinCapacity : Obligations.ReachableWithinCapacity := by
  intro s hs
  have hi := reachable_inv hs
  exact ⟨capacityBound_of_decoderBound hi.legal hi.bound, hi.bound, lockstep_of_content hi.content⟩

/-! ### The counter -/

/-- The four commands that advance `TOTAL` (R26). -/
def advancesTotal (i : Instr) : Prop :=
  (∃ reg count, i = .decode reg count) ∨ i = .align ∨ i = .readByte ∨ ∃ room, i = .readBytes room

/-- All that an instruction other than RESET does to `TOTAL`: nothing, or an advance within 64 bits by one of
four commands. -/
inductive TotalMove (s : State) (i : Instr) (t : State) : Prop where
  | unchanged (h : t.total = s.total)
  | advanced (n : Nat) (hi : advancesTotal i) (hn : s.total.toNat + n < 2 ^ 64)
      (h : t.total = s.total + BitVec.ofNat 64 n)

theorem feedStops_total {i : Instr} {count : Nat} {s t : State} (h : FeedStops i count s t) :
    t.total = s.total := by
  cases h <;> rfl

theorem decode_advancesTotal (reg count : Nat) : advancesTotal (.decode reg count) := .inl ⟨reg, count, rfl⟩
theorem align_advancesTotal : advancesTotal .align := .inr (.inl rfl)
theorem readByte_advancesTotal : advancesTotal .readByte := .inr (.inr (.inl rfl))
theorem readBytes_advancesTotal (room : Nat) : advancesTotal (.readBytes room) :=
  .inr (.inr (.inr ⟨room, rfl⟩))

theorem drained_aligned_total (m : Nat) (s : State) :
    (drained m (aligned s)).total = s.total + BitVec.ofNat 64 (bitCount 0 s % 8 + 8 * m) :=
  total_add_add s.total (bitCount 0 s % 8) (8 * m)

theorem bulkRead_total (m j : Nat) (s : State) :
    (bulkRead m j s).total = s.total + BitVec.ofNat 64 (bitCount 0 s % 8 + 8 * m + 8 * j) :=
  calc (bulkRead m j s).total
    _ = (drained m (aligned s)).total + BitVec.ofNat 64 (8 * j) := rfl
    _ = s.total + BitVec.ofNat 64 (bitCount 0 s % 8 + 8 * m + 8 * j) := by
      rw [drained_aligned_total, total_add_add]

theorem effect_totalMove {i : Instr} {s t : State} (hi : i ≠ .reset) (h : Effect s i t) : TotalMove s i t := by
  cases h with
  | peekStops _ _ _ _ _ h | decodeStops _ _ _ _ _ h => exact .unchanged (feedStops_total h)
  | decodeOk reg count _ _ _ _ ht => exact .advanced count (decode_advancesTotal reg count) ht rfl
  | align ht => exact .advanced _ align_advancesTotal ht rfl
  | bulkBuffered room m _ _ _ _ _ ht | bulkWaits room m _ _ _ _ _ ht =>
    exact .advanced _ (readBytes_advancesTotal room) (by omega) (drained_aligned_total m s)
  | bulkDirect room m j _ _ _ _ _ _ ht =>
    exact .advanced _ (readBytes_advancesTotal room) (by omega) (bulkRead_total m j s)
  | byteEnd _ ht | byteWaits _ _ _ ht | byteNone _ _ _ ht => exact .advanced _ readByte_advancesTotal ht rfl
  | byteBuffered _ _ ht | byteDirect _ _ _ _ _ ht =>
    exact .advanced _ readByte_advancesTotal (by omega) (total_add_add s.total (bitCount 0 s % 8) 8)
  | reset => exact absurd rfl hi
  | _ => exact .unchanged rfl

/-- Settles O48: an advance within 64 bits is no decrease. -/
theorem totalNeverDecreases : Obligations.TotalNeverDecreases := by
  intro s t i hL he hi
  cases effect_totalMove hi (exec_next (legal_tb hL) he) with
  | unchanged h => exact ⟨by rw [h], fun hne => absurd h.symm hne⟩
  | advanced n hadv hn h =>
    refine ⟨?_, fun _ => hadv⟩
    rw [h, total_add_toNat hn]
    exact Nat.le_add_right _ _

/-! ### The padding latch -/

/-- A feed once padding has begun makes no source read (R30, R85). -/
theorem noRead_of_padding {count : Nat} {s : State} (h : paddingBegun s = true) : noRead count s = true := by
  rw [noRead, h, Bool.or_true]

theorem fedState_src_of_padding {count : Nat} {s : State} (h : paddingBegun s = true) :
    (fedState count s).src = s.src := by
  rw [fedState_src, noRead_of_padding h, if_pos rfl]

theorem feedStops_src_of_padding {i : Instr} {count : Nat} {s t : State} (hp : paddingBegun s = true)
    (h : FeedStops i count s t) : t.src = s.src := by
  cases h with
  | waits _ hn => rw [noRead_of_padding hp] at hn; cases hn
  | insufficient => exact fedState_src_of_padding hp

/-- Each source read stands behind a test that padding has not begun. -/
theorem effect_src_of_padding {i : Instr} {s t : State} (hp : paddingBegun s = true) (h : Effect s i t) :
    t.src = s.src := by
  cases h with
  | peekStops _ _ _ _ _ h | decodeStops _ _ _ _ _ h => exact feedStops_src_of_padding hp h
  | peekOk | decodeOk => exact fedState_src_of_padding hp
  | bulkWaits _ _ _ _ _ _ _ _ hp' | bulkDirect _ _ _ _ _ _ _ _ _ _ hp' | byteWaits _ _ _ _ hp'
  | byteNone _ _ _ _ hp' | byteDirect _ _ _ _ _ _ hp' => rw [hp] at hp'; cases hp'
  | _ => rfl

/-- Settles O49, by what an instruction does to `CUR` and by the test before each source read. -/
theorem paddingLatch : Obligations.PaddingLatch := by
  intro s t i hL hc he
  have hE : Effect s i t := exec_next (legal_tb hL) he
  obtain ⟨hle, hge⟩ := (effect_curMove hE).bounds (legal_tb hL) hc
  refine ⟨fun hcur => ?_, fun hcur hi => lt_of_lt_of_le hcur (hge hi), fun hi => ?_, fun htb => ?_⟩
  · exact effect_src_of_padding (by rw [paddingBegun_eq, decide_eq_true hcur]) hE
  · cases effect_curMove hE with
    | fed _ _ hne => exact absurd hi hne
    | reset h => exact h
  · rw [htb, List.length_nil, Nat.le_zero] at hle
    exact BitVec.eq_of_toNat_eq hle

end Sys2Proof.Proofs
end

section
/-! Capacity (R20) holds in every state, lockstep or not: a feed that goes past it ends in the fault of R83. -/

namespace Sys2Proof.Proofs

open Sys2Proof.Machine

/-! ### Capacity through a feed -/

/-- Every state that a part of a command goes on with, or ends the command with, is within capacity. -/
def FlowInCapacity (x : Flow State) : Prop :=
  (∀ t, x = .ok t → CapacityBound t) ∧ ∀ t, x = .error (.next t) → CapacityBound t

theorem flowInCapacity_ok {s : State} (h : CapacityBound s) : FlowInCapacity (.ok s) :=
  ⟨fun _ ht => Except.ok.inj ht ▸ h, fun _ ht => nomatch ht⟩

theorem flowInCapacity_bind {x : Flow State} {f : State → Flow State} (hx : FlowInCapacity x)
    (hf : ∀ s, CapacityBound s → FlowInCapacity (f s)) : FlowInCapacity (x >>= f) := by
  constructor
  · intro t h
    obtain ⟨s, hs, h⟩ := flow_bind_ok.mp h
    exact (hf s (hx.1 s hs)).1 t h
  · intro t h
    obtain h | ⟨s, hs, h⟩ := flow_bind_error.mp h
    · exact hx.2 t h
    · exact (hf s (hx.1 s hs)).2 t h

/-- R76's check: a byte that was fed had room. -/
theorem feedAll_inCapacity (b : Byte) (s : State) : FlowInCapacity (feedAll b s) := by
  constructor
  · intro t h
    obtain ⟨hfits, rfl⟩ := feedAll_ok h
    intro r hr
    obtain ⟨r0, hr0, rfl⟩ := List.mem_map.mp hr
    rw [fedReg_q_length]
    exact hfits r0 hr0
  · intro t h
    cases feedAll_error h

theorem feedBytes_inCapacity (bs : List Byte) {s : State} (hs : CapacityBound s) :
    FlowInCapacity (feedBytes bs s) := by
  induction bs generalizing s with
  | nil => exact flowInCapacity_ok hs
  | cons b bs ih => exact flowInCapacity_bind (feedAll_inCapacity b s) fun _ h1 => ih h1

theorem feedTrailing_inCapacity (rem : Nat) {s : State} (hs : CapacityBound s) :
    FlowInCapacity (feedTrailing rem s) := by
  induction rem generalizing s with
  | zero => exact flowInCapacity_ok hs
  | succ rem ih =>
    unfold feedTrailing
    split
    · refine ⟨fun _ h => (nomatch h), fun t h => ?_⟩
      cases h
      exact hs
    · next b _ => exact flowInCapacity_bind (feedAll_inCapacity b s) fun _ h1 => ih h1

theorem ensure_inCapacity (i : Instr) (count : Nat) {s : State} (hs : CapacityBound s) :
    FlowInCapacity (ensure i count s) := by
  by_cases hb : count ≤ bitCount 0 s
  · rw [ensure, if_pos hb]
    exact flowInCapacity_ok hs
  cases hp : paddingBegun s with
  | true =>
    rw [ensure_of_padding hb hp]
    exact feedTrailing_inCapacity _ hs
  | false =>
    have hn : noRead count s = false := by simp [noRead, hp, needBytes_eq_zero, hb]
    rw [ensure_of_read hn]
    by_cases hready : SourceReady s
    · rw [srcRead_eq hready]
      exact flowInCapacity_bind (feedBytes_inCapacity _ hs) fun _ h2 => feedTrailing_inCapacity _ h2
    · obtain ⟨ws, hw⟩ := srcRead_not_ready (i := i) (n := 0) (k := needBytes count s) hready
      rw [hw]
      refine ⟨fun _ h => (nomatch h), fun t h => ?_⟩
      cases h
      exact hs

/-- A feed that does not end in a fault leaves every register within capacity. -/
theorem fedState_inCapacity {i : Instr} {count : Nat} {s : State} (hT : s.params.tb.length ≤ 65535)
    (hs : CapacityBound s) (hw : noRead count s = true ∨ SourceReady s)
    (hnf : ∀ f, ensure i count s ≠ .error (.fault f)) : CapacityBound (fedState count s) := by
  obtain ⟨hok, herr⟩ := ensure_inCapacity i count hs
  cases he : ensure i count s with
  | ok t => exact (ensure_ok hT he).1 ▸ hok t he
  | error r =>
    obtain rfl | ⟨hn, hr, -⟩ | ⟨-, -, rfl⟩ := ensure_error hT he
    · exact absurd he (hnf _)
    · rw [hn] at hw
      exact absurd (hw.resolve_left Bool.false_ne_true) hr
    · exact herr (responded .insufficient 0 (fedState count s)) he

/-- A command that answers a next state has not ended in a fault on its way. -/
theorem ne_fault_of_runCommand {x : Flow State} {f : State → Flow Result} {t : State}
    (h : runCommand (x >>= f) = .next t) (e : Fault) : x ≠ .error (.fault e) := by
  rintro rfl
  cases h

theorem ensure_ne_fault_of_peek {reg count : Nat} {s t : State} (hr : reg < s.regs.length)
    (hc : count ≤ s.params.maxReq) (h : exec (.peek reg count) s = .next t) (e : Fault) :
    ensure (.peek reg count) count s ≠ .error (.fault e) := by
  simp only [exec, execPeek, bitCommandCheck_eq_none.mpr ⟨hr, hc⟩] at h
  exact ne_fault_of_runCommand h e

theorem ensure_ne_fault_of_decode {reg count : Nat} {s t : State} (hr : reg < s.regs.length)
    (hc : count ≤ s.params.maxReq) (h : exec (.decode reg count) s = .next t) (e : Fault) :
    ensure (.decode reg count) count s ≠ .error (.fault e) := by
  simp only [exec, execDecode, bitCommandCheck_eq_none.mpr ⟨hr, hc⟩] at h
  exact ne_fault_of_runCommand h e

/-! ### Capacity through the other operations -/

theorem capacityBound_discarded {s t : State} {n : Nat} (hs : CapacityBound s)
    (h : t.regs = discardedRegs n s) (hp : t.params = s.params) : CapacityBound t := by
  intro r hr
  rw [h] at hr
  obtain ⟨r0, hr0, rfl⟩ := List.mem_map.mp hr
  rw [hp, List.length_drop]
  exact (Nat.sub_le _ _).trans (hs r0 hr0)

theorem capacityBound_cleared {s t : State} (h : t.regs = s.regs.map regClear) : CapacityBound t := by
  intro r hr
  rw [h] at hr
  obtain ⟨r0, -, rfl⟩ := List.mem_map.mp hr
  exact Nat.zero_le _

theorem capacityBound_setReg {s : State} {p : Nat} {r' : BitReg} (hs : CapacityBound s)
    (hr' : r'.q.length ≤ s.params.cap) : CapacityBound { s with regs := s.regs.set p r' } := by
  intro r hr
  obtain hr | rfl := List.mem_or_eq_of_mem_set hr
  · exact hs r hr
  · exact hr'

theorem feedStops_capacityBound {i : Instr} {count : Nat} {s t : State} (hT : s.params.tb.length ≤ 65535)
    (hs : CapacityBound s) (hnf : ∀ f, ensure i count s ≠ .error (.fault f)) (h : FeedStops i count s t) :
    CapacityBound t := by
  cases h with
  | waits => exact hs
  | insufficient _ hw => exact fedState_inCapacity (i := i) hT hs hw hnf

theorem exec_capacityBound {i : Instr} {s t : State} (hT : s.params.tb.length ≤ 65535)
    (hs : CapacityBound s) (he : exec i s = .next t) : CapacityBound t := by
  cases exec_next hT he with
  | peekStops _ _ _ hr hc h => exact feedStops_capacityBound hT hs (ensure_ne_fault_of_peek hr hc he) h
  | decodeStops _ _ _ hr hc h => exact feedStops_capacityBound hT hs (ensure_ne_fault_of_decode hr hc he) h
  | peekOk _ _ hr hc _ hw => exact fedState_inCapacity hT hs hw (ensure_ne_fault_of_peek hr hc he)
  | decodeOk _ count hr hc _ hw =>
    have hfed := fedState_inCapacity hT hs hw (ensure_ne_fault_of_decode hr hc he)
    exact capacityBound_discarded hfed (n := count) rfl rfl
  | peekUsage | decodeUsage | totalIn => exact hs
  | align | byteEnd | byteWaits | byteNone | byteDirect =>
    exact capacityBound_discarded hs (n := bitCount 0 s % 8) rfl rfl
  | bulkBuffered _ m | bulkWaits _ m | bulkDirect _ m =>
    have haligned : CapacityBound (aligned s) := capacityBound_discarded hs rfl rfl
    exact capacityBound_discarded haligned (n := 8 * m) rfl rfl
  | byteBuffered =>
    have haligned : CapacityBound (aligned s) := capacityBound_discarded hs rfl rfl
    exact capacityBound_discarded haligned (n := 8) rfl rfl
  | clear | reset => exact capacityBound_cleared (s := s) rfl
  | port _ _ _ _ r _ _ hr _ hq => exact capacityBound_setReg hs (hq (hs r (List.mem_of_getElem? hr)))

theorem acceptWord_capacityBound {s : State} (w : PortWord) (rest : List PortWord) (hs : CapacityBound s) :
    CapacityBound (acceptWord w rest s) := by
  intro r hr
  rw [acceptWord_params]
  exact hs r (acceptWord_regs w rest s ▸ hr)

theorem rejectWord_capacityBound {w : PortWord} {e : DecodeError} {s t : State} (hs : CapacityBound s)
    (h : rejectWord w e s = .next t) : CapacityBound t := by
  obtain ⟨_, _, rfl⟩ | ⟨_, _, _, rfl⟩ := rejectWord_next h
  · exact hs
  · exact hs

/-- Settles O46: what a step runs keeps the bound, from the state with the word taken. -/
theorem capacityNeverExceeded : Obligations.CapacityNeverExceeded := by
  intro s t hs hstep
  obtain ⟨hL, hm⟩ := step_next hstep
  cases hm with
  | resumes i _ _ he => exact exec_capacityBound (legal_tb hL) hs he
  | stuck _ _ h | idles _ _ h => exact h ▸ hs
  | runs w rest i _ _ _ he =>
    have hT : (acceptWord w rest s).params.tb.length ≤ 65535 := by
      rw [acceptWord_params]
      exact legal_tb hL
    exact exec_capacityBound hT (acceptWord_capacityBound w rest hs) he
  | rejects w rest e _ _ _ he => exact rejectWord_capacityBound (acceptWord_capacityBound w rest hs) he

end Sys2Proof.Proofs
end

section
/-! DECODE in closed form (R90), and what a sequence of DECODEs answers (R53). -/

namespace Sys2Proof.Proofs

open Sys2Proof.Machine

/-! ### DECODE -/

section Decode

variable {s : State} {reg count : Nat}

/-- R66's last two checks passed, DECODE is its feed and what follows it. -/
theorem exec_decode_eq (hreg : reg < s.regs.length) (hcount : count ≤ s.params.maxReq) :
    exec (.decode reg count) s = runCommand (do
      let s1 ← ensure (.decode reg count) count s
      let v ← peekReg reg count s1
      let s2 ← addTotal count s1
      let s3 ← discardAll count s2
      pure (respond .ok (BitVec.ofNat 64 v) s3)) := by
  simp only [exec, execDecode, bitCommandCheck_eq_none.mpr ⟨hreg, hcount⟩]

/-- After a feed that was enough every register holds `count` bits. -/
theorem count_le_fed_queue (hl : Lockstep s) (hs : (supply count s).length = needBytes count s)
    {r : BitReg} (hr : r ∈ (fedState count s).regs) : count ≤ r.q.length := by
  have h0 : 0 < s.regs.length := by simpa using List.length_pos_of_mem hr
  have hlFed : Lockstep (fedState count s) := lockstep_fed h0 hl rfl
  rw [hlFed r hr]
  exact count_le_fedState h0 hs

theorem fedState_peekReg (hL : s.config.Legal) (hl : Lockstep s) (hreg : reg < s.regs.length)
    (hcount : count ≤ s.params.maxReq) (hs : (supply count s).length = needBytes count s) :
    peekReg reg count (fedState count s) = .ok (frontValue reg count (fedState count s)) := by
  have hreg' : reg < (fedState count s).regs.length := by simpa using hreg
  have hcap := (legal_cap hL).1
  exact peekReg_eq (List.getElem?_eq_getElem hreg') (by rw [fedState_params]; omega)
    (count_le_fed_queue hl hs (List.getElem_mem hreg'))

theorem fedState_canDiscard (hL : s.config.Legal) (hl : Lockstep s) (hcount : count ≤ s.params.maxReq)
    (hs : (supply count s).length = needBytes count s) : CanDiscard count (fedState count s) := by
  have hcap := (legal_cap hL).1
  exact fun r hr => ⟨by rw [fedState_params]; omega, count_le_fed_queue hl hs hr⟩

/-- `Ensure(count)` within a request of `MAXREQ` bits (R85, R87). -/
theorem ensure_eq_of_bound {i : Instr} (hL : s.config.Legal) (hl : Lockstep s) (hb : DecoderBound s)
    (hcount : count ≤ s.params.maxReq) (hw : noRead count s = true ∨ SourceReady s) :
    ensure i count s =
      if (supply count s).length = needBytes count s then .ok (fedState count s)
      else .error (raiseInsufficient (fedState count s)) :=
  ensure_eq (legal_tb hL) (fits_needBytes hL hl hb hcount) hw

theorem exec_decode_of_supply (hL : s.config.Legal) (hl : Lockstep s) (hb : DecoderBound s)
    (hreg : reg < s.regs.length) (hcount : count ≤ s.params.maxReq)
    (hw : noRead count s = true ∨ SourceReady s) (hs : (supply count s).length = needBytes count s)
    (ht : s.total.toNat + count < 2 ^ 64) :
    exec (.decode reg count) s =
      .next (answered 0 (BitVec.ofNat 64 (frontValue reg count (fedState count s)))
        (consumed count (fedState count s))) := by
  have hadv : (addTotal count (fedState count s) >>= discardAll count) =
      .ok (consumed count (fedState count s)) :=
    addTotal_discardAll_eq (fedState_canDiscard hL hl hcount hs) ht
  rw [exec_decode_eq hreg hcount, ensure_eq_of_bound hL hl hb hcount hw, if_pos hs, flow_ok_bind,
    fedState_peekReg hL hl hreg hcount hs, flow_ok_bind, ← bind_assoc, hadv]
  rfl

theorem exec_decode_overflow (hL : s.config.Legal) (hl : Lockstep s) (hb : DecoderBound s)
    (hreg : reg < s.regs.length) (hcount : count ≤ s.params.maxReq)
    (hw : noRead count s = true ∨ SourceReady s) (hs : (supply count s).length = needBytes count s)
    (ht : 2 ^ 64 ≤ s.total.toNat + count) : exec (.decode reg count) s = .fault .totalOverflow := by
  have hover : addTotal count (fedState count s) = .error (.fault .totalOverflow) := addTotal_overflow ht
  rw [exec_decode_eq hreg hcount, ensure_eq_of_bound hL hl hb hcount hw, if_pos hs, flow_ok_bind,
    fedState_peekReg hL hl hreg hcount hs, flow_ok_bind, hover]
  rfl

theorem exec_decode_insufficient (hL : s.config.Legal) (hl : Lockstep s) (hb : DecoderBound s)
    (hreg : reg < s.regs.length) (hcount : count ≤ s.params.maxReq)
    (hw : noRead count s = true ∨ SourceReady s) (hs : (supply count s).length ≠ needBytes count s) :
    exec (.decode reg count) s = .next (answered 2 0 (fedState count s)) := by
  rw [exec_decode_eq hreg hcount, ensure_eq_of_bound hL hl hb hcount hw, if_neg hs]
  rfl

end Decode

/-- A value of at most `MAXREQ` bits fits the response. -/
theorem frontValue_toNat_of_legal {s t : State} {reg count : Nat} (hL : s.config.Legal)
    (hcount : count ≤ s.params.maxReq) :
    (BitVec.ofNat 64 (frontValue reg count t)).toNat = frontValue reg count t := by
  obtain ⟨h1, h2⟩ := legal_cap hL
  exact frontValue_toNat (by omega)

/-- Settles O25: enough bytes within the counter, enough bytes beyond it, too few bytes. -/
theorem decodeResult : Obligations.DecodeResult := by
  intro s reg count hL hl hb hreg hcount hw
  refine ⟨fun hs ht => ⟨_, frontValue_toNat_of_legal hL hcount, ?_⟩, fun hs ht => ?_, fun hs => ?_⟩
  · exact exec_decode_of_supply hL hl hb hreg hcount hw hs ht
  · exact exec_decode_overflow hL hl hb hreg hcount hw hs ht
  · exact exec_decode_insufficient hL hl hb hreg hcount hw hs

/-! ### The stream through a DECODE -/

/-- A value looks at the first `p + n` bits alone. -/
theorem bitVal_drop_congr {q q' : List Bool} (o : BitOrder) {p n : Nat}
    (h : q.take (p + n) = q'.take (p + n)) : bitVal o (q.drop p) n = bitVal o (q'.drop p) n := by
  have hdrop : (q.drop p).take n = (q'.drop p).take n := by
    rw [List.take_drop, List.take_drop, h]
  cases o <;> rw [bitVal, bitVal, hdrop]

/-- Bytes beyond the `m` coming ones that hold the first `k` bits do not change them. -/
theorem streamBits_take {m n k : Nat} {r : BitReg} {s : State} (hmn : m ≤ n) (hk : k ≤ r.q.length + 8 * m) :
    (streamBits n r s).take k = (streamBits m r s).take k := by
  obtain ⟨d, rfl⟩ := Nat.exists_eq_add_of_le hmn
  by_cases hshort : (comingBytes m s).length < m
  · rw [streamBits, streamBits, comingBytes_exhausted hshort]
  · have hfull : (comingBytes m s).length = m :=
      Nat.le_antisymm (comingBytes_length_le m s) (Nat.le_of_not_lt hshort)
    have hsplit : comingBytes (m + d) s = comingBytes m s ++ (comingBytes (m + d) s).drop m := by
      rw [← comingBytes_take hmn s, List.take_append_drop]
    rw [streamBits, streamBits, hsplit, List.flatMap_append, ← List.append_assoc,
      List.take_append_of_le_length]
    rw [List.length_append, expandAll_length, hfull]
    exact hk

/-- Where more bits can be supplied, fewer can. -/
theorem canSupply_mono {m n : Nat} {s : State} (hmn : m ≤ n) (h : CanSupply n s) : CanSupply m s := by
  unfold CanSupply at *
  have hle := comingBytes_length_le m s
  by_cases hshort : (comingBytes m s).length < m
  · have := comingBytes_length_short hshort n
    omega
  · omega

/-- A legal block in lockstep within its bounds, with a full-read source that makes no read wait. -/
structure Streaming (s : State) : Prop where
  legal : s.config.Legal
  lockstep : Lockstep s
  bound : DecoderBound s
  cursor : CursorBound s
  fullRead : s.params.srcFullRead = true
  waits : s.src.waits = []

theorem Streaming.sourceReady {s : State} (h : Streaming s) : SourceReady s := sourceReady_iff.mpr (.inl h.waits)

theorem Streaming.supply_of_canSupply {s : State} {count : Nat} (h : Streaming s) (hs : CanSupply count s) :
    (supply count s).length = needBytes count s := by
  rw [supply_of_fullRead count h.fullRead]
  exact (canSupply_iff count s).mp hs

/-- `t` is what a DECODE of `count` bits that was answered `OK` leaves of `s`. -/
structure Decoded (count : Nat) (s t : State) : Prop where
  enough : (supply count s).length = needBytes count s
  regs : t.regs = discardedRegs count (fedState count s)
  cur : t.cur = (fedState count s).cur
  src : t.src = (fedState count s).src
  params : t.params = s.params

theorem decoded_config {s t : State} {count : Nat} (ht : Decoded count s t) : t.config = s.config :=
  calc t.config
    _ = (consumed count (fedState count s)).config := config_congr (by rw [ht.regs]; rfl) ht.params
    _ = s.config := by rw [consumed_config, fedState_config]

section Decoded

variable {s t : State} {count : Nat} (hs : Streaming s) (ht : Decoded count s t)
include hs ht

theorem decoded_waits : t.src.waits = [] := by
  rw [ht.src, fedState_src]
  split
  · exact hs.waits
  · rw [sourceAfter_waits, hs.waits]
    rfl

theorem decoded_streaming (hcount : count ≤ s.params.maxReq) : Streaming t where
  legal := decoded_config ht ▸ hs.legal
  lockstep := lockstep_discarded (lockstep_fed (legal_regs_pos hs.legal) hs.lockstep rfl) ht.regs
  bound := decoderBound_discarded (fedState_decoderBound hs.lockstep hs.bound hcount) ht.regs ht.params
  cursor := by
    obtain ⟨hcur, hle⟩ := fedState_cur_toNat (legal_tb hs.legal) hs.cursor count
    rw [CursorBound, ht.cur, ht.params, hcur]
    exact hle
  fullRead := ht.params ▸ hs.fullRead
  waits := decoded_waits hs ht

theorem decoded_bitCount : bitCount 0 t = bitCount 0 s + 8 * needBytes count s - count := by
  rw [bitCount_discarded ht.regs, bitCount_fedState (legal_regs_pos hs.legal), ht.enough]

/-- The feed took the coming bytes off the front of the stream. -/
theorem decoded_comingBytes (n : Nat) :
    supply count s ++ comingBytes n t = comingBytes (needBytes count s + n) s := by
  rw [comingBytes_fed (legal_tb hs.legal) hs.cursor hs.fullRead ht.enough ht.params ht.cur ht.src,
    supply_of_fullRead count hs.fullRead, ← comingBytes_take (Nat.le_add_right (needBytes count s) n) s,
    List.take_append_drop]

theorem decoded_canSupply {n : Nat} (h : CanSupply (count + n) s) : CanSupply n t := by
  have hlen := congrArg List.length (decoded_comingBytes hs ht n)
  have hneed := (needBytes_spec count s).1
  rw [List.length_append, ht.enough] at hlen
  unfold CanSupply at *
  rw [decoded_bitCount hs ht]
  by_cases hshort : (comingBytes (needBytes count s + n) s).length < needBytes count s + n
  · have := comingBytes_length_short hshort (count + n)
    omega
  · omega

/-- A register sees the same stream after the DECODE, `count` bits further on. -/
theorem decoded_streamBits {r : BitReg} (hr : count ≤ (fedReg (supply count s) r).q.length) (n : Nat) :
    streamBits n { r with q := (fedReg (supply count s) r).q.drop count } t =
      (streamBits (needBytes count s + n) r s).drop count := by
  rw [streamBits, streamBits, ← decoded_comingBytes hs ht n, List.flatMap_append, ← List.append_assoc]
  exact (List.drop_append_of_le_length hr).symm

/-- The fields after a DECODE are those the stream before it holds from bit `count` on (R53). -/
theorem decoded_fieldValues (fields : List (Nat × Nat)) (pos : Nat) :
    fieldValues t pos fields = fieldValues s (count + pos) fields := by
  induction fields generalizing pos with
  | nil => rfl
  | cons field fields ih =>
    obtain ⟨reg, c⟩ := field
    have hreg : t.regs[reg]? =
        (s.regs[reg]?).map fun r => { r with q := (fedReg (supply count s) r).q.drop count } := by
      rw [ht.regs, discardedRegs, fedState_regs, List.map_map, List.getElem?_map]
      rfl
    rw [fieldValues, fieldValues, ih, Nat.add_assoc, hreg]
    congr 1
    cases hr : s.regs[reg]? with
    | none => rfl
    | some r =>
      have hmem : r ∈ s.regs := List.mem_of_getElem? hr
      have hq : count ≤ (fedReg (supply count s) r).q.length :=
        count_le_fed_queue hs.lockstep ht.enough (List.mem_map_of_mem hmem)
      have hneed := needBytes_spec count s
      have hlen := hs.lockstep r hmem
      simp only [Option.map_some]
      rw [decoded_streamBits hs ht hq, List.drop_drop]
      exact bitVal_drop_congr _ (streamBits_take (by omega) (by omega)).symm

end Decoded

/-! ### Sequences of DECODEs -/

/-- A DECODE through register `r` answers the field at the front of the stream as `r` sees it. -/
theorem frontValue_fedState {s : State} {reg count : Nat} {r : BitReg} (hs : Streaming s)
    (hr : s.regs[reg]? = some r) :
    frontValue reg count (fedState count s) = bitVal r.order (streamBits count r s) count := by
  have hfed : (fedReg (supply count s) r).q = streamBits (needBytes count s) r s := by
    rw [fedReg_q, supply_of_fullRead count hs.fullRead, streamBits]
  have hneed := needBytes_spec count s
  have hlen := hs.lockstep r (List.mem_of_getElem? hr)
  have htake : (streamBits (needBytes count s) r s).take (0 + count) = (streamBits count r s).take (0 + count) :=
    (streamBits_take (by omega) (by omega)).symm
  rw [frontValue, fedState_regs, List.getElem?_map, hr, Option.map_some]
  dsimp only
  rw [hfed, fedReg_order]
  exact bitVal_drop_congr r.order htake

/-- The first field starts at the front of the stream, the others behind its bits. -/
theorem fieldValues_cons {s : State} {reg count : Nat} (hs : Streaming s) (hreg : reg < s.regs.length)
    (fields : List (Nat × Nat)) :
    fieldValues s 0 ((reg, count) :: fields) =
      frontValue reg count (fedState count s) :: fieldValues s count fields := by
  have hr := List.getElem?_eq_getElem hreg
  rw [fieldValues, hr, frontValue_fedState hs hr, Nat.zero_add]
  rfl

/-- One DECODE within what can be supplied and within the counter (R90, R94). -/
theorem exec_decode_streaming {s : State} {reg count : Nat} (hs : Streaming s) (hreg : reg < s.regs.length)
    (hcount : count ≤ s.params.maxReq) (hsup : CanSupply count s) (htot : s.total.toNat + count < 2 ^ 64) :
    ∃ (t : State) (v : BitVec 64), exec (.decode reg count) s = .next t ∧ Decoded count s t ∧
      v.toNat = frontValue reg count (fedState count s) ∧
      t.resps = s.resps ++ [{ port := .command, status := 0, value := v }] ∧
      t.total.toNat = s.total.toNat + count := by
  have henough := hs.supply_of_canSupply hsup
  exact ⟨_, _, exec_decode_of_supply hs.legal hs.lockstep hs.bound hreg hcount (.inr hs.sourceReady) henough htot,
    ⟨henough, rfl, rfl, rfl, rfl⟩, frontValue_toNat_of_legal hs.legal hcount, rfl, total_add_toNat htot⟩

theorem execAll_cons {i : Instr} {s t : State} (h : exec i s = .next t) (is : List Instr) :
    execAll (i :: is) s = execAll is t := by
  rw [execAll, h]

/-- By induction on the fields: the first DECODE takes the first field off the stream, and the others read the
stream that is left. -/
theorem execAll_decode_streaming {fields : List (Nat × Nat)} {s : State} (hs : Streaming s)
    (hfields : ∀ p ∈ fields, p.1 < s.regs.length ∧ p.2 ≤ s.params.maxReq)
    (hsup : CanSupply (fields.map (·.2)).sum s) (htot : s.total.toNat + (fields.map (·.2)).sum < 2 ^ 64) :
    ∃ (t : State) (answers : List Response),
      execAll (fields.map fun p => .decode p.1 p.2) s = some t ∧ t.resps = s.resps ++ answers ∧
      (∀ r ∈ answers, r.port = .command ∧ r.status = 0) ∧
      answers.map (·.value.toNat) = fieldValues s 0 fields ∧
      t.total.toNat = s.total.toNat + (fields.map (·.2)).sum := by
  induction fields generalizing s with
  | nil => exact ⟨s, [], rfl, (List.append_nil _).symm, fun _ h => (nomatch h), rfl, rfl⟩
  | cons field fields ih =>
    obtain ⟨reg, count⟩ := field
    obtain ⟨hreg, hcount⟩ : reg < s.regs.length ∧ count ≤ s.params.maxReq := hfields _ List.mem_cons_self
    simp only [List.map_cons, List.sum_cons] at hsup htot ⊢
    obtain ⟨u, v, hexec, hu, hv, huresps, hutot⟩ := exec_decode_streaming hs hreg hcount
      (canSupply_mono (Nat.le_add_right _ _) hsup) (by omega)
    have hlen : u.regs.length = s.regs.length := congrArg Config.n (decoded_config hu)
    obtain ⟨t, answers, hrun, hresps, hok, hvals, httot⟩ := ih (decoded_streaming hs hu hcount)
      (fun p hp => by rw [hlen, hu.params]; exact hfields p (List.mem_cons_of_mem _ hp))
      (decoded_canSupply hs hu hsup) (by omega)
    refine ⟨t, { port := .command, status := 0, value := v } :: answers, ?_, ?_, ?_, ?_, by omega⟩
    · rw [execAll_cons hexec, hrun]
    · rw [hresps, huresps, List.append_assoc, List.singleton_append]
    · exact List.forall_mem_cons.mpr ⟨⟨rfl, rfl⟩, hok⟩
    · rw [List.map_cons, hv, hvals, decoded_fieldValues hs hu, fieldValues_cons hs hreg, Nat.add_zero]

/-- Settles O32. -/
theorem decodeReadsTheStream : Obligations.DecodeReadsTheStream :=
  fun _ _ hL hl hb hc hf hw hfields hsup htot =>
    execAll_decode_streaming ⟨hL, hl, hb, hc, hf, hw⟩ hfields hsup htot

end Sys2Proof.Proofs
end

section
/-! Alignment and the byte-aligned commands: where ALIGN leaves the registers (R45), READBYTES (R98) and
READBYTE (R99) in closed form. -/

namespace Sys2Proof.Proofs

open Sys2Proof.Machine

/-! ### ALIGN -/

/-- In a legal block every register, register 0 among them, holds the fed bits less the dropped ones. -/
theorem bitCount_of_content {s : State} {fed : List Byte} {dropped : Nat} (hL : s.config.Legal)
    (hq : ∀ r ∈ s.regs, r.q = (fed.flatMap (expand r.order)).drop dropped) :
    bitCount 0 s = 8 * fed.length - dropped := by
  obtain ⟨r, hr, he⟩ := bitCount_mem (legal_regs_pos hL)
  rw [he, hq r hr, List.length_drop, expandAll_length]

/-- Settles O35: `BC(0) mod 8` is what the dropped count lacks to a multiple of 8. -/
theorem alignedFront : Obligations.AlignedFront := by
  intro s t fed dropped hL hle hq he
  obtain ⟨-, rfl, -⟩ := execAlign_next he
  have hbc := bitCount_of_content hL hq
  have hk : 8 * ((dropped + bitCount 0 s % 8) / 8) = dropped + bitCount 0 s % 8 := by omega
  refine ⟨(dropped + bitCount 0 s % 8) / 8, hk, by omega, fun r hr => ?_⟩
  obtain ⟨r0, hr0, rfl⟩ := List.mem_map.mp hr
  dsimp only
  rw [hq r0 hr0, List.drop_drop, ← expandAll_drop, hk]

/-! ### The state after alignment -/

section Aligned

variable {s : State}

theorem bitCount_le_cap (hL : s.config.Legal) (hb : DecoderBound s) : bitCount 0 s ≤ s.params.cap :=
  (bitCount_le_bound (legal_regs_pos hL) hb).trans (legal_cap hL).1

theorem aligned_bitCount (s : State) : bitCount 0 (aligned s) = bitCount 0 s - bitCount 0 s % 8 :=
  bitCount_discarded rfl 0

theorem aligned_lockstep (hl : Lockstep s) : Lockstep (aligned s) := lockstep_discarded hl rfl

theorem aligned_total_toNat (ht : s.total.toNat + bitCount 0 s % 8 < 2 ^ 64) :
    (aligned s).total.toNat = s.total.toNat + bitCount 0 s % 8 := total_add_toNat ht

theorem alignAll_eq_aligned (hL : s.config.Legal) (hl : Lockstep s) (hb : DecoderBound s)
    (ht : s.total.toNat + bitCount 0 s % 8 < 2 ^ 64) : alignAll s = .ok (aligned s) := by
  have hcap := bitCount_le_cap hL hb
  exact alignAll_eq (canDiscard_of_lockstep hl (by omega) (by omega)) ht

end Aligned

/-! ### READBYTES -/

/-- A drain whose bytes the counter cannot hold faults (R28). -/
theorem drainBytes_overflow {left : Nat} {s : State} (hl : Lockstep s) (h8 : bitCount 0 s % 8 = 0)
    (hc : bitCount 0 s ≤ s.params.cap)
    (ht : 2 ^ 64 ≤ s.total.toNat + 8 * min left (bitCount 0 s / 8)) :
    drainBytes left s = .error (.fault .totalOverflow) := by
  cases hd : drainBytes left s with
  | error r => rw [drainBytes_error_lockstep hl h8 hc hd]
  | ok p =>
    obtain ⟨n, t⟩ := p
    obtain ⟨rfl, hn, hlt, -, hz⟩ := drainBytes_ok hd
    have hbc : bitCount 0 (drained n s) = bitCount 0 s - 8 * n := bitCount_discarded rfl 0
    omega

section ReadBytes

variable {s : State} {room d : Nat}

/-- The drain of READBYTES, from the aligned state. -/
theorem drainBytes_aligned_eq (hL : s.config.Legal) (hl : Lockstep s) (hb : DecoderBound s)
    (hd : d = min room (bitCount 0 s / 8)) (ht : s.total.toNat + (bitCount 0 s % 8 + 8 * d) < 2 ^ 64) :
    drainBytes room (aligned s) = .ok (d, drained d (aligned s)) := by
  have hcap := bitCount_le_cap hL hb
  have hbc := aligned_bitCount s
  have htot := aligned_total_toNat (s := s) (by omega)
  have hd' : d = min room (bitCount 0 (aligned s) / 8) := by omega
  rw [hd']
  exact drainBytes_eq (aligned_lockstep hl) (by omega) (by rw [consumed_params]; omega) (by omega)

theorem drainBytes_aligned_overflow (hL : s.config.Legal) (hl : Lockstep s) (hb : DecoderBound s)
    (hd : d = min room (bitCount 0 s / 8)) (hr : s.total.toNat + bitCount 0 s % 8 < 2 ^ 64)
    (ht : 2 ^ 64 ≤ s.total.toNat + (bitCount 0 s % 8 + 8 * d)) :
    drainBytes room (aligned s) = .error (.fault .totalOverflow) := by
  have hcap := bitCount_le_cap hL hb
  have hbc := aligned_bitCount s
  have htot := aligned_total_toNat hr
  exact drainBytes_overflow (aligned_lockstep hl) (by omega) (by rw [consumed_params]; omega) (by omega)

/-- READBYTES after its drain: what is left of R98. -/
def finishReadBytes (room d : Nat) (s : State) : Flow Result :=
  if d < room ∧ paddingBegun s = false then do
    let (bytes, s3) ← srcRead (.readBytes room) d (room - d) s
    let s4 ← addTotal (8 * bytes.length) (dstWrite bytes s3)
    pure (finishBulk room (d + bytes.length) s4)
  else pure (finishBulk room d s)

/-- READBYTES with nothing delivered before is alignment, the drain and the rest. -/
theorem exec_readBytes_eq (h0 : s.delivered = 0) :
    exec (.readBytes room) s = runCommand (do
      let s1 ← alignAll s
      let (m, s2) ← drainBytes room s1
      finishReadBytes room m s2) := by
  simp only [exec, execReadBytes, h0, Nat.sub_zero, Nat.zero_add, finishReadBytes]

/-- A direct read is made where there is room and padding has not begun. -/
def readsDirectly (room d : Nat) (s : State) : Bool := decide (d < room) && !paddingBegun s

theorem finishReadBytes_of_buffered {t : State} (h : readsDirectly room d t = false) :
    finishReadBytes room d t =
      .ok (.next (answered (if d = 0 ∧ 0 < room then 3 else 0) (BitVec.ofNat 64 d) t)) := by
  have hc : ¬ (d < room ∧ paddingBegun t = false) := by simpa [readsDirectly] using h
  rw [finishReadBytes, if_neg hc, finishBulk_eq]
  rfl

theorem finishReadBytes_of_read {t : State} {j : Nat} (h : readsDirectly room d t = true)
    (hready : SourceReady t) (hj : j = readCount t.params.srcFullRead (room - d) t.src) :
    finishReadBytes room d t = (do
      let t' ← addTotal (8 * j) (dstWrite (nextBytes j t.src) { t with src := sourceAfter j t.src })
      pure (finishBulk room (d + j) t')) := by
  have hc : d < room ∧ paddingBegun t = false := by simpa [readsDirectly] using h
  rw [finishReadBytes, if_pos hc, srcRead_eq hready, flow_ok_bind, ← hj]
  simp only [hj, nextBytes_readCount_length]

/-- READBYTES within the counter as far as its drain. -/
theorem exec_readBytes_of_drain (hL : s.config.Legal) (hl : Lockstep s) (hb : DecoderBound s)
    (h0 : s.delivered = 0) (hd : d = min room (bitCount 0 s / 8))
    (ht : s.total.toNat + (bitCount 0 s % 8 + 8 * d) < 2 ^ 64) :
    exec (.readBytes room) s = runCommand (finishReadBytes room d (drained d (aligned s))) := by
  rw [exec_readBytes_eq h0, alignAll_eq_aligned hL hl hb (by omega), flow_ok_bind,
    drainBytes_aligned_eq hL hl hb hd ht]
  rfl

/-- READBYTES that cannot count the bits it aligns by or drains. -/
theorem exec_readBytes_overflow_of_drain (hL : s.config.Legal) (hl : Lockstep s) (hb : DecoderBound s)
    (h0 : s.delivered = 0) (hd : d = min room (bitCount 0 s / 8))
    (ht : 2 ^ 64 ≤ s.total.toNat + (bitCount 0 s % 8 + 8 * d)) :
    exec (.readBytes room) s = .fault .totalOverflow := by
  rw [exec_readBytes_eq h0]
  by_cases hr : s.total.toNat + bitCount 0 s % 8 < 2 ^ 64
  · rw [alignAll_eq_aligned hL hl hb hr, flow_ok_bind, drainBytes_aligned_overflow hL hl hb hd hr ht]
    rfl
  · rw [alignAll_overflow (Nat.le_of_not_lt hr)]
    rfl

end ReadBytes

/-- The state after the drain, one discard and one advance of the counter in all. -/
theorem drained_aligned_eq (d : Nat) (s : State) :
    drained d (aligned s) = { s with
      regs := discardedRegs (bitCount 0 s % 8 + 8 * d) s
      total := s.total + BitVec.ofNat 64 (bitCount 0 s % 8 + 8 * d)
      dst := s.dst ++ bufferedBytes (bitCount 0 s % 8) d s } :=
  calc drained d (aligned s)
    _ = { s with
          regs := discardedRegs (8 * d) (aligned s)
          total := s.total + BitVec.ofNat 64 (bitCount 0 s % 8) + BitVec.ofNat 64 (8 * d)
          dst := s.dst ++ bufferedBytes 0 d (aligned s) } := rfl
    _ = _ := by
      rw [discardedRegs_discarded (s := s) (n := bitCount 0 s % 8) rfl, total_add_add,
        bufferedBytes_discarded (s := s) (n := bitCount 0 s % 8) rfl, Nat.add_zero]

/-- The state after a direct read of `j` bytes behind the drain. -/
theorem bulkRead_eq (d j : Nat) (s : State) :
    bulkRead d j s = { s with
      regs := discardedRegs (bitCount 0 s % 8 + 8 * d) s
      total := s.total + BitVec.ofNat 64 (bitCount 0 s % 8 + 8 * (d + j))
      dst := s.dst ++ bufferedBytes (bitCount 0 s % 8) d s ++ nextBytes j s.src
      src := sourceAfter j s.src } := by
  rw [bulkRead, drained_aligned_eq]
  dsimp only [dstWrite]
  rw [total_add_add, Nat.mul_add, Nat.add_assoc]

theorem finishReadBytes_direct {s : State} {room d j : Nat} (hread : readsDirectly room d s = true)
    (hready : SourceReady s) (hj : j = readCount s.params.srcFullRead (room - d) s.src)
    (hd : s.total.toNat + (bitCount 0 s % 8 + 8 * d) < 2 ^ 64)
    (ht : s.total.toNat + (bitCount 0 s % 8 + 8 * (d + j)) < 2 ^ 64) :
    finishReadBytes room d (drained d (aligned s)) =
      .ok (.next (answered (if d + j = 0 ∧ 0 < room then 3 else 0) (BitVec.ofNat 64 (d + j)) (bulkRead d j s))) := by
  have htot : (drained d (aligned s)).total.toNat = s.total.toNat + (bitCount 0 s % 8 + 8 * d) := by
    rw [drained_aligned_total, total_add_toNat hd]
  rw [finishReadBytes_of_read (t := drained d (aligned s)) hread hready hj,
    addTotal_eq (by rw [dstWrite_total, htot]; omega), flow_ok_bind, finishBulk_eq]
  rfl

theorem finishReadBytes_direct_overflow {s : State} {room d j : Nat} (hread : readsDirectly room d s = true)
    (hready : SourceReady s) (hj : j = readCount s.params.srcFullRead (room - d) s.src)
    (hd : s.total.toNat + (bitCount 0 s % 8 + 8 * d) < 2 ^ 64)
    (ht : 2 ^ 64 ≤ s.total.toNat + (bitCount 0 s % 8 + 8 * (d + j))) :
    finishReadBytes room d (drained d (aligned s)) = .error (.fault .totalOverflow) := by
  have htot : (drained d (aligned s)).total.toNat = s.total.toNat + (bitCount 0 s % 8 + 8 * d) := by
    rw [drained_aligned_total, total_add_toNat hd]
  rw [finishReadBytes_of_read (t := drained d (aligned s)) hread hready hj,
    addTotal_overflow (by rw [dstWrite_total, htot]; omega)]
  rfl

/-- Settles O37: alignment and the drain first, and then, where a direct read is made, the count of its bytes. -/
theorem readBytesResult : Obligations.ReadBytesResult := by
  intro s room r d j direct hL hl hb h0 hr hd hdirect hready hj
  subst hr
  by_cases ht : s.total.toNat + (bitCount 0 s % 8 + 8 * d) < 2 ^ 64
  · rw [exec_readBytes_of_drain hL hl hb h0 hd ht]
    cases direct with
    | false =>
      obtain rfl : j = 0 := hj
      refine ⟨fun _ => ?_, fun hover => absurd ht (by omega)⟩
      rw [finishReadBytes_of_buffered (t := drained d (aligned s)) hdirect.symm, drained_aligned_eq]
      simp
    | true =>
      refine ⟨fun hfits => ?_, fun hover => ?_⟩
      · rw [finishReadBytes_direct hdirect.symm (hready rfl) hj ht hfits, bulkRead_eq]
        rfl
      · rw [finishReadBytes_direct_overflow hdirect.symm (hready rfl) hj ht hover]
        rfl
  · refine ⟨fun hfits => absurd hfits (by omega), fun _ => ?_⟩
    exact exec_readBytes_overflow_of_drain hL hl hb h0 hd (Nat.le_of_not_lt ht)

/-! ### READBYTE -/

theorem aligned_bitCount_pos {s : State} : 0 < bitCount 0 (aligned s) ↔ 8 ≤ bitCount 0 s := by
  rw [aligned_bitCount]
  omega

/-- READBYTE where alignment leaves no bit behind (R99). -/
def finishReadByte (s : State) : Flow Result :=
  if paddingBegun s then pure (respond .eos 0 s)
  else do
    let (bytes, s2) ← srcRead .readByte 0 1 s
    match bytes with
    | b :: _ => do
      let s3 ← addTotal 8 s2
      pure (respond .ok (b.setWidth 64) s3)
    | [] => pure (respond .eos 0 s2)

section ReadByte

variable {s : State} (hL : s.config.Legal) (hl : Lockstep s) (hb : DecoderBound s)
include hL hl hb

theorem exec_readByte_of_buffered (h8 : 8 ≤ bitCount 0 s) (hr : s.total.toNat + bitCount 0 s % 8 < 2 ^ 64) :
    exec .readByte s = runCommand (do
      let (v, s2) ← drainByte (aligned s)
      pure (respond .ok (BitVec.ofNat 64 v) s2)) := by
  rw [exec, execReadByte, alignAll_eq_aligned hL hl hb hr, flow_ok_bind, if_pos (aligned_bitCount_pos.mpr h8)]

theorem exec_readByte_of_empty (h8 : bitCount 0 s < 8) (hr : s.total.toNat + bitCount 0 s % 8 < 2 ^ 64) :
    exec .readByte s = runCommand (finishReadByte (aligned s)) := by
  have hempty : ¬ 0 < bitCount 0 (aligned s) := fun h => absurd (aligned_bitCount_pos.mp h) (by omega)
  rw [exec, execReadByte, alignAll_eq_aligned hL hl hb hr, flow_ok_bind, if_neg hempty]
  rfl

theorem aligned_canDiscard_byte (h8 : 8 ≤ bitCount 0 s) : CanDiscard 8 (aligned s) := by
  have hcap := bitCount_le_cap hL hb
  have hbc := aligned_bitCount s
  exact canDiscard_of_lockstep (aligned_lockstep hl) (by rw [consumed_params]; omega) (by omega)

end ReadByte

/-- Two discards that are counted are one. -/
theorem consumed_consumed (m n : Nat) (s : State) : consumed m (consumed n s) = consumed (n + m) s := by
  unfold consumed
  rw [discardedRegs_discarded (s := s) (n := n) rfl, total_add_add]

theorem finishReadByte_of_padding {s : State} (h : paddingBegun s = true) :
    finishReadByte s = .ok (.next (answered 3 0 s)) := by
  rw [finishReadByte, if_pos h]
  rfl

section Direct

variable {s : State} {j : Nat} (hp : paddingBegun s = false) (hready : SourceReady s)
  (hj : j = readCount s.params.srcFullRead 1 s.src)
include hp hready hj

theorem finishReadByte_none (hbytes : nextBytes j s.src = []) :
    finishReadByte s = .ok (.next (answered 3 0 { s with src := sourceAfter j s.src })) := by
  subst hj
  rw [finishReadByte, hp, srcRead_eq hready, hbytes]
  rfl

theorem finishReadByte_direct {b : Byte} (hbytes : nextBytes j s.src = [b]) (ht : s.total.toNat + 8 < 2 ^ 64) :
    finishReadByte s = .ok (.next (answered 0 (b.setWidth 64)
      { s with src := sourceAfter j s.src, total := s.total + BitVec.ofNat 64 8 })) := by
  subst hj
  rw [finishReadByte, hp, srcRead_eq hready, hbytes]
  simp only [Bool.false_eq_true, if_false, flow_ok_bind]
  rw [addTotal_eq (by exact ht)]
  rfl

theorem finishReadByte_overflow {b : Byte} (hbytes : nextBytes j s.src = [b])
    (ht : 2 ^ 64 ≤ s.total.toNat + 8) : finishReadByte s = .error (.fault .totalOverflow) := by
  subst hj
  rw [finishReadByte, hp, srcRead_eq hready, hbytes]
  simp only [Bool.false_eq_true, if_false, flow_ok_bind]
  rw [addTotal_overflow (by exact ht)]
  rfl

end Direct

/-- READBYTE that cannot count the bits it aligns by. -/
theorem exec_readByte_overflow_of_align {s : State} (ht : 2 ^ 64 ≤ s.total.toNat + bitCount 0 s % 8) :
    exec .readByte s = .fault .totalOverflow := by
  rw [exec, execReadByte, alignAll_overflow ht]
  rfl

/-- Settles O38, by R99's paths: a byte buffered, the end of a padded stream, a direct read that finds nothing or
a byte; and the counter's overflow on each path that counts. -/
theorem readByteResult : Obligations.ReadByteResult := by
  intro s r hL hl hb hr
  subst hr
  have hpos : 0 < (aligned s).regs.length := by simpa using legal_regs_pos hL
  refine ⟨fun h8 ht => ?_, fun h8 ht => ?_, fun h8 hp ht => ?_, fun j h8 hp hready hj =>
    ⟨fun hbytes ht => ?_, fun b hbytes ht => ?_, fun b hbytes ht => ?_⟩, exec_readByte_overflow_of_align⟩
  · have htot := aligned_total_toNat (s := s) (by omega)
    rw [exec_readByte_of_buffered hL hl hb h8 (by omega),
      drainByte_eq hpos (aligned_canDiscard_byte hL hl hb h8) (by omega), consumed_consumed]
    rfl
  · by_cases hr : s.total.toNat + bitCount 0 s % 8 < 2 ^ 64
    · have htot := aligned_total_toNat hr
      rw [exec_readByte_of_buffered hL hl hb h8 hr,
        drainByte_overflow hpos (aligned_canDiscard_byte hL hl hb h8) (by omega)]
      rfl
    · exact exec_readByte_overflow_of_align (Nat.le_of_not_lt hr)
  · rw [exec_readByte_of_empty hL hl hb h8 ht, finishReadByte_of_padding (s := aligned s) hp]
    rfl
  · rw [exec_readByte_of_empty hL hl hb h8 ht, finishReadByte_none (s := aligned s) hp hready hj hbytes]
    rfl
  · have htot := aligned_total_toNat (s := s) (by omega)
    rw [exec_readByte_of_empty hL hl hb h8 (by omega),
      finishReadByte_direct (s := aligned s) hp hready hj hbytes (by omega), consumed_total, total_add_add]
    rfl
  · by_cases hr : s.total.toNat + bitCount 0 s % 8 < 2 ^ 64
    · have htot := aligned_total_toNat hr
      rw [exec_readByte_of_empty hL hl hb h8 hr,
        finishReadByte_overflow (s := aligned s) hp hready hj hbytes (by omega)]
      rfl
    · exact exec_readByte_overflow_of_align (Nat.le_of_not_lt hr)

end Sys2Proof.Proofs
end

section
/-! Values that span bytes (R42), and what one read of the source answers (R49 to R51). -/

namespace Sys2Proof.Proofs

open Sys2Proof.Machine

/-! ### Values that span bytes -/

/-- With `LSB_FIRST` the bits behind `p` weigh `2 ^ |p|` times as much. -/
theorem bitVal_lsbFirst_append (p q : List Bool) (n : Nat) :
    bitVal .lsbFirst (p ++ q) (p.length + n) = lsbValue p + 2 ^ p.length * bitVal .lsbFirst q n := by
  rw [bitVal, bitVal, List.take_length_add_append, lsbValue_append]

/-- With `MSB_FIRST` the bits of `p` weigh `2 ^ n` times as much where `n` bits stand behind them. -/
theorem bitVal_msbFirst_append (p : List Bool) {q : List Bool} {n : Nat} (h : n ≤ q.length) :
    bitVal .msbFirst (p ++ q) (p.length + n) = lsbValue p.reverse * 2 ^ n + bitVal .msbFirst q n := by
  rw [bitVal, bitVal, List.take_length_add_append, List.reverse_append, lsbValue_append, List.length_reverse,
    List.length_take, Nat.min_eq_left h]
  ring

/-- Settles O17: the first byte is the first 8 bits, the others stand behind them. -/
theorem multiByteValue : Obligations.MultiByteValue := by
  intro b bs
  have hbits (o : BitOrder) : 8 * (bs.length + 1) = (expand o b).length + 8 * bs.length := by
    rw [expand_length]
    omega
  constructor
  · rw [List.flatMap_cons, hbits .lsbFirst, bitVal_lsbFirst_append, lsbValue_expand, expand_length]
    rfl
  · have hlen : 8 * bs.length ≤ (bs.flatMap (expand .msbFirst)).length := (expandAll_length _ bs).ge
    have hweight : 2 ^ (8 * bs.length) = 256 ^ bs.length := Nat.pow_mul 2 8 bs.length
    rw [List.flatMap_cons, hbits .msbFirst, bitVal_msbFirst_append _ hlen, lsbValue_expand_reverse, hweight]

/-! ### One read of the source -/

theorem sourceReach_of_ends {src : Source} (h : src.rest = .ends) (k : Nat) :
    sourceReach k src = min k src.bytes.length := by
  simp only [sourceReach, bytesRemaining, h]

theorem sourceReach_of_endless {src : Source} {stream pos : Nat} (h : src.rest = .endless stream pos) (k : Nat) :
    sourceReach k src = k := by
  simp only [sourceReach, bytesRemaining, h]

/-- A read that got all there was, and less than it asked for, leaves nothing. -/
theorem nextBytes_after_short_read {k : Nat} {src : Source} (h : sourceReach k src < k) (m : Nat) :
    nextBytes m (sourceAfter (sourceReach k src) src) = [] := by
  cases hrest : src.rest with
  | ends =>
    have hlen := congrArg List.length (nextBytes_add (sourceReach k src) m src)
    rw [List.length_append, nextBytes_length, nextBytes_length, sourceReach_of_ends hrest,
      sourceReach_of_ends hrest, sourceReach_of_ends hrest] at hlen
    rw [sourceReach_of_ends hrest] at h ⊢
    exact List.length_eq_zero_iff.mp (by omega)
  | endless stream pos =>
    rw [sourceReach_of_endless hrest] at h
    exact absurd h (Nat.lt_irrefl k)

/-- Settles O53: the read answers `readCount` bytes, which with a full-read source is all the stream can give. -/
theorem sourceReadReturns : Obligations.SourceReadReturns := by
  intro i n k s hready
  have hle := readCount_le s.params.srcFullRead k s.src
  refine ⟨_, _, srcRead_eq hready, advanced_readCount _ k s.src, hle.trans (sourceReach_le k s.src),
    fun hends => ?_, fun hfull => ?_⟩
  · rw [sourceReach_of_ends hends] at hle
    omega
  · rw [hfull, readCount_full]
    exact ⟨fun hends => sourceReach_of_ends hends k, fun _ _ hendless => sourceReach_of_endless hendless k,
      nextBytes_after_short_read⟩

end Sys2Proof.Proofs
end

section
/-! PEEK in closed form (R89). -/

namespace Sys2Proof.Proofs

open Sys2Proof.Machine

section Peek

variable {s : State} {reg count : Nat}

/-- R66's last two checks passed, PEEK is its feed and what follows it. -/
theorem exec_peek_eq (hreg : reg < s.regs.length) (hcount : count ≤ s.params.maxReq) :
    exec (.peek reg count) s = runCommand (do
      let s1 ← ensure (.peek reg count) count s
      let v ← peekReg reg count s1
      pure (respond .ok (BitVec.ofNat 64 v) s1)) := by
  simp only [exec, execPeek, bitCommandCheck_eq_none.mpr ⟨hreg, hcount⟩]

theorem exec_peek_of_supply (hL : s.config.Legal) (hl : Lockstep s) (hb : DecoderBound s)
    (hreg : reg < s.regs.length) (hcount : count ≤ s.params.maxReq)
    (hw : noRead count s = true ∨ SourceReady s) (hs : (supply count s).length = needBytes count s) :
    exec (.peek reg count) s =
      .next (answered 0 (BitVec.ofNat 64 (frontValue reg count (fedState count s))) (fedState count s)) := by
  rw [exec_peek_eq hreg hcount, ensure_eq_of_bound hL hl hb hcount hw, if_pos hs, flow_ok_bind,
    fedState_peekReg hL hl hreg hcount hs]
  rfl

theorem exec_peek_insufficient (hL : s.config.Legal) (hl : Lockstep s) (hb : DecoderBound s)
    (hreg : reg < s.regs.length) (hcount : count ≤ s.params.maxReq)
    (hw : noRead count s = true ∨ SourceReady s) (hs : (supply count s).length ≠ needBytes count s) :
    exec (.peek reg count) s = .next (answered 2 0 (fedState count s)) := by
  rw [exec_peek_eq hreg hcount, ensure_eq_of_bound hL hl hb hcount hw, if_neg hs]
  rfl

end Peek

/-- Settles O24: the feed supplies enough bytes or too few. -/
theorem peekResult : Obligations.PeekResult := fun _ _ _ hL hl hb hreg hcount hw =>
  ⟨fun hs => ⟨_, frontValue_toNat_of_legal hL hcount, exec_peek_of_supply hL hl hb hreg hcount hw hs⟩,
    exec_peek_insufficient hL hl hb hreg hcount hw⟩

end Sys2Proof.Proofs
end

section
/-! What every instruction does to the source and to the destination (R49, R52, R131). -/

namespace Sys2Proof.Proofs

open Sys2Proof.Machine

/-! ### The source -/

/-- All that an instruction does to the source: one read returns, or none does and the position stays. -/
inductive SourceMove (s t : State) : Prop where
  | stays (hbytes : t.src.bytes = s.src.bytes) (hrest : t.src.rest = s.src.rest)
      (hreads : t.src.reads = s.src.reads)
  | reads (k : Nat) (h : t.src = sourceAfter (readCount s.params.srcFullRead k s.src) s.src)

theorem SourceMove.unchanged {s t : State} (h : t.src = s.src) : SourceMove s t :=
  .stays (by rw [h]) (by rw [h]) (by rw [h])

theorem SourceMove.fed {s t : State} {count : Nat} (h : t.src = (fedState count s).src) : SourceMove s t := by
  rw [fedState_src] at h
  split at h
  · exact .unchanged h
  · exact .reads (needBytes count s) h

theorem feedStops_sourceMove {i : Instr} {count : Nat} {s t : State} (h : FeedStops i count s t) :
    SourceMove s t := by
  cases h with
  | waits => exact .stays rfl rfl rfl
  | insufficient => exact .fed rfl

theorem effect_sourceMove {i : Instr} {s t : State} (h : Effect s i t) : SourceMove s t := by
  cases h with
  | peekStops _ _ _ _ _ h | decodeStops _ _ _ _ _ h => exact feedStops_sourceMove h
  | peekOk | decodeOk => exact .fed rfl
  | bulkWaits | byteWaits => exact .stays rfl rfl rfl
  | bulkDirect _ _ _ _ _ _ _ _ _ _ _ _ hj => exact .reads _ (by rw [hj]; rfl)
  | byteNone _ _ _ _ _ _ hj | byteDirect _ _ _ _ _ _ _ _ hj => exact .reads _ (by rw [hj]; rfl)
  | _ => exact .unchanged rfl

/-- R49, R50: the position moves along the one stream. -/
theorem SourceMove.advanced {s t : State} (h : SourceMove s t) :
    Advanced 0 s.src t.src ∧ t.src.reads = s.src.reads ∨
      ∃ j, Advanced j s.src t.src ∧ t.src.reads = s.src.reads + 1 := by
  cases h with
  | stays hbytes hrest hreads => exact .inl ⟨advanced_zero hbytes hrest, hreads⟩
  | reads k h => exact .inr ⟨_, h ▸ advanced_readCount _ k s.src, by rw [h, sourceAfter_reads]⟩

/-! ### The destination -/

/-- All that an instruction does to the destination: READBYTES appends to it, within its room. -/
inductive DestinationMove (s : State) (i : Instr) (t : State) : Prop where
  | stays (h : t.dst = s.dst)
  | appends (room : Nat) (bs : List Byte) (hi : i = .readBytes room) (h : t.dst = s.dst ++ bs)
      (hroom : bs.length ≤ room - s.delivered)

theorem bufferedBytes_length_le (skip k : Nat) (s : State) : (bufferedBytes skip k s).length ≤ k := by
  unfold bufferedBytes
  split <;> simp

theorem nextBytes_length_le (k : Nat) (src : Source) : (nextBytes k src).length ≤ k := by
  rw [nextBytes_length]
  exact sourceReach_le k src

theorem nextBytes_of_le_one {k : Nat} (h : k ≤ 1) (src : Source) :
    nextBytes k src = [] ∨ ∃ b, nextBytes k src = [b] := by
  have hlen := (nextBytes_length_le k src).trans h
  cases hbytes : nextBytes k src with
  | nil => exact .inl rfl
  | cons b rest =>
    rw [hbytes, List.length_cons] at hlen
    exact .inr ⟨b, by rw [List.length_eq_zero_iff.mp (Nat.le_zero.mp (Nat.le_of_succ_le_succ hlen))]⟩

theorem effect_destinationMove {i : Instr} {s t : State} (h : Effect s i t) : DestinationMove s i t := by
  cases h with
  | peekStops _ _ _ _ _ h | decodeStops _ _ _ _ _ h => cases h <;> exact .stays rfl
  | bulkBuffered room m _ _ _ _ hm =>
    exact .appends room (bufferedBytes 0 m (aligned s)) rfl rfl ((bufferedBytes_length_le ..).trans hm)
  | bulkWaits room m _ _ _ hm =>
    refine .appends room (bufferedBytes 0 m (aligned s)) rfl rfl ((bufferedBytes_length_le ..).trans ?_)
    omega
  | bulkDirect room m j _ _ _ _ hm _ _ _ _ hj =>
    refine .appends room (bufferedBytes 0 m (aligned s) ++ nextBytes j s.src) rfl (List.append_assoc ..) ?_
    have hbuffered := bufferedBytes_length_le 0 m (aligned s)
    have hread := nextBytes_length_le j s.src
    have hcount := (readCount_le s.params.srcFullRead (room - (s.delivered + m)) s.src).trans (sourceReach_le ..)
    rw [List.length_append]
    omega
  | _ => exact .stays rfl

/-- Settles O52, by what an instruction does to the source and to the destination. -/
theorem streamsAdvance : Obligations.StreamsAdvance := by
  intro s t i hL he
  have hE : Effect s i t := exec_next (legal_tb hL) he
  refine ⟨(effect_sourceMove hE).advanced, ?_⟩
  cases effect_destinationMove hE with
  | stays h => exact ⟨[], by rw [h, List.append_nil], fun hne => absurd rfl hne⟩
  | appends room bs hi h hroom => exact ⟨bs, h, fun _ => ⟨room, hi, hroom⟩⟩

end Sys2Proof.Proofs
end

section
/-! Whole bytes through READBYTES and READBYTE, whatever the bit order (R43, R54). -/

namespace Sys2Proof.Proofs

open Sys2Proof.Machine

section WholeBytes

variable {s : State} {bs : List Byte} (hL : s.config.Legal)
  (hq : ∀ r ∈ s.regs, r.q = bs.flatMap (expand r.order))
include hL hq

theorem bitCount_of_bytes : bitCount 0 s = 8 * bs.length := by
  simpa using bitCount_of_content (dropped := 0) hL hq

theorem lockstep_of_bytes : Lockstep s := fun r hr => by
  rw [bitCount_of_bytes hL hq, hq r hr, expandAll_length]

theorem frontValue_of_bytes {b : Byte} {rest : List Byte} (hbs : bs = b :: rest) : frontValue 0 8 s = b.toNat := by
  have h0 := legal_regs_pos hL
  rw [frontValue, List.getElem?_eq_getElem h0]
  dsimp only
  rw [hq _ (List.getElem_mem h0), hbs, List.flatMap_cons, bitVal_expand]

/-- What READBYTES writes: the buffered bytes as far as there is room, then the source's. -/
theorem exec_readBytes_of_bytes {room : Nat} (hb : DecoderBound s) (h0 : s.delivered = 0)
    (hp : paddingBegun s = false) (hf : s.params.srcFullRead = true) (hready : SourceReady s)
    (ht : s.total.toNat + 8 * room < 2 ^ 64) :
    ∃ t, exec (.readBytes room) s = .next t ∧ t.dst = s.dst ++ (bs ++ nextBytes room s.src).take room := by
  have hbc := bitCount_of_bytes hL hq
  have haligned : bitCount 0 s % 8 = 0 := by omega
  have hd : min room bs.length = min room (bitCount 0 s / 8) := by omega
  have hj : sourceReach (room - min room bs.length) s.src =
      if readsDirectly room (min room bs.length) s then
        readCount s.params.srcFullRead (room - min room bs.length) s.src
      else 0 := by
    rw [hf, readCount_full]
    split
    · rfl
    · next h =>
      have hfull : ¬ min room bs.length < room := by simpa [readsDirectly, hp] using h
      rw [Nat.sub_eq_zero_of_le (Nat.le_of_not_lt hfull), sourceReach_zero]
  have hreach := sourceReach_le (room - min room bs.length) s.src
  obtain ⟨hfits, -⟩ := readBytesResult s room 0 _ _ _ hL (lockstep_of_bytes hL hq) hb h0 haligned.symm hd rfl
    (fun _ => hready) hj
  refine ⟨_, hfits (by omega), ?_⟩
  have hbuffered : bufferedBytes 0 (min room bs.length) s = bs.take room := by
    rw [bufferedBytes_of_bytes (legal_regs_pos hL) hq (Nat.min_le_right ..), ← List.take_eq_take_min]
  rw [answered_dst]
  dsimp only
  rw [hbuffered, nextBytes_reach, List.append_assoc, List.take_append, nextBytes_take (Nat.sub_le ..),
    show room - min room bs.length = room - bs.length by omega]

/-- What READBYTE answers: the first byte buffered, else the first of the source, else `EOS`. -/
theorem exec_readByte_of_bytes (hb : DecoderBound s) (hp : paddingBegun s = false)
    (hf : s.params.srcFullRead = true) (hready : SourceReady s) (ht : s.total.toNat + 8 < 2 ^ 64) :
    ∃ t, exec .readByte s = .next t ∧ t.resps = s.resps ++
      [match bs ++ nextBytes 1 s.src with
        | [] => { port := .command, status := 3, value := 0 }
        | b :: _ => { port := .command, status := 0, value := b.setWidth 64 }] := by
  have hbc := bitCount_of_bytes hL hq
  have haligned : 0 = bitCount 0 s % 8 := by omega
  obtain ⟨hbuffered, -, -, hdirect, -⟩ :=
    readByteResult s 0 hL (lockstep_of_bytes hL hq) hb haligned
  cases bs with
  | cons b rest =>
    have hvalue : frontValue 0 8 { s with regs := discardedRegs 0 s } = b.toNat := by
      rw [discardedRegs_zero]
      exact frontValue_of_bytes hL hq rfl
    refine ⟨_, hbuffered (by rw [hbc, List.length_cons]; omega) ht, ?_⟩
    rw [hvalue, BitVec.ofNat_toNat]
    rfl
  | nil =>
    obtain ⟨hnone, hone, -⟩ := hdirect _ (by rw [hbc]; decide) hp hready rfl
    rw [hf, readCount_full, nextBytes_reach] at hnone hone
    rcases nextBytes_of_le_one (Nat.le_refl 1) s.src with hbytes | ⟨b, hbytes⟩
    · exact ⟨_, hnone hbytes (by omega), by rw [hbytes]; rfl⟩
    · exact ⟨_, hone b hbytes ht, by rw [hbytes]; rfl⟩

end WholeBytes

/-- Settles O36. -/
theorem bulkMovesBytesUnchanged : Obligations.BulkMovesBytesUnchanged :=
  fun _ _ _ hL hb h0 hq hp hf hready ht =>
    ⟨exec_readBytes_of_bytes hL hq hb h0 hp hf hready (by omega),
      exec_readByte_of_bytes hL hq hb hp hf hready (by omega)⟩

end Sys2Proof.Proofs
end

section
/-! Commands that wait for the source (R51, R120): what a command does at its source read depends on the read
alone, so a blocked one stays as it is and a resumed one answers what it would have answered at once. -/

namespace Sys2Proof.Proofs

open Sys2Proof.Machine

/-! ### At the source read -/

/-- In `s` the command has nothing left to do before its source read. -/
inductive AtRead (s : State) : Instr → Prop where
  | peek (reg count : Nat) (hreg : reg < s.regs.length) (hcount : count ≤ s.params.maxReq)
      (hn : noRead count s = false) (hd : s.delivered = 0) : AtRead s (.peek reg count)
  | decode (reg count : Nat) (hreg : reg < s.regs.length) (hcount : count ≤ s.params.maxReq)
      (hn : noRead count s = false) (hd : s.delivered = 0) : AtRead s (.decode reg count)
  | readBytes (room : Nat) (hz : bitCount 0 s = 0) (hroom : s.delivered < room) (hp : paddingBegun s = false) :
      AtRead s (.readBytes room)
  | readByte (hz : bitCount 0 s = 0) (hp : paddingBegun s = false) (hd : s.delivered = 0) : AtRead s .readByte

/-- Where no bit is buffered, alignment and the drain do nothing. -/
theorem exec_readBytes_of_no_bits {s : State} {room : Nat} (hz : bitCount 0 s = 0) :
    exec (.readBytes room) s = runCommand (finishReadBytes room s.delivered s) := by
  have halign : alignAll s = .ok s := by simp [alignAll, hz]
  have hdrain : drainBytes (room - s.delivered) s = .ok (0, s) := by
    cases room - s.delivered <;> simp [drainBytes, hz]
  simp only [exec, execReadBytes, halign, hdrain, flow_ok_bind, Nat.add_zero, finishReadBytes]

theorem exec_readByte_of_no_bits {s : State} (hz : bitCount 0 s = 0) :
    exec .readByte s = runCommand (finishReadByte s) := by
  have halign : alignAll s = .ok s := by simp [alignAll, hz]
  have hempty : ¬ 0 < bitCount 0 s := by omega
  rw [exec, execReadByte, halign, flow_ok_bind, if_neg hempty]
  rfl

theorem finishReadBytes_of_blocked {s : State} {room d : Nat} {r : Result} (hroom : d < room)
    (hp : paddingBegun s = false) (hr : ∀ k, srcRead (.readBytes room) d k s = .error r) :
    finishReadBytes room d s = .error r := by
  rw [finishReadBytes, if_pos ⟨hroom, hp⟩, hr, flow_error_bind]

theorem finishReadByte_of_blocked {s : State} {r : Result} (hp : paddingBegun s = false)
    (hr : ∀ k, srcRead .readByte 0 k s = .error r) : finishReadByte s = .error r := by
  rw [finishReadByte, hp, hr, flow_error_bind]
  rfl

/-- A read that does not return ends the step with what the read answers. -/
theorem exec_of_blocked {i : Instr} {s : State} {r : Result} (h : AtRead s i)
    (hr : ∀ k, srcRead i s.delivered k s = .error r) : exec i s = r := by
  cases h with
  | peek _ _ hreg hcount hn hd =>
    rw [hd] at hr
    rw [exec_peek_eq hreg hcount, ensure_of_read hn, hr, flow_error_bind, flow_error_bind, runCommand_error]
  | decode _ _ hreg hcount hn hd =>
    rw [hd] at hr
    rw [exec_decode_eq hreg hcount, ensure_of_read hn, hr, flow_error_bind, flow_error_bind, runCommand_error]
  | readBytes _ hz hroom hp =>
    rw [exec_readBytes_of_no_bits hz, finishReadBytes_of_blocked hroom hp hr, runCommand_error]
  | readByte hz hp hd =>
    rw [hd] at hr
    rw [exec_readByte_of_no_bits hz, finishReadByte_of_blocked hp hr, runCommand_error]

/-- One step of a wait counts it down by one. -/
theorem srcRead_steps_succ {i : Instr} {n k w : Nat} {ws : List Wait} {s : State}
    (hw : s.src.waits = .steps (w + 1) :: ws) :
    srcRead i n k s = .error (.next (waiting i n (.steps w :: ws) s)) := by
  rw [srcRead, hw]

theorem srcRead_forever {i : Instr} {n k : Nat} {ws : List Wait} {s : State} (hw : s.src.waits = .forever :: ws) :
    srcRead i n k s = .error (.next (waiting i n (.forever :: ws) s)) := by
  rw [srcRead, hw]

/-- A command that already waits is left as it is by waiting on. -/
theorem waiting_self {i : Instr} {s : State} (hb : s.busy = true) (hi : s.inFlight = some i) :
    waiting i s.delivered s.src.waits s = s := by
  rw [waiting, ← hb, ← hi]

/-- The step that goes on with the command in progress. -/
theorem step_resume {i : Instr} {s : State} (hL : s.config.Legal) (hb : s.busy = true) (hi : s.inFlight = some i) :
    step s = exec i s := by
  simp only [step, if_pos hL, hb, hi]

/-! ### A source that never returns -/

theorem feedStops_waits {i : Instr} {count : Nat} {s t : State} (h : FeedStops i count s t)
    (hb : t.busy = true) : t.inFlight = some i ∧ t.delivered = 0 ∧ noRead count t = false ∧ t.regs = s.regs ∧
      t.params = s.params := by
  cases h with
  | waits ws hn => exact ⟨rfl, rfl, hn, rfl, rfl⟩
  | insufficient => cases hb

/-- A command in progress after a step stands at its source read. -/
theorem effect_atRead {i : Instr} {s t : State} (hi : i.isCommand = true) (h : Effect s i t)
    (hb : t.busy = true) : t.inFlight = some i ∧ AtRead t i := by
  cases h with
  | peekStops reg count _ hreg hcount h =>
    obtain ⟨hin, hd, hn, hregs, hparams⟩ := feedStops_waits h hb
    exact ⟨hin, .peek reg count (hregs ▸ hreg) (hparams ▸ hcount) hn hd⟩
  | decodeStops reg count _ hreg hcount h =>
    obtain ⟨hin, hd, hn, hregs, hparams⟩ := feedStops_waits h hb
    exact ⟨hin, .decode reg count (hregs ▸ hreg) (hparams ▸ hcount) hn hd⟩
  | bulkWaits room m _ _ _ hm hz _ hp => exact ⟨rfl, .readBytes room hz hm hp⟩
  | byteWaits _ _ hz _ hp => exact ⟨rfl, .readByte hz hp rfl⟩
  | port _ _ _ _ _ _ hp => rw [hp] at hi; cases hi
  | _ => cases hb

/-- After a step of a block that a host drives, the command in progress stands at its source read. -/
theorem step_atRead {s t : State} (hs : Inv s) (h : step s = .next t) (hb : t.busy = true) :
    ∃ i, t.inFlight = some i ∧ AtRead t i := by
  obtain ⟨hL, hm⟩ := step_next h
  cases hm with
  | resumes i _ hi he =>
    exact ⟨i, effect_atRead (hs.host.2 i hi) (exec_next (legal_tb hL) he) hb⟩
  | stuck hbs hi =>
    have hin := hs.handshake.1
    rw [hbs, hi] at hin
    cases hin
  | idles hbs _ h =>
    rw [h, hbs] at hb
    cases hb
  | runs w rest i _ hw hd he =>
    have hcmd : isCommandWord w = true := hs.host.1 w (by rw [hw]; exact List.mem_cons_self)
    cases w with
    | command c =>
      obtain ⟨-, hi⟩ := Laws.DecodedWellFormed.of_command hd
      exact ⟨i, effect_atRead hi (exec_next (s := acceptWord (.command c) rest s) (legal_tb hL) he) hb⟩
    | regPort p u => cases hcmd
  | rejects w rest e _ hw _ he =>
    have hcmd : isCommandWord w = true := hs.host.1 w (by rw [hw]; exact List.mem_cons_self)
    obtain ⟨c, rfl, rfl⟩ | ⟨p, u, rfl, -⟩ := rejectWord_next he
    · cases hb
    · cases hcmd

/-- A step that changes nothing can be made any number of times. -/
theorem run_of_step_eq_self {s : State} (h : step s = .next s) (k : Nat) :
    Host.Core.run Sys2Proof.core k s = .next s := by
  induction k with
  | zero => rfl
  | succ k ih => rw [run_succ_of_next h, ih]

/-- Settles O10: the blocked command stands at its read, and the read leaves it there. -/
theorem blockedSourceNeverResponds : Obligations.BlockedSourceNeverResponds := by
  intro s t ws k hs h hb hw
  obtain ⟨i, hi, hread⟩ := step_atRead hs h hb
  have hstays : exec i t = .next (waiting i t.delivered (.forever :: ws) t) :=
    exec_of_blocked hread fun _ => srcRead_forever hw
  rw [← hw, waiting_self hb hi] at hstays
  exact run_of_step_eq_self ((step_resume (stepKeepsInvariant s t hs h).legal hb hi).trans hstays) k

/-! ### A source that returns after a wait -/

/-- The command `i`, begun in `s`, makes its source read in `s'` with `n` bytes delivered: where the read blocks,
the command waits there, and resumed with a read that returns it answers what it answers without the wait. -/
structure ReadsIn (i : Instr) (n : Nat) (s s' : State) : Prop where
  config : s'.config = s.config
  resps : s'.resps = s.resps
  atRead : ∀ ws, AtRead (waiting i n ws s') i
  waits : ∀ w ws, exec i (withWaits (.steps (w + 1) :: ws) s) = .next (waiting i n (.steps w :: ws) s')
  resumes : ∀ ws, exec i (waiting i n (.steps 0 :: ws) s') = exec i (withWaits (.steps 0 :: ws) s)

/-- By induction on the wait: each step counts it down, and the last one answers. -/
theorem ReadsIn.run {i : Instr} {n k : Nat} {ws : List Wait} {s s' t : State} (h : ReadsIn i n s s')
    (hL : s.config.Legal) (he : exec i (withWaits (.steps 0 :: ws) s) = .next t) :
    Host.Core.run Sys2Proof.core (k + 1) (waiting i n (.steps k :: ws) s') = .next t := by
  have hstep (w : Nat) : step (waiting i n (.steps w :: ws) s') = exec i (waiting i n (.steps w :: ws) s') :=
    step_resume (by rw [waiting_config, h.config]; exact hL) rfl rfl
  induction k with
  | zero => exact run_succ_of_next (((hstep 0).trans (h.resumes ws)).trans he)
  | succ k ih =>
    have hcount : exec i (waiting i n (.steps (k + 1) :: ws) s') = .next (waiting i n (.steps k :: ws) s') :=
      exec_of_blocked (h.atRead _) fun _ => srcRead_steps_succ rfl
    rw [run_succ_of_next ((hstep (k + 1)).trans hcount), ih]

/-! ### What a command answers does not depend on the handshake -/

/-- `s` with another handshake (R31), which is all that a wait writes but the waits themselves. -/
def withHandshake (busy : Bool) (inFlight : Option Instr) (n : Nat) (s : State) : State :=
  { s with busy := busy, inFlight := inFlight, delivered := n }

theorem waiting_eq_withHandshake (i : Instr) (n : Nat) (ws : List Wait) (s : State) :
    waiting i n ws s = withHandshake true (some i) n (withWaits ws s) := rfl

/-- The counter does not look at the handshake either. -/
theorem addTotal_bind_withHandshake (busy : Bool) (inFlight : Option Instr) (n x : Nat) (s : State)
    {f : State → Flow Result} (hf : ∀ u, f (withHandshake busy inFlight n u) = f u) :
    (addTotal x (withHandshake busy inFlight n s) >>= f) = addTotal x s >>= f := by
  by_cases ht : s.total.toNat + x < 2 ^ 64
  · rw [addTotal_eq ht, addTotal_eq (s := withHandshake busy inFlight n s) ht]
    exact hf { s with total := s.total + BitVec.ofNat 64 x }
  · have hover := Nat.le_of_not_lt ht
    rw [addTotal_overflow hover, addTotal_overflow (s := withHandshake busy inFlight n s) hover]

section Handshake

variable {s : State} (hready : SourceReady s) (busy : Bool) (inFlight : Option Instr) (n : Nat)
include hready

theorem exec_peek_withHandshake (hL : s.config.Legal) (hl : Lockstep s) (hb : DecoderBound s) {reg count : Nat}
    (hreg : reg < s.regs.length) (hcount : count ≤ s.params.maxReq) :
    exec (.peek reg count) (withHandshake busy inFlight n s) = exec (.peek reg count) s := by
  by_cases hs : (supply count s).length = needBytes count s
  · rw [exec_peek_of_supply hL hl hb hreg hcount (.inr hready) hs]
    exact exec_peek_of_supply (s := withHandshake busy inFlight n s) hL hl hb hreg hcount (.inr hready) hs
  · rw [exec_peek_insufficient hL hl hb hreg hcount (.inr hready) hs]
    exact exec_peek_insufficient (s := withHandshake busy inFlight n s) hL hl hb hreg hcount (.inr hready) hs

theorem exec_decode_withHandshake (hL : s.config.Legal) (hl : Lockstep s) (hb : DecoderBound s) {reg count : Nat}
    (hreg : reg < s.regs.length) (hcount : count ≤ s.params.maxReq) :
    exec (.decode reg count) (withHandshake busy inFlight n s) = exec (.decode reg count) s := by
  by_cases hs : (supply count s).length = needBytes count s
  · by_cases ht : s.total.toNat + count < 2 ^ 64
    · rw [exec_decode_of_supply hL hl hb hreg hcount (.inr hready) hs ht]
      exact exec_decode_of_supply (s := withHandshake busy inFlight n s) hL hl hb hreg hcount (.inr hready) hs ht
    · have hover := Nat.le_of_not_lt ht
      rw [exec_decode_overflow hL hl hb hreg hcount (.inr hready) hs hover]
      exact exec_decode_overflow (s := withHandshake busy inFlight n s) hL hl hb hreg hcount (.inr hready) hs hover
  · rw [exec_decode_insufficient hL hl hb hreg hcount (.inr hready) hs]
    exact exec_decode_insufficient (s := withHandshake busy inFlight n s) hL hl hb hreg hcount (.inr hready) hs

theorem finishReadBytes_withHandshake (room d : Nat) :
    finishReadBytes room d (withHandshake busy inFlight n s) = finishReadBytes room d s := by
  cases hread : readsDirectly room d s with
  | false =>
    rw [finishReadBytes_of_buffered hread]
    exact finishReadBytes_of_buffered (t := withHandshake busy inFlight n s) hread
  | true =>
    rw [finishReadBytes_of_read hread hready rfl,
      finishReadBytes_of_read (t := withHandshake busy inFlight n s) hread hready rfl]
    exact addTotal_bind_withHandshake busy inFlight n _ (dstWrite _ { s with src := _ }) fun u => by
      rw [finishBulk_eq, finishBulk_eq]
      rfl

theorem finishReadByte_withHandshake (hp : paddingBegun s = false) :
    finishReadByte (withHandshake busy inFlight n s) = finishReadByte s := by
  have hle := (readCount_le s.params.srcFullRead 1 s.src).trans (sourceReach_le 1 s.src)
  rcases nextBytes_of_le_one hle s.src with hbytes | ⟨b, hbytes⟩
  · rw [finishReadByte_none hp hready rfl hbytes]
    exact finishReadByte_none (s := withHandshake busy inFlight n s) hp hready rfl hbytes
  · by_cases ht : s.total.toNat + 8 < 2 ^ 64
    · rw [finishReadByte_direct hp hready rfl hbytes ht]
      exact finishReadByte_direct (s := withHandshake busy inFlight n s) hp hready rfl hbytes ht
    · have hover := Nat.le_of_not_lt ht
      rw [finishReadByte_overflow hp hready rfl hbytes hover]
      exact finishReadByte_overflow (s := withHandshake busy inFlight n s) hp hready rfl hbytes hover

end Handshake

/-! ### The four commands that read -/

theorem bitCount_lt_of_aligned_empty {s : State} (hz : bitCount 0 (aligned s) = 0) : bitCount 0 s < 8 :=
  Nat.lt_of_not_le fun h8 => absurd hz (aligned_bitCount_pos.mpr h8).ne'

section ReadsIn

variable {s : State} (hL : s.config.Legal) (hl : Lockstep s) (hb : DecoderBound s)
include hL hl hb

theorem peek_readsIn {reg count : Nat} (h0 : s.delivered = 0) (hreg : reg < s.regs.length)
    (hcount : count ≤ s.params.maxReq) (hn : noRead count s = false) : ReadsIn (.peek reg count) 0 s s where
  config := rfl
  resps := rfl
  atRead _ := .peek reg count hreg hcount hn rfl
  waits w ws := by
    have hread : AtRead (withWaits (.steps (w + 1) :: ws) s) (.peek reg count) :=
      .peek reg count hreg hcount hn h0
    rw [exec_of_blocked hread fun _ => srcRead_steps_succ rfl, withWaits_delivered, h0]
    rfl
  resumes ws := exec_peek_withHandshake (s := withWaits (.steps 0 :: ws) s) trivial _ _ _ hL hl hb hreg hcount

theorem decode_readsIn {reg count : Nat} (h0 : s.delivered = 0) (hreg : reg < s.regs.length)
    (hcount : count ≤ s.params.maxReq) (hn : noRead count s = false) : ReadsIn (.decode reg count) 0 s s where
  config := rfl
  resps := rfl
  atRead _ := .decode reg count hreg hcount hn rfl
  waits w ws := by
    have hread : AtRead (withWaits (.steps (w + 1) :: ws) s) (.decode reg count) :=
      .decode reg count hreg hcount hn h0
    rw [exec_of_blocked hread fun _ => srcRead_steps_succ rfl, withWaits_delivered, h0]
    rfl
  resumes ws := exec_decode_withHandshake (s := withWaits (.steps 0 :: ws) s) trivial _ _ _ hL hl hb hreg hcount

theorem readBytes_readsIn {room m : Nat} (h0 : s.delivered = 0) (hm : m = min room (bitCount 0 s / 8))
    (hroom : m < room) (hz : bitCount 0 (drained m (aligned s)) = 0) (hp : paddingBegun s = false)
    (ht : s.total.toNat + (bitCount 0 s % 8 + 8 * m) < 2 ^ 64) :
    ReadsIn (.readBytes room) m s (drained m (aligned s)) where
  config := by rw [drained_config, consumed_config]
  resps := rfl
  atRead _ := .readBytes room hz hroom hp
  waits w ws := by
    rw [exec_readBytes_of_drain (s := withWaits (.steps (w + 1) :: ws) s) hL hl hb h0 hm ht,
      finishReadBytes_of_blocked (s := drained m (aligned (withWaits (.steps (w + 1) :: ws) s))) hroom hp
        fun _ => srcRead_steps_succ rfl]
    rfl
  resumes ws := by
    have hready : SourceReady (drained m (aligned (withWaits (.steps 0 :: ws) s))) := trivial
    rw [exec_readBytes_of_drain (s := withWaits (.steps 0 :: ws) s) hL hl hb h0 hm ht,
      exec_readBytes_of_no_bits (s := waiting _ m _ (drained m (aligned s))) hz]
    exact congrArg runCommand (finishReadBytes_withHandshake hready true (some (.readBytes room)) m room m)

theorem readByte_readsIn (hz : bitCount 0 (aligned s) = 0) (hp : paddingBegun s = false)
    (ht : s.total.toNat + bitCount 0 s % 8 < 2 ^ 64) : ReadsIn .readByte 0 s (aligned s) where
  config := consumed_config _ s
  resps := rfl
  atRead _ := .readByte hz hp rfl
  waits w ws := by
    rw [exec_readByte_of_empty (s := withWaits (.steps (w + 1) :: ws) s) hL hl hb (bitCount_lt_of_aligned_empty hz) ht,
      finishReadByte_of_blocked (s := aligned (withWaits (.steps (w + 1) :: ws) s)) hp
        fun _ => srcRead_steps_succ rfl]
    rfl
  resumes ws := by
    have hready : SourceReady (aligned (withWaits (.steps 0 :: ws) s)) := trivial
    rw [exec_readByte_of_empty (s := withWaits (.steps 0 :: ws) s) hL hl hb (bitCount_lt_of_aligned_empty hz) ht,
      exec_readByte_of_no_bits (s := waiting _ 0 _ (aligned s)) hz]
    exact congrArg runCommand (finishReadByte_withHandshake hready true (some .readByte) 0 hp)

end ReadsIn

/-! ### Which commands read -/

theorem fedState_noRead_of_reads {count : Nat} {s : State}
    (h : (fedState count s).src.reads = s.src.reads + 1) : noRead count s = false := by
  by_contra hn
  rw [fedState_src, if_pos (Bool.not_eq_false _ ▸ hn)] at h
  omega

theorem feedStops_noRead_of_reads {i : Instr} {count : Nat} {s t : State} (h : FeedStops i count s t)
    (hreads : t.src.reads = s.src.reads + 1) : noRead count s = false := by
  cases h with
  | waits _ hn => exact hn
  | insufficient => exact fedState_noRead_of_reads hreads

/-- A drain that leaves no bit and has room left has drained every whole byte. -/
theorem drained_all {s : State} {room m : Nat} (h0 : 0 < s.regs.length) (hm : m < room)
    (hqm : ∀ r ∈ (aligned s).regs, 8 * m ≤ r.q.length) (hz : bitCount 0 (drained m (aligned s)) = 0) :
    m = min room (bitCount 0 s / 8) := by
  have haligned := aligned_bitCount s
  have hdrained : bitCount 0 (drained m (aligned s)) = bitCount 0 (aligned s) - 8 * m := bitCount_discarded rfl 0
  obtain ⟨r, hr, hlen⟩ := bitCount_mem (s := aligned s) (by rwa [consumed_regs, discardedRegs_length])
  have hle := hqm r hr
  omega

/-- A command that ends after a returned read has made its read in one of four ways. -/
theorem effect_readsIn {i : Instr} {ws : List Wait} {s t : State} (hL : s.config.Legal) (hl : Lockstep s)
    (hb : DecoderBound s) (h0 : s.delivered = 0) (h : Effect (withWaits ws s) i t)
    (hreads : t.src.reads = s.src.reads + 1) : ∃ n s', ReadsIn i n s s' := by
  cases h with
  | peekStops reg count _ hreg hcount h =>
    have hn := feedStops_noRead_of_reads (s := withWaits ws s) h hreads
    exact ⟨0, s, peek_readsIn hL hl hb h0 hreg hcount hn⟩
  | peekOk reg count hreg hcount =>
    exact ⟨0, s, peek_readsIn hL hl hb h0 hreg hcount (fedState_noRead_of_reads (s := withWaits ws s) hreads)⟩
  | decodeStops reg count _ hreg hcount h =>
    have hn := feedStops_noRead_of_reads (s := withWaits ws s) h hreads
    exact ⟨0, s, decode_readsIn hL hl hb h0 hreg hcount hn⟩
  | decodeOk reg count hreg hcount =>
    exact ⟨0, s, decode_readsIn hL hl hb h0 hreg hcount (fedState_noRead_of_reads (s := withWaits ws s) hreads)⟩
  | bulkDirect room m j _ _ _ hqm hm hz ht hp =>
    have hroom : m < room := Nat.lt_of_le_of_lt (Nat.le_add_left ..) hm
    have htot : s.total.toNat + bitCount 0 s % 8 + 8 * m + 8 * j < 2 ^ 64 := ht
    exact ⟨m, drained m (aligned s), readBytes_readsIn hL hl hb h0
      (drained_all (s := s) (legal_regs_pos hL) hroom hqm hz) hroom hz hp (by omega)⟩
  | byteNone _ _ hz ht hp => exact ⟨0, aligned s, readByte_readsIn hL hl hb hz hp ht⟩
  | byteDirect _ _ _ _ hz ht hp =>
    have htot : s.total.toNat + bitCount 0 s % 8 + 8 < 2 ^ 64 := ht
    exact ⟨0, aligned s, readByte_readsIn hL hl hb hz hp (by omega)⟩
  | _ => exact absurd hreads (Nat.ne_of_lt (Nat.lt_succ_self _))

/-- Settles O11: the command waits where it makes its read, and the last of the steps resumes it there. -/
theorem waitingIsTransparent : Obligations.WaitingIsTransparent := by
  intro s t i k ws hL hl hb _ h0 _ he hreads
  have hE : Effect (withWaits (.steps 0 :: ws) s) i t := exec_next (s := withWaits _ s) (legal_tb hL) he
  obtain ⟨n, s', h⟩ := effect_readsIn hL hl hb h0 hE hreads
  exact ⟨_, h.waits k ws, rfl, h.resps, h.run hL he⟩

end Sys2Proof.Proofs
end

section
/-! The encoder and the decoder undo each other on the words and the instructions they accept (R63 to R66, R70 to
R72), and R75's examples. -/

namespace Sys2Proof.Proofs

open Sys2Proof.Machine

/-! ### The word of the fields decodes by its fields -/

/-- A word put together from fields in range passes R66's checks of the word exactly where its fields do. -/
theorem decodeCommand_commandWord {opc reg imm : Nat} {i : Instr} (hopc : opc < 16) (hreg : reg < 256)
    (himm : imm < 65536) :
    decodeCommand (commandWord opc reg imm) = .ok i ↔
      commandOf opc reg imm = some i ∧ commandUnusedNonzero i reg imm = false := by
  rw [decodeCommand_ok, opcOf_commandWord hopc, regOf_commandWord hreg, immOf_commandWord himm]
  simp only [rsvOf_commandWord, true_and]

/-- The same for a register-port word and R72's checks. -/
theorem decodeRegPort_regPortWord {port rop cnt : Nat} {data : Byte} {i : Instr} (hrop : rop < 8)
    (hcnt : cnt < 256) :
    decodeRegPort port (regPortWord rop cnt data) = .ok i ↔
      regOpOf port rop cnt data = some i ∧ regOpUnusedNonzero i cnt data = false := by
  rw [decodeRegPort_ok, ropOf_regPortWord hrop, cntOf_regPortWord hcnt, dataOf_regPortWord]
  simp only [rrsvOf_regPortWord, true_and]

/-- Settles O1: each row of R65 and R71 writes its own opcode, its operands in their fields, and 0 elsewhere. -/
theorem decodeOfEncode : Obligations.DecodeOfEncode := by
  intro i hi
  cases i with
  | peek reg count | decode reg count =>
    obtain ⟨hreg, hcount⟩ : reg < 256 ∧ count < 65536 := by simpa [Instr.wellFormed] using hi
    exact (decodeCommand_commandWord (by decide) hreg hcount).mpr ⟨rfl, rfl⟩
  | readBytes room =>
    have hroom : room < 65536 := by simpa [Instr.wellFormed] using hi
    exact (decodeCommand_commandWord (by decide) (by decide) hroom).mpr ⟨rfl, rfl⟩
  | align | readByte | totalIn | clear | reset => rfl
  | rPeek port count | rDiscard port count =>
    have hcount : count < 256 := by simpa [Instr.wellFormed] using hi
    exact (decodeRegPort_regPortWord (by decide) hcount).mpr ⟨rfl, rfl⟩
  | rFeed port data => exact (decodeRegPort_regPortWord (by decide) (by decide)).mpr ⟨rfl, rfl⟩
  | rCount port | rClear port => rfl

/-! ### The instruction of the fields encodes to its fields -/

/-- An instruction of R65's map whose unused fields are 0 holds all the fields of its word. -/
theorem encode_of_commandOf {opc reg imm : Nat} {i : Instr} (hi : commandOf opc reg imm = some i)
    (hu : commandUnusedNonzero i reg imm = false) : encode i = .command (commandWord opc reg imm) := by
  unfold commandOf at hi
  split at hi <;> cases hi
  case h_1 | h_2 => rfl
  case h_4 =>
    have hreg : reg = 0 := by simpa [commandUnusedNonzero] using hu
    rw [hreg]
    rfl
  all_goals
    obtain ⟨hreg, himm⟩ : reg = 0 ∧ imm = 0 := by simpa [commandUnusedNonzero] using hu
    rw [hreg, himm]
    rfl

/-- An operation of R71's map whose unused fields are 0 holds all the fields of its word. -/
theorem encode_of_regOpOf {port rop cnt : Nat} {data : Byte} {i : Instr}
    (hi : regOpOf port rop cnt data = some i) (hu : regOpUnusedNonzero i cnt data = false) :
    encode i = .regPort port (regPortWord rop cnt data) := by
  unfold regOpOf at hi
  split at hi <;> cases hi
  case h_1 =>
    have hcnt : cnt = 0 := by simpa [regOpUnusedNonzero] using hu
    rw [hcnt]
    rfl
  case h_2 | h_3 =>
    have hdata : data = 0 := by simpa [regOpUnusedNonzero] using hu
    rw [hdata]
    rfl
  all_goals
    obtain ⟨hcnt, hdata⟩ : cnt = 0 ∧ data = 0 := by simpa [regOpUnusedNonzero] using hu
    rw [hcnt, hdata]
    rfl

/-- Settles O2: an accepted word has its reserved field 0, so it is the word of its other fields. -/
theorem encodeOfDecode : Obligations.EncodeOfDecode := by
  intro w i h
  cases w with
  | command w =>
    obtain ⟨hi, hrsv, hu⟩ := decodeCommand_ok.mp h
    rw [encode_of_commandOf hi hu, commandWord_fields hrsv]
  | regPort port u =>
    obtain ⟨hi, hrsv, hu⟩ := decodeRegPort_ok.mp h
    rw [encode_of_regOpOf hi hu, regPortWord_fields hrsv]

/-- Settles O3: the accepted words are the encodings of their instructions; the two rejected words and the lines
are evaluated. -/
theorem encodingExamples : Obligations.EncodingExamples :=
  ⟨decodeOfEncode (.decode 0 4) rfl, decodeOfEncode (.peek 1 13) rfl, decodeOfEncode (.decode 0 32) rfl,
    decodeOfEncode (.readBytes 16) rfl, decodeOfEncode .readByte rfl, decodeOfEncode .totalIn rfl,
    decodeOfEncode (.rFeed 0 0xA5) rfl, decodeOfEncode (.rPeek 0 4) rfl, by decide⟩

end Sys2Proof.Proofs
end

section
/-! What is answered to a word that is no instruction (R66, R67, R72), and to PEEK and DECODE with an operand that
the block's configuration does not allow (R66's last two checks). -/

namespace Sys2Proof.Proofs

open Sys2Proof.Machine

/-! ### Which words the decoder rejects, and why -/

/-- The reserved opcodes (R67). -/
theorem commandOf_eq_none {opc reg imm : Nat} : commandOf opc reg imm = none ↔ opc = 0 ∨ 9 ≤ opc := by
  unfold commandOf
  split
  case h_9 =>
    simp only [imp_false, true_iff] at *
    omega
  all_goals simp

/-- The reserved register operations (R71). -/
theorem regOpOf_eq_none {port rop cnt : Nat} {data : Byte} :
    regOpOf port rop cnt data = none ↔ rop = 0 ∨ 6 ≤ rop := by
  unfold regOpOf
  split
  case h_6 =>
    simp only [imp_false, true_iff] at *
    omega
  all_goals simp

/-- Which fields a command of R65's map leaves unused. -/
theorem commandUnusedNonzero_iff {opc reg imm : Nat} {i : Instr} (h : commandOf opc reg imm = some i) :
    commandUnusedNonzero i reg imm = true ↔
      (opc ∉ [1, 2, 4] ∧ (reg ≠ 0 ∨ imm ≠ 0)) ∨ (opc = 4 ∧ reg ≠ 0) := by
  unfold commandOf at h
  split at h <;> cases h <;> simp [commandUnusedNonzero]

/-- Which fields an operation of R71's map leaves unused. -/
theorem regOpUnusedNonzero_iff {port rop cnt : Nat} {data : Byte} {i : Instr}
    (h : regOpOf port rop cnt data = some i) :
    regOpUnusedNonzero i cnt data = true ↔
      (rop = 1 ∧ cnt ≠ 0) ∨ (rop ∈ [2, 3] ∧ data ≠ 0) ∨ (rop ∈ [4, 5] ∧ (cnt ≠ 0 ∨ data ≠ 0)) := by
  unfold regOpOf at h
  split at h <;> cases h <;> simp [regOpUnusedNonzero]

theorem decodeCommand_illegalOpcode {w : CommandWord} (h : opcOf w = 0 ∨ 9 ≤ opcOf w) :
    decodeCommand w = .error .illegalOpcode := by
  simp only [decodeCommand, commandOf_eq_none.mpr h]

theorem decodeRegPort_illegalOpcode {port : Nat} {u : RegPortWord} (h : ropOf u = 0 ∨ 6 ≤ ropOf u) :
    decodeRegPort port u = .error .illegalOpcode := by
  simp only [decodeRegPort, regOpOf_eq_none.mpr h]

/-- R66's third and fourth checks, behind a legal opcode. -/
theorem decodeCommand_reservedNonzero {w : CommandWord} {i : Instr}
    (hi : commandOf (opcOf w) (regOf w) (immOf w) = some i)
    (h : rsvOf w ≠ 0 ∨ commandUnusedNonzero i (regOf w) (immOf w) = true) :
    decodeCommand w = .error .reservedNonzero := by
  simp only [decodeCommand, hi]
  split
  · rfl
  · next h0 => rw [if_pos (h.resolve_left h0)]

/-- R72's checks behind a legal operation. -/
theorem decodeRegPort_reservedNonzero {port : Nat} {u : RegPortWord} {i : Instr}
    (hi : regOpOf port (ropOf u) (cntOf u) (dataOf u) = some i)
    (h : rrsvOf u ≠ 0 ∨ regOpUnusedNonzero i (cntOf u) (dataOf u) = true) :
    decodeRegPort port u = .error .reservedNonzero := by
  simp only [decodeRegPort, hi]
  split
  · rfl
  · next h0 => rw [if_pos (h.resolve_left h0)]

/-! ### The step that takes such a word -/

theorem step_reject {s : State} {w : PortWord} {rest : List PortWord} {e : DecodeError} (hL : s.config.Legal)
    (hb : s.busy = false) (hw : s.words = w :: rest) (hd : decode w = .error e) :
    step s = rejectWord w e (acceptWord w rest s) := by
  rw [step_accept hL hb hw, hd]

theorem step_reject_command {s : State} {w : CommandWord} {rest : List PortWord} {e : DecodeError}
    (hL : s.config.Legal) (hb : s.busy = false) (hw : s.words = .command w :: rest)
    (hd : decodeCommand w = .error e) :
    step s = .next (answered 1 (usageCode (Machine.decodeUsage e)) { s with words := rest }) :=
  step_reject hL hb hw hd

theorem onPort_error {s : State} {p : Nat} {u : Usage} (hp : p < s.regs.length) :
    onPort p (fun _ => .error u) s = .next (portAnswered p 1 (usageCode u) s) := by
  simp only [onPort, List.getElem?_eq_getElem hp]
  rfl

theorem step_reject_regPort {s : State} {p : Nat} {u : RegPortWord} {rest : List PortWord} {e : DecodeError}
    (hL : s.config.Legal) (hb : s.busy = false) (hw : s.words = .regPort p u :: rest)
    (hp : p < s.regs.length) (hd : decodeRegPort p u = .error e) :
    step s = .next (portAnswered p 1 (usageCode (Machine.decodeUsage e)) { s with words := rest }) :=
  (step_reject hL hb hw hd).trans (onPort_error (s := { s with words := rest }) hp)

/-- Settles O4: a reserved opcode, or a legal one with a field that must be 0 and is not. -/
theorem illegalCommandAnswered : Obligations.IllegalCommandAnswered := by
  intro s w rest hL ⟨hb, _, _⟩ hw
  refine ⟨fun hopc => ?_, fun hlo hhi hfields => ?_⟩
  · rw [← opcOf_eq] at hopc
    exact step_reject_command hL hb hw (decodeCommand_illegalOpcode hopc)
  · obtain ⟨i, hi⟩ : ∃ i, commandOf (opcOf w) (regOf w) (immOf w) = some i := by
      rw [← Option.ne_none_iff_exists', ne_eq, commandOf_eq_none, opcOf_eq]
      omega
    refine step_reject_command hL hb hw (decodeCommand_reservedNonzero hi ?_)
    have habove : w.toNat / 256 ≠ 0 → regOf w ≠ 0 ∨ immOf w ≠ 0 := by
      have := w.isLt
      rw [regOf_eq, immOf_eq]
      omega
    rw [commandUnusedNonzero_iff hi, rsvOf_eq, opcOf_eq]
    rcases hfields with hrsv | ⟨hopc, hne⟩ | ⟨hopc, hne⟩
    · exact .inl hrsv
    · exact .inr (.inl ⟨hopc, habove hne⟩)
    · exact .inr (.inr ⟨hopc, by rwa [regOf_eq]⟩)

/-- `DATA` is 0 exactly where the bits of the word above bit 15 are. -/
theorem dataOf_ne_zero {u : RegPortWord} : dataOf u ≠ 0 ↔ u.toNat / 65536 ≠ 0 := by
  have hlt := u.isLt
  have hzero : (0 : Byte).toNat = 0 := rfl
  rw [ne_eq, ← BitVec.toNat_inj, dataOf_toNat, hzero]
  omega

/-- Settles O6: a reserved operation, or a legal one with a field that must be 0 and is not. -/
theorem illegalRegPortAnswered : Obligations.IllegalRegPortAnswered := by
  intro s p u rest hL ⟨hb, _, _⟩ hw hp
  refine ⟨fun hrop => ?_, fun hlo hhi hfields => ?_⟩
  · rw [← ropOf_eq] at hrop
    exact step_reject_regPort hL hb hw hp (decodeRegPort_illegalOpcode hrop)
  · obtain ⟨i, hi⟩ : ∃ i, regOpOf p (ropOf u) (cntOf u) (dataOf u) = some i := by
      rw [← Option.ne_none_iff_exists', ne_eq, regOpOf_eq_none, ropOf_eq]
      omega
    refine step_reject_regPort hL hb hw hp (decodeRegPort_reservedNonzero hi ?_)
    have habove : u.toNat / 256 ≠ 0 → u.toNat / 256 % 256 ≠ 0 ∨ u.toNat / 65536 ≠ 0 := by omega
    rw [regOpUnusedNonzero_iff hi, dataOf_ne_zero, rrsvOf_eq, ropOf_eq, cntOf_eq]
    rcases hfields with hrsv | hcnt | hdata | ⟨hrop, hne⟩
    · exact .inl hrsv
    · exact .inr (.inl hcnt)
    · exact .inr (.inr (.inl hdata))
    · exact .inr (.inr (.inr ⟨hrop, habove hne⟩))

/-! ### The range checks of PEEK and DECODE -/

theorem bitCommandCheck_absent {s : State} {reg count : Nat} (h : s.regs.length ≤ reg) :
    bitCommandCheck reg count s = some .regIndexRange := if_pos h

theorem bitCommandCheck_tooMany {s : State} {reg count : Nat} (hreg : reg < s.regs.length)
    (h : s.params.maxReq < count) : bitCommandCheck reg count s = some .countRange := by
  rw [bitCommandCheck, if_neg (Nat.not_le.mpr hreg), if_pos h]

/-- A failed range check ends PEEK and DECODE with its subcause. -/
theorem exec_of_bitCommandCheck {s : State} {reg count : Nat} {u : Usage}
    (h : bitCommandCheck reg count s = some u) :
    exec (.peek reg count) s = .next (answered 1 (usageCode u) s) ∧
      exec (.decode reg count) s = .next (answered 1 (usageCode u) s) := by
  constructor
  · simp only [exec, execPeek, h]
    rfl
  · simp only [exec, execDecode, h]
    rfl

/-- Settles O5: the index is checked first, then the count. -/
theorem rangeCheckAnswered : Obligations.RangeCheckAnswered := fun _ _ _ =>
  ⟨fun hreg => exec_of_bitCommandCheck (bitCommandCheck_absent hreg),
    fun hreg hcount => exec_of_bitCommandCheck (bitCommandCheck_tooMany hreg hcount)⟩

end Sys2Proof.Proofs
end

section
/-! How a step takes a word or goes on with a command, and what it answers (R61, R62, R69). -/

namespace Sys2Proof.Proofs

open Sys2Proof.Machine

/-! ### What a step runs -/

/-- At a free port, taking a word leaves `BUSY` as the kind of the word says. -/
theorem acceptWord_eq {s : State} (hb : s.busy = false) (w : PortWord) (rest : List PortWord) :
    acceptWord w rest s = { s with words := rest, busy := isCommandWord w } := by
  cases w with
  | command w => rfl
  | regPort p u => rw [isCommandWord, ← hb]; rfl

/-- Settles O7: the decoder answers well-formed instructions only, and the word taken sets `BUSY` by its kind. -/
theorem stepRunsDecoded : Obligations.StepRunsDecoded := by
  intro s w rest i hL hb hw hd
  obtain ⟨hwf, -⟩ := Laws.DecodedWellFormed.of_decode i w hd
  exact ⟨hwf, by rw [step_accept hL hb hw, hd, acceptWord_eq hb]⟩

theorem step_idle {s : State} (hL : s.config.Legal) (hb : s.busy = false) (hw : s.words = []) :
    step s = .next s := by
  simp only [step, if_pos hL, hb, hw]

/-- Settles O8: `BUSY` and the presented words choose the step's branch. -/
theorem stepResumesOrIdles : Obligations.StepResumesOrIdles := fun _ hL =>
  ⟨fun _ hb hi => step_resume hL hb hi, step_idle hL⟩

/-! ### What an instruction answers -/

/-- The statuses an instruction may answer, with their values (R69, R107, R108). -/
inductive MayAnswer (i : Instr) : Status → BitVec 64 → Prop where
  | ok (v : BitVec 64) : MayAnswer i .ok v
  | usage (v : BitVec 64) : MayAnswer i .usage v
  | insufficient (hi : (∃ reg count, i = .peek reg count) ∨ ∃ reg count, i = .decode reg count) :
      MayAnswer i .insufficient 0
  | eos (hi : i = .readByte ∨ ∃ room, i = .readBytes room) : MayAnswer i .eos 0

/-- All that an instruction does to the responses: a command waits without one, or ends with one on the command
port; a register-port operation answers on its register's port. -/
inductive AnswerMove (s : State) (i : Instr) (t : State) : Prop where
  | waits (hbusy : t.busy = true) (hin : t.inFlight = some i) (h : t.resps = s.resps)
  | command (st : Status) (v : BitVec 64) (hst : MayAnswer i st v) (hbusy : t.busy = false)
      (hin : t.inFlight = none)
      (h : t.resps = s.resps ++ [{ port := .command, status := statusCode st, value := v }])
  | register (p : Nat) (st : Status) (v : BitVec 64) (hst : MayAnswer i st v) (hi : i.isCommand = false)
      (h : t.resps = s.resps ++ [{ port := .register p, status := statusCode st, value := v }])

/-- A command that responded after it changed anything but the responses. -/
theorem AnswerMove.responded {i : Instr} {s u : State} {st : Status} {v : BitVec 64} (hst : MayAnswer i st v)
    (h : u.resps = s.resps) : AnswerMove s i (responded st v u) :=
  .command st v hst rfl rfl (by rw [responded_resps, h])

theorem feedStops_answerMove {i : Instr} {count : Nat} {s t : State}
    (hi : (∃ reg count, i = .peek reg count) ∨ ∃ reg count, i = .decode reg count)
    (h : FeedStops i count s t) : AnswerMove s i t := by
  cases h with
  | waits => exact .waits rfl rfl rfl
  | insufficient => exact .responded (.insufficient hi) rfl

/-- READBYTES ends with `EOS` or `OK`. -/
theorem readBytes_mayAnswer {room n : Nat} {st : Status} {v : BitVec 64}
    (hst : (st = .eos ∧ v = 0) ∨ (st = .ok ∧ v = BitVec.ofNat 64 n)) : MayAnswer (.readBytes room) st v := by
  obtain ⟨rfl, rfl⟩ | ⟨rfl, rfl⟩ := hst
  · exact .eos (.inr ⟨room, rfl⟩)
  · exact .ok _

theorem effect_answerMove {i : Instr} {s t : State} (h : Effect s i t) : AnswerMove s i t := by
  cases h with
  | peekUsage | decodeUsage => exact .responded (.usage _) rfl
  | peekStops reg count _ _ _ h => exact feedStops_answerMove (.inl ⟨reg, count, rfl⟩) h
  | decodeStops reg count _ _ _ h => exact feedStops_answerMove (.inr ⟨reg, count, rfl⟩) h
  | peekOk | decodeOk | align | byteBuffered | byteDirect | totalIn | clear | reset =>
    exact .responded (.ok _) rfl
  | bulkBuffered _ _ _ _ _ _ _ _ hst | bulkDirect _ _ _ _ _ _ _ _ _ _ _ _ _ hst =>
    exact .responded (readBytes_mayAnswer hst) rfl
  | bulkWaits | byteWaits => exact .waits rfl rfl rfl
  | byteEnd | byteNone => exact .responded (.eos (.inl rfl)) rfl
  | port _ p st v _ _ hi _ _ _ hst =>
    obtain rfl | rfl := hst
    · exact .register p .ok v (.ok v) hi rfl
    · exact .register p .usage v (.usage v) hi rfl

/-- The one response of an instruction that answered one. -/
theorem AnswerMove.mayAnswer {i : Instr} {s t : State} {r : Response} (h : AnswerMove s i t)
    (hr : t.resps = s.resps ++ [r]) : ∃ st, MayAnswer i st r.value ∧ r.status = statusCode st := by
  cases h with
  | waits _ _ h => simp [h] at hr
  | command st v hst _ _ h | register _ st v hst _ h =>
    rw [h, List.append_cancel_left_eq, List.singleton_inj] at hr
    subst hr
    exact ⟨st, hst, rfl⟩

/-- Settles O51, by the four statuses an instruction may answer. -/
theorem statusProducers : Obligations.StatusProducers := by
  intro s t i r hL he hr
  obtain ⟨port, status, value⟩ := r
  obtain ⟨st, hmay, rfl⟩ := (effect_answerMove (exec_next (legal_tb hL) he)).mayAnswer hr
  cases hmay with
  | ok | usage => simp [statusCode]
  | insufficient hi => simp [statusCode, hi]
  | eos hi => simp [statusCode, hi]

/-! ### The handshake -/

/-- A command ends with one response and `BUSY` 0, or waits with `BUSY` 1 and none (R61, R62). -/
def EndsOrWaits (s t : State) : Prop :=
  (t.busy = false ∧ t.inFlight = none ∧
      ∃ st v, t.resps = s.resps ++ [{ port := .command, status := st, value := v }]) ∨
    (t.busy = true ∧ t.inFlight.isSome = true ∧ t.resps = s.resps)

theorem AnswerMove.endsOrWaits {i : Instr} {s t : State} (h : AnswerMove s i t) (hi : i.isCommand = true) :
    EndsOrWaits s t := by
  cases h with
  | waits hbusy hin h => exact .inr ⟨hbusy, by rw [hin]; rfl, h⟩
  | command st v _ hbusy hin h => exact .inl ⟨hbusy, hin, statusCode st, v, h⟩
  | register _ _ _ _ hi' => rw [hi] at hi'; cases hi'

/-- A command keeps the presented words and ends or waits. -/
theorem exec_handshake {i : Instr} {s t : State} (hL : s.config.Legal) (hi : i.isCommand = true)
    (he : exec i s = .next t) : t.words = s.words ∧ EndsOrWaits s t := by
  have hE : Effect s i t := exec_next (legal_tb hL) he
  exact ⟨effect_words hE, (effect_answerMove hE).endsOrWaits hi⟩

/-- In a block that a host drives, the next presented word is a command word. -/
theorem exists_command_of_words {s : State} (hs : HostDriven s) {w : PortWord} {rest : List PortWord}
    (hw : s.words = w :: rest) : ∃ c, w = .command c := by
  have hcmd : isCommandWord w = true := hs.1 w (by rw [hw]; exact List.mem_cons_self)
  cases w with
  | command c => exact ⟨c, rfl⟩
  | regPort p u => cases hcmd

/-- The step that takes a command word runs it or rejects it; either way it ends or waits. -/
theorem step_handshake_of_accept {s t : State} {c : CommandWord} {rest : List PortWord} (hL : s.config.Legal)
    (hb : s.busy = false) (hw : s.words = .command c :: rest) (h : step s = .next t) :
    t.words = rest ∧ EndsOrWaits s t := by
  cases hd : decodeCommand c with
  | ok i =>
    have he : exec i (acceptWord (.command c) rest s) = .next t := by
      rwa [step_accept hL hb hw, decode, hd] at h
    obtain ⟨-, hi⟩ := Laws.DecodedWellFormed.of_command hd
    exact exec_handshake (s := acceptWord (.command c) rest s) hL hi he
  | error e =>
    rw [step_reject_command hL hb hw hd] at h
    cases h
    exact ⟨rfl, .inl ⟨rfl, rfl, _, _, rfl⟩⟩

/-- Settles O9: with `BUSY` 1 the step resumes a command; with `BUSY` 0 it takes the word that is presented. -/
theorem commandHandshake : Obligations.CommandHandshake := by
  intro s t hs h hwork
  cases hb : s.busy with
  | true =>
    obtain ⟨i, hi⟩ : ∃ i, s.inFlight = some i := by
      rw [← Option.isSome_iff_exists, ← hs.handshake.1, hb]
    rw [step_resume hs.legal hb hi] at h
    obtain ⟨hwords, hends⟩ := exec_handshake hs.legal (hs.host.2 i hi) h
    exact ⟨fun _ => hwords, nofun, hends⟩
  | false =>
    obtain ⟨w, rest, hw⟩ := List.exists_cons_of_ne_nil (hwork.resolve_left (by simp [hb]))
    obtain ⟨c, rfl⟩ := exists_command_of_words hs.host hw
    obtain ⟨hwords, hends⟩ := step_handshake_of_accept hs.legal hb hw h
    exact ⟨nofun, fun _ => ⟨c, by rw [hwords, hw]⟩, hends⟩

end Sys2Proof.Proofs
end

section
/-! How a step of a block that a host drives can end: with a next state or with the counter's overflow, never with a
register operation's failure and never refused (R83, R87, R110). -/

namespace Sys2Proof.Proofs

open Sys2Proof.Machine

/-- The ends that R110 leaves to a command from the invariant: a next state, or the counter's overflow. -/
inductive EndsWell : Result → Prop where
  | next (t : State) : EndsWell (.next t)
  | overflow : EndsWell (.fault .totalOverflow)

/-- A part of a command goes on with a value that has `P`, or has ended the command well. -/
inductive GoesWell {α : Type} (P : α → Prop) : Flow α → Prop where
  | ok (a : α) (h : P a) : GoesWell P (.ok a)
  | error (r : Result) (h : EndsWell r) : GoesWell P (.error r)

theorem GoesWell.bind {α β : Type} {P : α → Prop} {Q : β → Prop} {x : Flow α} {f : α → Flow β}
    (hx : GoesWell P x) (hf : ∀ a, P a → GoesWell Q (f a)) : GoesWell Q (x >>= f) := by
  cases hx with
  | ok a h => exact hf a h
  | error r h => exact .error r h

theorem GoesWell.runCommand {x : Flow Result} (hx : GoesWell EndsWell x) : EndsWell (runCommand x) := by
  cases hx with
  | ok r h | error r h => exact h

/-! ### The parts of the commands -/

theorem addTotal_goesWell (x : Nat) (s : State) :
    GoesWell (fun t => t = { s with total := s.total + BitVec.ofNat 64 x }) (addTotal x s) := by
  by_cases ht : s.total.toNat + x < 2 ^ 64
  · rw [addTotal_eq ht]
    exact .ok _ rfl
  · rw [addTotal_overflow (Nat.le_of_not_lt ht)]
    exact .error _ .overflow

theorem srcRead_goesWell (i : Instr) (n k : Nat) (s : State) : GoesWell (fun _ => True) (srcRead i n k s) := by
  by_cases hr : SourceReady s
  · rw [srcRead_eq hr]
    exact .ok _ trivial
  · obtain ⟨ws, hw⟩ := srcRead_not_ready (i := i) (n := n) (k := k) hr
    rw [hw]
    exact .error _ (.next _)

theorem finishReadBytes_goesWell (room d : Nat) (s : State) : GoesWell EndsWell (finishReadBytes room d s) := by
  have hfinish (n : Nat) (t : State) : EndsWell (finishBulk room n t) := by
    rw [finishBulk_eq]
    exact .next _
  unfold finishReadBytes
  split
  · refine (srcRead_goesWell _ _ _ s).bind fun (bytes, s3) _ => ?_
    exact (addTotal_goesWell _ _).bind fun s4 _ => .ok _ (hfinish _ s4)
  · exact .ok _ (hfinish d s)

theorem finishReadByte_goesWell (s : State) : GoesWell EndsWell (finishReadByte s) := by
  unfold finishReadByte
  split
  · exact .ok _ (.next _)
  · refine (srcRead_goesWell _ _ _ s).bind fun (bytes, s2) _ => ?_
    cases bytes with
    | nil => exact .ok _ (.next _)
    | cons b bs => exact (addTotal_goesWell 8 s2).bind fun s3 _ => .ok _ (.next _)

section Registers

variable {s : State} (hL : s.config.Legal) (hl : Lockstep s) (hb : DecoderBound s)
include hL hl hb

/-- R87: within the bound no feed overflows a register, so `Ensure` supplies the bits, runs short, or waits. -/
theorem ensure_goesWell {i : Instr} {count : Nat} (hcount : count ≤ s.params.maxReq) :
    GoesWell (fun t => t = fedState count s ∧ (supply count s).length = needBytes count s) (ensure i count s) := by
  by_cases hw : noRead count s = true ∨ SourceReady s
  · rw [ensure_eq_of_bound hL hl hb hcount hw]
    split
    · next hs => exact .ok _ ⟨rfl, hs⟩
    · exact .error _ (.next _)
  · obtain ⟨hn, hr⟩ := not_or.mp hw
    obtain ⟨ws, hwait⟩ := srcRead_not_ready (i := i) (n := 0) (k := needBytes count s) hr
    rw [ensure_of_read (Bool.eq_false_of_not_eq_true hn), hwait]
    exact .error _ (.next _)

theorem alignAll_goesWell : GoesWell (fun t => t = aligned s) (alignAll s) := by
  by_cases ht : s.total.toNat + bitCount 0 s % 8 < 2 ^ 64
  · rw [alignAll_eq_aligned hL hl hb ht]
    exact .ok _ rfl
  · rw [alignAll_overflow (Nat.le_of_not_lt ht)]
    exact .error _ .overflow

theorem drainBytes_aligned_goesWell (left : Nat) : GoesWell (fun _ => True) (drainBytes left (aligned s)) := by
  have hcap := bitCount_le_cap hL hb
  have hbc := aligned_bitCount s
  cases hd : drainBytes left (aligned s) with
  | ok p => exact .ok p trivial
  | error r =>
    rw [drainBytes_error_lockstep (aligned_lockstep hl) (by omega) (by rw [consumed_params]; omega) hd]
    exact .error _ .overflow

theorem drainByte_aligned_goesWell (h8 : 8 ≤ bitCount 0 s) : GoesWell (fun _ => True) (drainByte (aligned s)) := by
  have hpos : 0 < (aligned s).regs.length := by simpa using legal_regs_pos hL
  have hd : CanDiscard 8 (aligned s) := aligned_canDiscard_byte hL hl hb h8
  by_cases ht : (aligned s).total.toNat + 8 < 2 ^ 64
  · rw [drainByte_eq hpos hd ht]
    exact .ok _ trivial
  · rw [drainByte_overflow hpos hd (Nat.le_of_not_lt ht)]
    exact .error _ .overflow

/-! ### The commands -/

/-- PEEK and DECODE share R66's last two checks: where one fails, the command answers it. -/
theorem exec_bitCommand_endsWell {i : Instr} {reg count : Nat} (hi : i = .peek reg count ∨ i = .decode reg count) :
    EndsWell (exec i s) := by
  cases hc : bitCommandCheck reg count s with
  | some u =>
    obtain ⟨hpeek, hdecode⟩ := exec_of_bitCommandCheck hc
    obtain rfl | rfl := hi
    · rw [hpeek]; exact .next _
    · rw [hdecode]; exact .next _
  | none =>
    obtain ⟨hreg, hcount⟩ := bitCommandCheck_eq_none.mp hc
    obtain rfl | rfl := hi
    · rw [exec_peek_eq hreg hcount]
      refine ((ensure_goesWell hL hl hb hcount).bind fun s1 ⟨h1, hs⟩ => ?_).runCommand
      rw [h1, fedState_peekReg hL hl hreg hcount hs]
      exact .ok _ (.next _)
    · rw [exec_decode_eq hreg hcount]
      refine ((ensure_goesWell hL hl hb hcount).bind fun s1 ⟨h1, hs⟩ => ?_).runCommand
      rw [h1, fedState_peekReg hL hl hreg hcount hs, flow_ok_bind]
      refine (addTotal_goesWell count _).bind fun s2 h2 => ?_
      rw [discardAll_eq (s := s2) (h2 ▸ fedState_canDiscard hL hl hcount hs)]
      exact .ok _ (.next _)

theorem exec_align_endsWell : EndsWell (exec .align s) :=
  ((alignAll_goesWell hL hl hb).bind fun _ _ => .ok _ (.next _)).runCommand

/-- READBYTES, accepted or gone on with after a wait: what it has delivered is only counted on. -/
theorem exec_readBytes_endsWell (room : Nat) : EndsWell (exec (.readBytes room) s) := by
  refine ((alignAll_goesWell hL hl hb).bind fun s1 h1 => ?_).runCommand
  subst h1
  exact (drainBytes_aligned_goesWell hL hl hb _).bind fun (m, s2) _ => finishReadBytes_goesWell room _ s2

theorem exec_readByte_endsWell : EndsWell (exec .readByte s) := by
  by_cases ht : s.total.toNat + bitCount 0 s % 8 < 2 ^ 64
  · by_cases h8 : 8 ≤ bitCount 0 s
    · rw [exec_readByte_of_buffered hL hl hb h8 ht]
      exact ((drainByte_aligned_goesWell hL hl hb h8).bind fun _ _ => .ok _ (.next _)).runCommand
    · rw [exec_readByte_of_empty hL hl hb (Nat.lt_of_not_le h8) ht]
      exact (finishReadByte_goesWell _).runCommand
  · rw [exec_readByte_overflow_of_align (Nat.le_of_not_lt ht)]
    exact .overflow

theorem exec_endsWell {i : Instr} (hi : i.isCommand = true) : EndsWell (exec i s) := by
  cases i with
  | peek reg count => exact exec_bitCommand_endsWell hL hl hb (.inl rfl)
  | decode reg count => exact exec_bitCommand_endsWell hL hl hb (.inr rfl)
  | align => exact exec_align_endsWell hL hl hb
  | readBytes room => exact exec_readBytes_endsWell hL hl hb room
  | readByte => exact exec_readByte_endsWell hL hl hb
  | totalIn | clear | reset => exact .next _
  | rFeed | rPeek | rDiscard | rCount | rClear => cases hi

end Registers

theorem Running.exec_endsWell {i : Instr} {s : State} (h : Running s) (hi : i.isCommand = true) :
    EndsWell (exec i s) :=
  Proofs.exec_endsWell h.legal (lockstep_of_content h.content) h.bound hi

/-- A step goes on with a command, idles, or runs or rejects the next command word. -/
theorem step_endsWell {s : State} (hs : Inv s) : EndsWell (step s) := by
  have hrun : Running s := running_of_inv hs
  cases hb : s.busy with
  | true =>
    obtain ⟨i, hi⟩ : ∃ i, s.inFlight = some i := by
      rw [← Option.isSome_iff_exists, ← hs.handshake.1, hb]
    rw [step_resume hs.legal hb hi]
    exact hrun.exec_endsWell (hs.host.2 i hi)
  | false =>
    cases hw : s.words with
    | nil =>
      rw [step_idle hs.legal hb hw]
      exact .next _
    | cons w rest =>
      obtain ⟨c, rfl⟩ := exists_command_of_words hs.host hw
      cases hd : decodeCommand c with
      | error e =>
        rw [step_reject_command hs.legal hb hw hd]
        exact .next _
      | ok i =>
        obtain ⟨-, hi⟩ := Laws.DecodedWellFormed.of_command hd
        rw [step_accept hs.legal hb hw, decode, hd]
        exact (acceptWord_running hrun hw).exec_endsWell hi

/-- Settles O47: neither a refusal nor another fault is a good end. -/
theorem registerContractNeverBroken : Obligations.RegisterContractNeverBroken := by
  intro s hs
  have hends : EndsWell (step s) := step_endsWell hs
  refine ⟨fun f hf => ?_, fun r hr => ?_⟩
  · rw [hf] at hends
    cases hends
    rfl
  · rw [hr] at hends
    cases hends

end Sys2Proof.Proofs
end

section
/-! The operations of one BitRegister (R76 to R80) and its shift-register form (R82). -/

namespace Sys2Proof.Proofs

open Sys2Proof.Machine

/-! ### What an operation on one register answers -/

theorem fedReg_byte (b : Byte) (r : BitReg) : fedReg [b] r = { r with q := r.q ++ expand r.order b } := by
  rw [fedReg, List.flatMap_singleton]

theorem regFeed_ok {cap : Nat} {b : Byte} {r r' : BitReg} (h : regFeed cap b r = .ok r') :
    r' = { r with q := r.q ++ expand r.order b } := by
  by_cases hfits : r.q.length + 8 ≤ cap
  · rw [regFeed_of_fits b hfits] at h
    cases h
    exact fedReg_byte b r
  · rw [regFeed_of_not_fits b (Nat.lt_of_not_le hfits)] at h
    cases h

/-- The two checks that R.PEEK and R.DISCARD share: an operation that answers has passed both. -/
theorem frontChecks_ok {α : Type} {cap n len : Nat} {a b : α}
    (h : (if n > cap then .error .countRange else if n > len then .error .regUnderflow else .ok a :
      Except Usage α) = .ok b) : n ≤ len ∧ b = a := by
  split at h
  · cases h
  · split at h
    · cases h
    · next hlen =>
      cases h
      exact ⟨Nat.le_of_not_lt hlen, rfl⟩

theorem regPeek_of_cap_lt {cap n : Nat} {r : BitReg} (hc : cap < n) : regPeek cap n r = .error .countRange :=
  if_pos hc

theorem regPeek_of_underflow {cap n : Nat} {r : BitReg} (hc : n ≤ cap) (hq : r.q.length < n) :
    regPeek cap n r = .error .regUnderflow := by
  rw [regPeek, if_neg (Nat.not_lt.mpr hc), if_pos hq]

theorem regPeek_ok {cap n v : Nat} {r : BitReg} (h : regPeek cap n r = .ok v) :
    n ≤ r.q.length ∧ v = bitVal r.order r.q n := frontChecks_ok h

theorem regDiscard_of_cap_lt {cap n : Nat} {r : BitReg} (hc : cap < n) :
    regDiscard cap n r = .error .countRange :=
  if_pos hc

theorem regDiscard_of_underflow {cap n : Nat} {r : BitReg} (hc : n ≤ cap) (hq : r.q.length < n) :
    regDiscard cap n r = .error .regUnderflow := by
  rw [regDiscard, if_neg (Nat.not_lt.mpr hc), if_pos hq]

theorem regDiscard_ok {cap n : Nat} {r r' : BitReg} (h : regDiscard cap n r = .ok r') :
    n ≤ r.q.length ∧ r' = { r with q := r.q.drop n } := frontChecks_ok h

/-! ### The shift register -/

/-- The first `n` digits are the value's remainder, the others its quotient. -/
theorem lsbValue_take_drop {q : List Bool} {n : Nat} (h : n ≤ q.length) :
    lsbValue (q.take n) = lsbValue q % 2 ^ n ∧ lsbValue (q.drop n) = lsbValue q / 2 ^ n := by
  have hlen : (q.take n).length = n := List.length_take_of_le h
  have hlt := lsbValue_lt (q.take n)
  have hval := lsbValue_append (q.take n) (q.drop n)
  rw [hlen] at hlt hval
  rw [List.take_append_drop] at hval
  rw [hval, Nat.add_mul_mod_self_left, Nat.mod_eq_of_lt hlt, Nat.add_mul_div_left _ _ (Nat.two_pow_pos n),
    Nat.div_eq_of_lt hlt, Nat.zero_add]
  exact ⟨rfl, rfl⟩

/-- With `LSB_FIRST` the word's digits are the queue from its front on. -/
theorem shiftOf_lsbFirst (q : List Bool) : shiftOf ⟨.lsbFirst, q⟩ = ⟨.lsbFirst, lsbValue q, q.length⟩ := by
  rw [shiftOf, bitVal, List.take_length]

/-- With `MSB_FIRST` they are the queue from its back on. -/
theorem shiftOf_msbFirst (q : List Bool) :
    shiftOf ⟨.msbFirst, q⟩ = ⟨.msbFirst, lsbValue q.reverse, q.length⟩ := by
  rw [shiftOf, bitVal, List.take_length]

/-- The byte goes above the word's bits with `LSB_FIRST`, below them with `MSB_FIRST`. -/
theorem shiftFeed_shiftOf (b : Byte) (r : BitReg) :
    shiftFeed b (shiftOf r) = shiftOf { r with q := r.q ++ expand r.order b } := by
  obtain ⟨_ | _, q⟩ := r
  · simp only [shiftOf_lsbFirst, shiftFeed, lsbValue_append, lsbValue_expand, List.length_append, expand_length,
      Nat.mul_comm]
  · have hbelow : lsbValue q.reverse * 256 + b.toNat = b.toNat + 2 ^ 8 * lsbValue q.reverse := by ring
    simp only [shiftOf_msbFirst, shiftFeed, List.reverse_append, lsbValue_append, lsbValue_expand_reverse,
      List.length_reverse, List.length_append, expand_length, hbelow]

/-- The front bits are the word's low digits with `LSB_FIRST`, its high ones with `MSB_FIRST`. -/
theorem shiftPeek_shiftOf {n : Nat} {r : BitReg} (h : n ≤ r.q.length) :
    shiftPeek n (shiftOf r) = bitVal r.order r.q n := by
  obtain ⟨_ | _, q⟩ := r
  · rw [shiftOf_lsbFirst, bitVal, (lsbValue_take_drop h).1]
    rfl
  · have hback : q.length - n ≤ q.reverse.length := by simp
    have hfront : bitVal .msbFirst q n = lsbValue q.reverse / 2 ^ (q.length - n) := by
      rw [bitVal, List.reverse_take, (lsbValue_take_drop hback).2]
    rw [shiftOf_msbFirst]
    calc lsbValue q.reverse / 2 ^ (q.length - n) % 2 ^ n
      _ = bitVal .msbFirst q n % 2 ^ n := by rw [hfront]
      _ = bitVal .msbFirst q n := Nat.mod_eq_of_lt (bitVal_lt _ _ _)

/-- The bits behind the front ones are the word's high digits with `LSB_FIRST`, its low ones with `MSB_FIRST`. -/
theorem shiftDiscard_shiftOf {n : Nat} {r : BitReg} (h : n ≤ r.q.length) :
    shiftDiscard n (shiftOf r) = shiftOf { r with q := r.q.drop n } := by
  obtain ⟨_ | _, q⟩ := r
  · rw [shiftOf_lsbFirst, shiftOf_lsbFirst, (lsbValue_take_drop h).2, List.length_drop]
    rfl
  · have hback : q.length - n ≤ q.reverse.length := by simp
    rw [shiftOf_msbFirst, shiftOf_msbFirst, List.reverse_drop, (lsbValue_take_drop hback).1, List.length_drop]
    rfl

theorem shiftClear_shiftOf (r : BitReg) : shiftClear (shiftOf r) = shiftOf (regClear r) := by
  simp only [shiftClear, shiftOf, regClear_order, regClear_q, List.length_nil, bitVal_zero]

/-- Settles O23, one row of R82's table after the other. -/
theorem shiftRegisterRefinesQueue : Obligations.ShiftRegisterRefinesQueue := by
  intro cap r hcap
  refine ⟨fun b r' h => ?_, fun n v h => ?_, fun n r' h => ?_, rfl, shiftClear_shiftOf r, bitVal_lt _ _ _,
    Nat.pow_le_pow_right Nat.two_pos hcap⟩
  · rw [regFeed_ok h, shiftFeed_shiftOf]
  · obtain ⟨hn, rfl⟩ := regPeek_ok h
    exact shiftPeek_shiftOf hn
  · obtain ⟨hn, rfl⟩ := regDiscard_ok h
    exact shiftDiscard_shiftOf hn

/-! ### The register port -/

/-- The word of the fields as one number (R70). -/
theorem regPortWord_eq_ofNat {rop cnt : Nat} (hrop : rop < 8) (hcnt : cnt < 256) (data : Byte) :
    regPortWord rop cnt data = BitVec.ofNat 24 (data.toNat * 65536 + cnt * 256 + rop) := by
  have hword : (regPortWord rop cnt data).toNat = data.toNat * 65536 + cnt * 256 + rop := by
    rw [regPortWord_toNat, Nat.mod_eq_of_lt hcnt, Nat.mod_eq_of_lt hrop]
  rw [← hword, BitVec.ofNat_toNat, BitVec.setWidth_eq]

theorem regPortWord_count {rop cnt : Nat} (hrop : rop < 8) (hcnt : cnt < 256) :
    regPortWord rop cnt 0 = BitVec.ofNat 24 (cnt * 256 + rop) := by
  have hzero : (0 : Byte).toNat = 0 := rfl
  rw [regPortWord_eq_ofNat hrop hcnt, hzero, Nat.zero_mul, Nat.zero_add]

section Port

variable {s : State} {p : Nat} {r : BitReg} (hr : s.regs[p]? = some r)
include hr

theorem onPort_of_ok {op : BitReg → Except Usage (BitVec 64 × BitReg)} {v : BitVec 64} {r' : BitReg}
    (ho : op r = .ok (v, r')) :
    onPort p op s = .next (portAnswered p 0 v { s with regs := s.regs.set p r' }) := by
  simp only [onPort, hr, ho]
  rfl

theorem onPort_of_error {op : BitReg → Except Usage (BitVec 64 × BitReg)} {u : Usage} (ho : op r = .error u) :
    onPort p op s = .next (portAnswered p 1 (usageCode u) s) := by
  simp only [onPort, hr, ho]
  rfl

/-- An operation that gives its register back as it was changes nothing. -/
theorem onPort_of_answer {op : BitReg → Except Usage (BitVec 64 × BitReg)} {v : BitVec 64}
    (ho : op r = .ok (v, r)) : onPort p op s = .next (portAnswered p 0 v s) := by
  obtain ⟨hp, rfl⟩ := List.getElem?_eq_some_iff.mp hr
  rw [onPort_of_ok hr ho, List.set_getElem_self]

end Port

/-- Settles O18: the byte fits, or it does not. -/
theorem registerFeed : Obligations.RegisterFeed := by
  intro s p data r hr
  refine ⟨by rw [encode, regPortWord_eq_ofNat (by decide) (by decide)], fun hfits => ?_, fun hover => ?_⟩ <;>
    rw [exec, execRFeed]
  · exact onPort_of_ok hr (by rw [regFeed_of_fits data hfits, fedReg_byte]; rfl)
  · exact onPort_of_error hr (u := .regOverflow) (by rw [regFeed_of_not_fits data hover]; rfl)

/-- Settles O19: a value of at most `CAP` bits fits the answer; the count's range is checked first. -/
theorem registerPeek : Obligations.RegisterPeek := by
  intro s p n r hcap hr hn
  refine ⟨by rw [encode, regPortWord_count (by decide) hn],
    fun hc hq => ⟨BitVec.ofNat 64 (bitVal r.order r.q n), ?_, ?_⟩, fun hc => ?_, fun hc hq => ?_⟩
  · have hlt : bitVal r.order r.q n < 2 ^ 64 :=
      (bitVal_lt _ _ _).trans_le (Nat.pow_le_pow_right Nat.two_pos (hc.trans hcap))
    rw [BitVec.toNat_ofNat, Nat.mod_eq_of_lt hlt]
  all_goals rw [exec, execRPeek]
  · exact onPort_of_answer hr (by rw [regPeek_of_le hc hq]; rfl)
  · exact onPort_of_error hr (u := .countRange) (by rw [regPeek_of_cap_lt hc]; rfl)
  · exact onPort_of_error hr (u := .regUnderflow) (by rw [regPeek_of_underflow hc hq]; rfl)

/-- Settles O20: the count's range is checked first, then what is buffered. -/
theorem registerDiscard : Obligations.RegisterDiscard := by
  intro s p n r hr hn
  refine ⟨by rw [encode, regPortWord_count (by decide) hn], fun hc hq => ?_, fun hc => ?_, fun hc hq => ?_⟩ <;>
    rw [exec, execRDiscard]
  · exact onPort_of_ok hr (by rw [regDiscard_of_le hc hq]; rfl)
  · exact onPort_of_error hr (u := .countRange) (by rw [regDiscard_of_cap_lt hc]; rfl)
  · exact onPort_of_error hr (u := .regUnderflow) (by rw [regDiscard_of_underflow hc hq]; rfl)

/-- Settles O21: neither operation can fail. -/
theorem registerCountAndClear : Obligations.RegisterCountAndClear := by
  intro s p r hr
  refine ⟨rfl, rfl, fun hlen => ⟨BitVec.ofNat 64 r.q.length, ?_, ?_⟩, ?_⟩
  · rw [BitVec.toNat_ofNat, Nat.mod_eq_of_lt hlen]
  · rw [exec, execRCount]
    exact onPort_of_answer hr rfl
  · rw [exec, execRClear]
    exact onPort_of_ok hr rfl

end Sys2Proof.Proofs
end

section
/-! The bounds of the feed algorithm (R87), and what a command that runs short leaves (R88). -/

namespace Sys2Proof.Proofs

open Sys2Proof.Machine

/-! ### Bounds of the feed -/

/-- An `Ensure` that runs short has fed all the bytes it found. -/
theorem ensure_insufficient {i : Instr} {count : Nat} {s t : State} (hT : s.params.tb.length ≤ 65535)
    (h : ensure i count s = .error (raiseInsufficient t)) :
    (supply count s).length < needBytes count s ∧ t.regs = (fedState count s).regs ∧ t.params = s.params := by
  rcases ensure_error hT h with hfault | ⟨-, -, ws, hwait⟩ | ⟨hlt, -, hshort⟩
  · cases hfault
  · have hbusy := congrArg State.busy (raiseInsufficient_eq_next.mp hwait)
    cases hbusy
  · have hresp : responded .insufficient 0 (fedState count s) = responded .insufficient 0 t :=
      raiseInsufficient_eq_next.mp hshort
    exact ⟨hlt, (congrArg State.regs hresp).symm, (congrArg State.params hresp).symm⟩

/-- Within the decoder's bound `Ensure` ends no command in a fault (R83, R87). -/
theorem ensure_ne_fault {i : Instr} {count : Nat} {s : State} (hL : s.config.Legal) (hl : Lockstep s)
    (hb : DecoderBound s) (hcount : count ≤ s.params.maxReq) (f : Fault) :
    ensure i count s ≠ .error (.fault f) := by
  intro h
  have hwell := ensure_goesWell (i := i) hL hl hb hcount
  rw [h] at hwell
  cases hwell with
  | error _ hend =>
    cases hend
    rcases ensure_error (legal_tb hL) h with hfault | ⟨-, -, ws, hwait⟩ | ⟨-, -, hshort⟩
    · cases hfault
    · cases hwait
    · cases hshort

/-- Registers that a feed within the decoder's bound left are within it, and so within `CAP` (R20). -/
theorem bounds_of_fed_regs {count : Nat} {s t : State} (hL : s.config.Legal) (hl : Lockstep s)
    (hb : DecoderBound s) (hcount : count ≤ s.params.maxReq) (hregs : t.regs = (fedState count s).regs)
    (hp : t.params = s.params) : DecoderBound t ∧ CapacityBound t := by
  have hbound : DecoderBound t := fun r hr => by
    rw [hp]
    exact fedState_decoderBound hl hb hcount r (hregs ▸ hr)
  have hLt : t.config.Legal := legal_congr (by rw [hregs, fedState_orders]) hp.symm hL
  exact ⟨hbound, capacityBound_of_decoderBound hLt hbound⟩

/-- Settles O26: both ends of `Ensure` leave the registers of the feed. -/
theorem ensureBound : Obligations.EnsureBound := by
  intro i count s hL hl
  have hT := legal_tb hL
  have h0 := legal_regs_pos hL
  refine ⟨fun t h => ?_, fun t h => ?_, fun hb hcount => ensure_ne_fault hL hl hb hcount⟩
  · obtain ⟨rfl, henough, -⟩ := ensure_ok hT h
    exact ⟨count_le_fedState h0 henough, fedState_le h0 count,
      fun hb hcount => bounds_of_fed_regs hL hl hb hcount rfl rfl⟩
  · obtain ⟨hshort, hregs, hp⟩ := ensure_insufficient hT h
    refine ⟨?_, fun hb hcount => bounds_of_fed_regs hL hl hb hcount hregs hp⟩
    rw [bitCount_congr hregs]
    exact fedState_lt h0 hshort

/-! ### What `E_INSUFFICIENT` leaves -/

/-- `E_INSUFFICIENT` is answered by a feed that ran short, and by nothing else. -/
theorem effect_insufficient {i : Instr} {s t : State} {v : BitVec 64} (h : Effect s i t)
    (hr : t.resps = s.resps ++ [{ port := .command, status := 2, value := v }]) :
    ∃ count, (supply count s).length < needBytes count s ∧ v = 0 ∧
      t = responded .insufficient 0 (fedState count s) := by
  cases h with
  | peekStops _ count _ _ _ h | decodeStops _ count _ _ _ h =>
    cases h with
    | waits => simp at hr
    | insufficient hlt =>
      obtain rfl : 0 = v := by simpa [statusCode] using hr
      exact ⟨count, hlt, rfl, rfl⟩
  | bulkBuffered _ _ _ _ _ _ _ _ hst | bulkDirect _ _ _ _ _ _ _ _ _ _ _ _ _ hst =>
    obtain ⟨rfl, -⟩ | ⟨rfl, -⟩ := hst
    · simp [statusCode] at hr
    · simp [statusCode] at hr
  | bulkWaits => simp [drained] at hr
  | _ => simp [statusCode] at hr

/-- A feed that runs short takes all that is left of the trailing buffer (R85). -/
theorem trailingSupply_of_short {count : Nat} {s : State} (h : (supply count s).length < needBytes count s) :
    trailingSupply count s = s.params.tb.drop s.cur.toNat := by
  rw [supply, List.length_append, trailingSupply, List.length_take] at h
  rw [trailingSupply, List.take_of_length_le (by omega)]

/-- What a feed takes from the source is gone from it (R50). -/
theorem fedState_advanced (count : Nat) (s : State) :
    ∃ j, Advanced j s.src (fedState count s).src ∧ nextBytes j s.src = sourceSupply count s := by
  cases hn : noRead count s with
  | true =>
    refine ⟨0, ?_, by rw [sourceSupply, hn, nextBytes_zero, if_pos rfl]⟩
    rw [fedState_src, hn, if_pos rfl]
    exact advanced_zero rfl rfl
  | false =>
    refine ⟨readCount s.params.srcFullRead (needBytes count s) s.src, ?_, by simp [sourceSupply, hn]⟩
    rw [fedState_src, hn, if_neg Bool.false_ne_true]
    exact advanced_readCount _ _ _

/-- Settles O27: the feed ran short, so it took the source's bytes and all of the trailing buffer. -/
theorem insufficientKeepsFedBytes : Obligations.InsufficientKeepsFedBytes := by
  intro s t i v hL hc he hr
  obtain ⟨count, hshort, rfl, rfl⟩ := effect_insufficient (exec_next (legal_tb hL) he) hr
  have htrailing := trailingSupply_of_short hshort
  obtain ⟨hcur, -⟩ := fedState_cur_toNat (legal_tb hL) hc count
  obtain ⟨j, hadvanced, hbytes⟩ := fedState_advanced count s
  refine ⟨?_, rfl, rfl, rfl, j, hadvanced, ?_⟩
  · have hle : s.cur.toNat ≤ s.params.tb.length := hc
    rw [responded_cur, hcur, htrailing, List.length_drop, Nat.add_sub_cancel' hle]
  · rw [responded_regs, fedState_regs, supply, htrailing, hbytes]

end Sys2Proof.Proofs
end

section
/-! PEEK and DECODE that were answered `OK`, and either of them where its bits are buffered already (R91, R93). -/

namespace Sys2Proof.Proofs

open Sys2Proof.Machine

/-! ### Answered `OK` -/

/-- A feed that ended its command did not answer `OK`. -/
theorem feedStops_not_ok {i : Instr} {count : Nat} {s t : State} {v : BitVec 64} (h : FeedStops i count s t) :
    t.resps ≠ s.resps ++ [{ port := .command, status := 0, value := v }] := by
  cases h with
  | waits => simp
  | insufficient => simp [statusCode]

section AnsweredOk

variable {s t : State} {reg count : Nat} {v : BitVec 64} (hL : s.config.Legal)
  (hr : t.resps = s.resps ++ [{ port := .command, status := 0, value := v }])
include hL hr

/-- PEEK answered `OK` after a feed that was enough, with the value of register `reg`'s front bits (R89). -/
theorem exec_peek_ok (he : exec (.peek reg count) s = .next t) :
    reg < s.regs.length ∧ count ≤ s.params.maxReq ∧ (supply count s).length = needBytes count s ∧
      v = BitVec.ofNat 64 (frontValue reg count (fedState count s)) ∧ t = answered 0 v (fedState count s) := by
  cases exec_next (legal_tb hL) he with
  | peekUsage => simp [statusCode] at hr
  | peekStops _ _ _ _ _ h => exact absurd hr (feedStops_not_ok h)
  | peekOk _ _ hreg hcount henough =>
    obtain rfl : _ = v := by simpa [statusCode] using hr
    exact ⟨hreg, hcount, henough, rfl, rfl⟩
  | port _ _ _ _ _ _ hi => cases hi

/-- DECODE answered `OK` has discarded and counted its bits after a feed that was enough (R90). -/
theorem exec_decode_ok (he : exec (.decode reg count) s = .next t) :
    reg < s.regs.length ∧ count ≤ s.params.maxReq ∧ (supply count s).length = needBytes count s ∧
      s.total.toNat + count < 2 ^ 64 ∧ t = answered 0 v (consumed count (fedState count s)) := by
  cases exec_next (legal_tb hL) he with
  | decodeUsage => simp [statusCode] at hr
  | decodeStops _ _ _ _ _ h => exact absurd hr (feedStops_not_ok h)
  | decodeOk _ _ hreg hcount henough _ htotal =>
    obtain rfl : _ = v := by simpa [statusCode] using hr
    exact ⟨hreg, hcount, henough, htotal, rfl⟩
  | port _ _ _ _ _ _ hi => cases hi

end AnsweredOk

/-! ### Bits that are there already -/

/-- A request within the buffered bits makes no source read (R85). -/
theorem noRead_of_buffered {count : Nat} {s : State} (h : count ≤ bitCount 0 s) : noRead count s = true := by
  simp [noRead, needBytes_eq_zero.mpr h]

section Buffered

variable {s : State} {reg count : Nat} (hL : s.config.Legal) (hl : Lockstep s) (hb : DecoderBound s)
  (hreg : reg < s.regs.length) (hcount : count ≤ s.params.maxReq) (hbuf : count ≤ bitCount 0 s)
include hL hl hb hreg hcount hbuf

/-- PEEK of buffered bits feeds nothing, so it changes nothing but the responses (R89). -/
theorem exec_peek_buffered :
    exec (.peek reg count) s = .next (answered 0 (BitVec.ofNat 64 (frontValue reg count s)) s) := by
  obtain ⟨hfed, henough⟩ := fedState_of_buffered hbuf
  simpa only [hfed] using exec_peek_of_supply hL hl hb hreg hcount (.inl (noRead_of_buffered hbuf)) henough

/-- DECODE of buffered bits only discards and counts them (R90). -/
theorem exec_decode_buffered (ht : s.total.toNat + count < 2 ^ 64) :
    exec (.decode reg count) s =
      .next (answered 0 (BitVec.ofNat 64 (frontValue reg count s)) (consumed count s)) := by
  obtain ⟨hfed, henough⟩ := fedState_of_buffered hbuf
  simpa only [hfed] using exec_decode_of_supply hL hl hb hreg hcount (.inl (noRead_of_buffered hbuf)) henough ht

end Buffered

/-! ### What PEEK and DECODE leave to the next command -/

/-- Settles O28: after the PEEK its bits are buffered, and its value is that of register `reg`'s front bits. -/
theorem peekIsNonDestructive : Obligations.PeekIsNonDestructive := by
  intro s t reg count v hL hl hb he hr
  obtain ⟨hreg, hcount, henough, rfl, rfl⟩ := exec_peek_ok hL hr he
  have hLt : (fedState count s).config.Legal := by rwa [fedState_config]
  have hlt : Lockstep (fedState count s) := lockstep_fed (legal_regs_pos hL) hl rfl
  have hbt : DecoderBound (fedState count s) := fedState_decoderBound hl hb hcount
  have hregt : reg < (fedState count s).regs.length := by rwa [fedState_regs, List.length_map]
  have hbuf : count ≤ bitCount 0 (fedState count s) := count_le_fedState (legal_regs_pos hL) henough
  exact ⟨exec_peek_buffered (s := answered 0 _ (fedState count s)) hLt hlt hbt hregt hcount hbuf,
    exec_decode_buffered (s := answered 0 _ (fedState count s)) hLt hlt hbt hregt hcount hbuf⟩

/-- Settles O30: every register lost the same bits, so a PEEK through any of them finds the next ones. -/
theorem registerSynchronization : Obligations.RegisterSynchronization := by
  intro s t reg count v hL hl hb he hr k m r hk hm hbuf
  obtain ⟨-, hcount, -, -, rfl⟩ := exec_decode_ok hL hr he
  have hkt : (discardedRegs count (fedState count s))[k]? = some { r with q := r.q.drop count } := by
    rw [discardedRegs, List.getElem?_map, hk, Option.map_some]
  have hcnt : bitCount k (consumed count (fedState count s)) = r.q.length - count := by
    rw [bitCount_discarded (s := fedState count s) rfl, bitCount, hk]
  have hval : frontValue k m (consumed count (fedState count s)) = bitVal r.order (r.q.drop count) m := by
    rw [frontValue, consumed_regs, hkt]
  have hLt : (consumed count (fedState count s)).config.Legal := by rwa [consumed_config, fedState_config]
  have hlt : Lockstep (consumed count (fedState count s)) :=
    lockstep_discarded (s := fedState count s) (lockstep_fed (legal_regs_pos hL) hl rfl) rfl
  have hbt : DecoderBound (consumed count (fedState count s)) :=
    decoderBound_discarded (fedState_decoderBound hl hb hcount) rfl rfl
  have hpeek := exec_peek_buffered (s := answered 0 v (consumed count (fedState count s))) hLt hlt hbt
    (List.getElem?_eq_some_iff.mp hkt).1 hm hbuf
  exact ⟨hkt, hcnt, _, (frontValue_toNat_of_legal hL hm).trans hval, hpeek⟩

/-! ### The trailing buffer behind the source -/

/-- Settles O31: the feed takes the coming bytes, and it finds enough of them exactly where they can be supplied. -/
theorem trailingByteFallback : Obligations.TrailingByteFallback := by
  intro s reg count hL hl hb _ hfull hready hreg hcount
  have hregs : (fedState count s).regs = s.regs.map (fedReg (comingBytes (needBytes count s) s)) := by
    rw [fedState_regs, supply_of_fullRead count hfull]
  have hiff : CanSupply count s ↔ (supply count s).length = needBytes count s := by
    rw [canSupply_iff, supply_of_fullRead count hfull]
  by_cases hsup : CanSupply count s
  · exact ⟨_, exec_peek_of_supply hL hl hb hreg hcount (.inr hready) (hiff.mp hsup), hregs,
      fun _ => ⟨_, rfl⟩, fun hnot => absurd hsup hnot⟩
  · exact ⟨_, exec_peek_insufficient hL hl hb hreg hcount (.inr hready) (mt hiff.mpr hsup), hregs,
      fun h => absurd h hsup, fun _ => rfl⟩

end Sys2Proof.Proofs
end

section
/-! TOTALIN after a sequence of DECODEs (R92). -/

namespace Sys2Proof.Proofs

open Sys2Proof.Machine

/-- A run of instructions goes through the state after the first. -/
theorem execAll_cons_some {i : Instr} {is : List Instr} {s t : State} (h : execAll (i :: is) s = some t) :
    ∃ u, exec i s = .next u ∧ execAll is u = some t := by
  rw [execAll] at h
  split at h
  · next u hu => exact ⟨u, hu, h⟩
  · cases h

/-- A sequence of DECODEs answers no more often than it has commands (R62). -/
theorem execAll_decode_resps {reads : List (Nat × Nat)} {s t : State} (hL : s.config.Legal)
    (h : execAll (reads.map fun p => .decode p.1 p.2) s = some t) :
    ∃ answers, t.resps = s.resps ++ answers ∧ answers.length ≤ reads.length := by
  induction reads generalizing s with
  | nil =>
    cases h
    exact ⟨[], (List.append_nil _).symm, Nat.le_refl 0⟩
  | cons p reads ih =>
    obtain ⟨u, he, hrun⟩ := execAll_cons_some h
    obtain ⟨answers, hresps, hlen⟩ := ih (exec_config hL he ▸ hL) hrun
    obtain ⟨-, ⟨-, -, st, v, hu⟩ | ⟨-, -, hu⟩⟩ := exec_handshake hL rfl he
    · exact ⟨_ :: answers, by rw [hresps, hu, List.append_assoc, List.singleton_append],
        Nat.succ_le_succ hlen⟩
    · exact ⟨answers, by rw [hresps, hu], Nat.le_succ_of_le hlen⟩

/-- By induction on the DECODEs: as many answers as commands leave none that waited, so each was answered `OK` and
counted its bits. -/
theorem execAll_decode_total {reads : List (Nat × Nat)} {s t : State} {answers : List Response}
    (hL : s.config.Legal) (h : execAll (reads.map fun p => .decode p.1 p.2) s = some t)
    (hresps : t.resps = s.resps ++ answers) (hlen : answers.length = reads.length)
    (hok : ∀ r ∈ answers, r.status = 0) : t.total.toNat = s.total.toNat + (reads.map (·.2)).sum := by
  induction reads generalizing s answers with
  | nil =>
    cases h
    rfl
  | cons p reads ih =>
    obtain ⟨u, he, hrun⟩ := execAll_cons_some h
    have hLu : u.config.Legal := exec_config hL he ▸ hL
    obtain ⟨later, hlater, hle⟩ := execAll_decode_resps hLu hrun
    rw [hlater] at hresps
    obtain ⟨-, ⟨-, -, st, v, hu⟩ | ⟨-, -, hu⟩⟩ := exec_handshake hL rfl he
    · rw [hu, List.append_assoc, List.append_cancel_left_eq, List.singleton_append] at hresps
      subst hresps
      obtain ⟨hst, hoklater⟩ := List.forall_mem_cons.mp hok
      obtain rfl : st = 0 := hst
      obtain ⟨-, -, -, htotal, hstate⟩ := exec_decode_ok hL hu he
      have hcounted : u.total.toNat = s.total.toNat + p.2 := by
        rw [hstate]
        exact total_add_toNat htotal
      rw [ih hLu hrun hlater (Nat.succ.inj hlen) hoklater, hcounted, List.map_cons, List.sum_cons, Nat.add_assoc]
    · rw [hu, List.append_cancel_left_eq] at hresps
      rw [← hresps, List.length_cons] at hlen
      omega

/-- The answer to TOTALIN holds the whole number of bytes begun (R27, R101). -/
theorem totalInValue_toNat (s : State) :
    (BitVec.ofNat 64 (totalInValue s)).toNat = (s.total.toNat + 7) / 8 := by
  have hvalue : totalInValue s = (s.total.toNat + 7) / 8 := rfl
  have htotal := s.total.isLt
  rw [hvalue, BitVec.toNat_ofNat]
  exact Nat.mod_eq_of_lt (by omega)

theorem fieldValues_length (s : State) (pos : Nat) (fields : List (Nat × Nat)) :
    (fieldValues s pos fields).length = fields.length := by
  induction fields generalizing pos with
  | nil => rfl
  | cons field fields ih => rw [fieldValues, List.length_cons, List.length_cons, ih]

/-- Settles O29: `TOTAL` is the sum of the counts; and a sequence within what can be supplied answers each field of
the stream. -/
theorem roundTripAccounting : Obligations.RoundTripAccounting := by
  constructor
  · intro s t reads answers hL h0 hrun hresps hlen hok
    have htotal : t.total.toNat = (reads.map (·.2)).sum := by
      simpa [h0] using execAll_decode_total hL hrun hresps hlen hok
    exact ⟨_, by rw [totalInValue_toNat, htotal], rfl⟩
  · intro s reads hL hl hb hc hfull hwaits h0 hreads hsup hsum
    obtain ⟨t, answers, hrun, hresps, hok, hvalues, -⟩ := execAll_decode_streaming
      ⟨hL, hl, hb, hc, hfull, hwaits⟩ hreads hsup (by simpa [h0] using hsum)
    have hlen := congrArg List.length hvalues
    rw [List.length_map, fieldValues_length] at hlen
    exact ⟨t, answers, hrun, hresps, hlen, fun r hr => (hok r hr).2⟩

end Sys2Proof.Proofs
end

section
/-! ALIGN in closed form (R96), and once more after itself (R97). -/

namespace Sys2Proof.Proofs

open Sys2Proof.Machine

/-- ALIGN discards fewer than 8 bits, so it asks no bound on the registers. -/
theorem exec_align_of_lockstep {s : State} (hL : s.config.Legal) (hl : Lockstep s)
    (ht : s.total.toNat + bitCount 0 s % 8 < 2 ^ 64) : exec .align s = .next (answered 0 0 (aligned s)) := by
  have hcap := (legal_cap hL).1
  rw [exec, execAlign, alignAll_eq (canDiscard_of_lockstep hl (by omega) (by omega)) ht]
  rfl

theorem exec_align_overflow {s : State} (ht : 2 ^ 64 ≤ s.total.toNat + bitCount 0 s % 8) :
    exec .align s = .fault .totalOverflow := by
  rw [exec, execAlign, alignAll_overflow ht]
  rfl

/-- Settles O33: the counter holds the sum, or it does not. -/
theorem alignResult : Obligations.AlignResult :=
  ⟨rfl, fun _ hL hl => ⟨exec_align_of_lockstep hL hl, exec_align_overflow⟩⟩

/-- On byte-aligned registers ALIGN finds nothing to discard. -/
theorem exec_align_of_aligned {s : State} (h8 : bitCount 0 s % 8 = 0) :
    exec .align s = .next (answered 0 0 s) := by
  rw [exec, execAlign, alignAll, if_pos h8]
  rfl

/-- Settles O34: the first ALIGN leaves a multiple of 8 bits in every register. -/
theorem alignIsIdempotent : Obligations.AlignIsIdempotent := by
  intro s t hl he
  obtain ⟨-, rfl, -⟩ := execAlign_next he
  have h8 : bitCount 0 (aligned s) % 8 = 0 := by
    rw [aligned_bitCount]
    omega
  refine ⟨exec_align_of_aligned h8, fun r hr => ?_⟩
  rw [aligned_lockstep hl r hr]
  exact h8

end Sys2Proof.Proofs
end

section
/-! The bit path and the bulk path over the same bytes (R100): a byte-aligned queue is a list of bytes, whatever the
bit order, so fields of 8 bits are the bytes that READBYTES moves. -/

namespace Sys2Proof.Proofs

open Sys2Proof.Machine

/-! ### A byte-aligned queue as bytes -/

theorem expand_lsbFirst_lsbValue : ∀ b0 b1 b2 b3 b4 b5 b6 b7 : Bool,
    expand .lsbFirst (BitVec.ofNat 8 (lsbValue [b0, b1, b2, b3, b4, b5, b6, b7])) =
      [b0, b1, b2, b3, b4, b5, b6, b7] := by
  decide

theorem expand_msbFirst_lsbValue : ∀ b0 b1 b2 b3 b4 b5 b6 b7 : Bool,
    expand .msbFirst (BitVec.ofNat 8 (lsbValue [b0, b1, b2, b3, b4, b5, b6, b7].reverse)) =
      [b0, b1, b2, b3, b4, b5, b6, b7] := by
  decide

/-- The byte whose value the first eight bits have expands to them (R11, R12). -/
theorem expand_bitVal {q : List Bool} (o : BitOrder) (h : 8 ≤ q.length) :
    expand o (BitVec.ofNat 8 (bitVal o q 8)) = q.take 8 := by
  obtain ⟨b0, b1, b2, b3, b4, b5, b6, b7, hq⟩ : ∃ b0 b1 b2 b3 b4 b5 b6 b7 : Bool,
      q.take 8 = [b0, b1, b2, b3, b4, b5, b6, b7] := by
    match q, h with
    | b0 :: b1 :: b2 :: b3 :: b4 :: b5 :: b6 :: b7 :: _, _ => exact ⟨b0, b1, b2, b3, b4, b5, b6, b7, rfl⟩
  cases o with
  | lsbFirst => rw [bitVal, hq, expand_lsbFirst_lsbValue]
  | msbFirst => rw [bitVal, hq, expand_msbFirst_lsbValue]

/-- The bytes whose values the successive eights of a queue have expand to the queue. -/
theorem expandAll_bitVal (o : BitOrder) {k : Nat} {q : List Bool} (h : q.length = 8 * k) :
    ((List.range k).map fun m => BitVec.ofNat 8 (bitVal o (q.drop (8 * m)) 8)).flatMap (expand o) = q := by
  induction k generalizing q with
  | zero => exact (List.eq_nil_of_length_eq_zero h).symm
  | succ k ih =>
    have hrest : (q.drop 8).length = 8 * k := by
      rw [List.length_drop]
      omega
    have hlater : (fun m => BitVec.ofNat 8 (bitVal o (q.drop (8 * (m + 1))) 8)) =
        fun m => BitVec.ofNat 8 (bitVal o ((q.drop 8).drop (8 * m)) 8) := by
      funext m
      rw [List.drop_drop, Nat.mul_add, Nat.add_comm]
    rw [List.range_succ_eq_map, List.map_cons, List.map_map, List.flatMap_cons, Function.comp_def]
    simp only [Nat.succ_eq_add_one]
    rw [hlater, ih hrest, Nat.mul_zero, List.drop_zero, expand_bitVal o (by omega), List.take_append_drop]

/-- Register 0, byte-aligned, holds its buffered bytes. -/
theorem expandAll_bufferedBytes {s : State} {r : BitReg} {k : Nat} (hr : s.regs[0]? = some r)
    (h : r.q.length = 8 * k) : (bufferedBytes 0 k s).flatMap (expand r.order) = r.q := by
  rw [bufferedBytes, hr]
  simpa only [Nat.zero_add] using expandAll_bitVal r.order h

theorem bufferedBytes_length {s : State} (h0 : 0 < s.regs.length) (skip k : Nat) :
    (bufferedBytes skip k s).length = k := by
  simp [bufferedBytes, List.getElem?_eq_getElem h0]

theorem bufferedBytes_take (skip n k : Nat) (s : State) :
    (bufferedBytes skip k s).take n = bufferedBytes skip (min n k) s := by
  unfold bufferedBytes
  cases s.regs[0]? with
  | none => exact List.take_nil
  | some r => rw [← List.map_take, List.take_range]

/-! ### Fields of 8 bits -/

/-- The eight bits from bit `8 * m` on of a stream of bytes are byte `m` (R43). -/
theorem bitVal_byte {bs : List Byte} {m : Nat} (o : BitOrder) (hm : m < bs.length) :
    bitVal o ((bs.flatMap (expand o)).drop (8 * m)) 8 = bs[m].toNat := by
  rw [expandAll_drop, List.drop_eq_getElem_cons hm, List.flatMap_cons, bitVal_expand]

section Bytes

variable {s : State} {r : BitReg} {bs : List Byte} (hr : s.regs[0]? = some r)
  (hq : r.q = bs.flatMap (expand r.order))
include hr hq

/-- Successive fields of 8 bits of register 0 are the bytes it holds and then the coming ones. -/
theorem fieldValues_bytes {N m n : Nat} (hN : 8 * (m + n) ≤ N) (hlen : m + n ≤ (bs ++ comingBytes N s).length) :
    fieldValues s (8 * m) (List.replicate n (0, 8)) =
      (((bs ++ comingBytes N s).drop m).take n).map BitVec.toNat := by
  induction n generalizing m with
  | zero => rfl
  | succ n ih =>
    have hm : m < (bs ++ comingBytes N s).length := by omega
    have hstream : streamBits N r s = (bs ++ comingBytes N s).flatMap (expand r.order) := by
      rw [streamBits, hq, List.flatMap_append]
    have hfirst : bitVal r.order ((streamBits (8 * m + 8) r s).drop (8 * m)) 8 =
        ((bs ++ comingBytes N s)[m]).toNat := by
      rw [← bitVal_byte r.order hm, ← hstream]
      exact bitVal_drop_congr r.order (streamBits_take (by omega) (by omega)).symm
    have hlater := ih (m := m + 1) (by omega) (by omega)
    rw [List.replicate_succ, fieldValues, hr, List.drop_eq_getElem_cons hm, List.take_succ_cons, List.map_cons,
      ← hlater, ← hfirst]
    rfl

end Bytes

/-! ### The two paths -/

/-- Where the source has the bytes, they are the coming ones. -/
theorem comingBytes_of_source {s : State} {j : Nat} (hp : paddingBegun s = false)
    (hj : (nextBytes j s.src).length = j) : comingBytes j s = nextBytes j s.src := by
  rw [comingBytes, hp]
  exact List.take_left' hj

/-- What `n` bytes from the buffer and the source are: those buffered as far as wanted, then the source's. -/
def nextWholeBytes (n : Nat) (s : State) : List Byte :=
  bufferedBytes 0 (min n (bitCount 0 s / 8)) s ++ nextBytes (n - min n (bitCount 0 s / 8)) s.src

section Available

variable {s : State} {n : Nat} (hs : Streaming s) (h8 : bitCount 0 s % 8 = 0) (hp : paddingBegun s = false)
  (hn : n ≤ bitCount 0 s / 8 + (nextBytes n s.src).length)
include hn

/-- The source has the bytes that the buffer lacks. -/
theorem nextBytes_length_of_available :
    (nextBytes (n - min n (bitCount 0 s / 8)) s.src).length = n - min n (bitCount 0 s / 8) := by
  rw [← nextBytes_take (Nat.sub_le ..), List.length_take]
  omega

include hs

theorem nextWholeBytes_length : (nextWholeBytes n s).length = n := by
  rw [nextWholeBytes, List.length_append, bufferedBytes_length (legal_regs_pos hs.legal),
    nextBytes_length_of_available hn]
  omega

include hp

/-- The bytes buffered and the coming ones begin with those the buffer and the source hold. -/
theorem take_buffered_coming :
    (bufferedBytes 0 (bitCount 0 s / 8) s ++ comingBytes (8 * n) s).take n = nextWholeBytes n s := by
  rw [List.take_append, bufferedBytes_take, bufferedBytes_length (legal_regs_pos hs.legal),
    comingBytes_take (by omega), nextWholeBytes, ← comingBytes_of_source hp (nextBytes_length_of_available hn),
    show n - bitCount 0 s / 8 = n - min n (bitCount 0 s / 8) by omega]

theorem length_buffered_coming :
    n ≤ (bufferedBytes 0 (bitCount 0 s / 8) s ++ comingBytes (8 * n) s).length := by
  have hlen := congrArg List.length (take_buffered_coming hs hp hn)
  rw [List.length_take, nextWholeBytes_length hs hn] at hlen
  omega

include h8

/-- The bytes of DECODE: its fields of 8 bits. -/
theorem fieldValues_eq_nextWholeBytes :
    fieldValues s 0 (List.replicate n (0, 8)) = (nextWholeBytes n s).map BitVec.toNat := by
  have h0 := legal_regs_pos hs.legal
  have hr := List.getElem?_eq_getElem h0
  have hq : s.regs[0].q.length = 8 * (bitCount 0 s / 8) := by
    rw [hs.lockstep _ (List.getElem_mem h0)]
    omega
  have hlen := length_buffered_coming hs hp hn
  rw [← take_buffered_coming hs hp hn]
  exact fieldValues_bytes (N := 8 * n) (m := 0) hr (expandAll_bufferedBytes hr hq).symm (by omega) (by omega)

theorem canSupply_bytes : CanSupply (8 * n) s := by
  have hlen := length_buffered_coming hs hp hn
  rw [List.length_append, bufferedBytes_length (legal_regs_pos hs.legal)] at hlen
  unfold CanSupply
  omega

/-- The bytes of READBYTES. -/
theorem exec_readBytes_of_available (h0 : s.delivered = 0) (ht : s.total.toNat + 8 * n < 2 ^ 64) :
    ∃ u, exec (.readBytes n) s = .next u ∧ u.dst = s.dst ++ nextWholeBytes n s ∧
      u.total.toNat = s.total.toNat + 8 * n := by
  have hj : n - min n (bitCount 0 s / 8) =
      if readsDirectly n (min n (bitCount 0 s / 8)) s then
        readCount s.params.srcFullRead (n - min n (bitCount 0 s / 8)) s.src
      else 0 := by
    rw [hs.fullRead, readCount_full, ← nextBytes_length, nextBytes_length_of_available hn]
    split
    · rfl
    · next h =>
      have hfull : ¬ min n (bitCount 0 s / 8) < n := by simpa [readsDirectly, hp] using h
      omega
  obtain ⟨hfits, -⟩ := readBytesResult s n 0 _ _ _ hs.legal hs.lockstep hs.bound h0 h8.symm rfl rfl
    (fun _ => hs.sourceReady) hj
  have hsum : 0 + 8 * (min n (bitCount 0 s / 8) + (n - min n (bitCount 0 s / 8))) = 8 * n := by omega
  rw [hsum] at hfits
  exact ⟨_, hfits ht, List.append_assoc .., total_add_toNat ht⟩

end Available

/-- Responses `OK` on the command port are told by their values. -/
theorem eq_okResponses {answers : List Response} {bs : List Byte}
    (hok : ∀ r ∈ answers, r.port = .command ∧ r.status = 0)
    (hvalues : answers.map (·.value.toNat) = bs.map BitVec.toNat) :
    answers = bs.map fun b => { port := .command, status := 0, value := b.setWidth 64 } := by
  have hrebuild : ∀ r ∈ answers, r = { port := .command, status := 0, value := BitVec.ofNat 64 r.value.toNat } := by
    intro r hr
    obtain ⟨hport, hstatus⟩ := hok r hr
    rw [← hport, ← hstatus, BitVec.ofNat_toNat, BitVec.setWidth_eq]
  calc answers
    _ = answers.map fun r => { port := .command, status := 0, value := BitVec.ofNat 64 r.value.toNat } :=
      (List.map_id' answers).symm.trans (List.map_congr_left hrebuild)
    _ = (answers.map (·.value.toNat)).map fun n => { port := .command, status := 0, value := BitVec.ofNat 64 n } := by
      rw [List.map_map]
      rfl
    _ = _ := by
      rw [hvalues, List.map_map]
      exact List.map_congr_left fun b _ => by rw [Function.comp_apply, BitVec.ofNat_toNat]

/-- Settles O39: both paths give the bytes the buffer and the source hold next, and count 8 bits for each. -/
theorem bulkEqualsBitPath : Obligations.BulkEqualsBitPath := by
  intro s n hL hl hb h0 h8 hp hfull hwaits hreq hn ht
  have hcur : CursorBound s := by
    have hzero : s.cur.toNat = 0 := by simpa [paddingBegun_eq] using hp
    rw [CursorBound, hzero]
    exact Nat.zero_le _
  have hs : Streaming s := ⟨hL, hl, hb, hcur, hfull, hwaits⟩
  have hsum : ((List.replicate n (0, 8)).map (·.2)).sum = 8 * n := by
    rw [List.map_replicate, List.sum_replicate, smul_eq_mul, Nat.mul_comm]
  obtain ⟨t, answers, hrun, hresps, hok, hvalues, htotal⟩ := execAll_decode_streaming
    (fields := List.replicate n (0, 8)) hs
    (fun p hmem => by rw [List.eq_of_mem_replicate hmem]; exact ⟨legal_regs_pos hL, hreq⟩)
    (hsum ▸ canSupply_bytes hs h8 hp hn) (hsum ▸ ht)
  obtain ⟨u, hbulk, hdst, hcount⟩ := exec_readBytes_of_available hs h8 hp hn h0 ht
  rw [fieldValues_eq_nextWholeBytes hs h8 hp hn] at hvalues
  rw [List.map_replicate] at hrun
  rw [eq_okResponses hok hvalues] at hresps
  refine ⟨nextWholeBytes n s, t, u, nextWholeBytes_length hs hn, hrun, hresps, hbulk, hdst, ?_⟩
  exact BitVec.eq_of_toNat_eq (by rw [hcount, htotal, hsum])

end Sys2Proof.Proofs
end

section
/-! TOTALIN, CLEAR and RESET (R101 to R103): no check stands before any of them, so each is one equation that holds
from every state. -/

namespace Sys2Proof.Proofs

open Sys2Proof.Machine

/-! ### What each of them answers -/

theorem exec_totalIn (s : State) :
    exec .totalIn s = .next (answered 0 (BitVec.ofNat 64 (totalInValue s)) s) := by
  rw [exec, execTotalIn, respond, responded_eq_answered, statusCode]

theorem exec_clear (s : State) : exec .clear s = .next (answered 0 0 (clearAll s)) := by
  rw [exec, execClear, respond, responded_eq_answered, statusCode]

theorem exec_reset (s : State) :
    exec .reset s = .next (answered 0 0 { clearAll s with cur := 0, total := 0 }) := by
  rw [exec, execReset, respond, responded_eq_answered, statusCode]

/-- R102 through R80: each register keeps its order and loses its bits. -/
theorem clearAll_eq (s : State) :
    clearAll s = { s with regs := s.regs.map fun r => { order := r.order, q := [] } } := rfl

/-! ### The rules -/

/-- Settles O40: a counter of 64 bits holds at most `2^64 - 1` bits, which begin at most `2^61` bytes. -/
theorem totalInResult : Obligations.TotalInResult := by
  refine ⟨rfl, fun s => ⟨_, totalInValue_toNat s, ?_, exec_totalIn s⟩⟩
  have htotal := s.total.isLt
  rw [totalInValue_toNat]
  omega

/-- Settles O41: clearing the registers is all that CLEAR does. -/
theorem clearResult : Obligations.ClearResult := by
  refine ⟨rfl, fun s => ?_⟩
  rw [exec_clear, clearAll_eq]

/-- Settles O42: RESET is CLEAR with both counters set to 0. -/
theorem resetResult : Obligations.ResetResult := by
  refine ⟨rfl, fun s => ?_⟩
  rw [exec_reset, clearAll_eq]

end Sys2Proof.Proofs
end

section
/-! What a step that answers `E_USAGE` leaves unchanged (R106): whatever finds the invalid usage, the decoder, a range
check or a register operation, answers from the state as it stands. -/

namespace Sys2Proof.Proofs

open Sys2Proof.Machine

/-- The state in which `E_USAGE` has been answered on port `p` and nothing else was done. -/
def usageAnswered (p : Port) (v : BitVec 64) (s : State) : State :=
  match p with
  | .command => answered 1 v s
  | .register k => portAnswered k 1 v s

@[simp] theorem usageAnswered_words (p : Port) (v : BitVec 64) (s : State) :
    (usageAnswered p v s).words = s.words := by
  cases p <;> rfl

/-- Answered on the command port, `BUSY` is back at 0 and the words are all that shows a command word was taken; taking
a register-port word never touches `BUSY`. -/
theorem usageAnswered_acceptWord {p : Port} {w : PortWord} (v : BitVec 64) (rest : List PortWord) (s : State)
    (hp : isCommandWord w = true → p = .command) :
    usageAnswered p v (acceptWord w rest s) = usageAnswered p v { s with words := rest } := by
  cases w with
  | command c =>
    obtain rfl := hp rfl
    rfl
  | regPort k u => rfl

section Answers

variable {s t : State} {p : Port} {v : BitVec 64}

/-! ### Who answers `E_USAGE` -/

/-- Of the commands only PEEK and DECODE answer `E_USAGE`, by their range check, before they change anything. -/
theorem effect_usage {i : Instr} (hi : i.isCommand = true) (h : Effect s i t)
    (hr : t.resps = s.resps ++ [{ port := p, status := 1, value := v }]) :
    p = .command ∧ t = usageAnswered p v s := by
  cases h with
  | peekUsage _ _ u | decodeUsage _ _ u =>
    obtain ⟨rfl, rfl⟩ : .command = p ∧ usageCode u = v := by simpa [statusCode] using hr
    exact ⟨rfl, rfl⟩
  | peekStops _ _ _ _ _ h | decodeStops _ _ _ _ _ h =>
    cases h with
    | waits => simp at hr
    | insufficient => simp [statusCode] at hr
  | bulkBuffered _ _ _ _ _ _ _ _ hst | bulkDirect _ _ _ _ _ _ _ _ _ _ _ _ _ hst =>
    obtain ⟨rfl, -⟩ | ⟨rfl, -⟩ := hst
    · simp [statusCode] at hr
    · simp [statusCode] at hr
  | bulkWaits => simp [drained] at hr
  | port _ _ _ _ _ _ hi' => rw [hi] at hi'; cases hi'
  | _ => simp [statusCode] at hr

/-- A register operation that fails leaves its register as it was. -/
theorem onPort_usage {k : Nat} {op : BitReg → Except Usage (BitVec 64 × BitReg)} (h : onPort k op s = .next t)
    (hr : t.resps = s.resps ++ [{ port := p, status := 1, value := v }]) : t = usageAnswered p v s := by
  obtain ⟨r, -, ⟨_, _, -, rfl⟩ | ⟨u, -, rfl⟩⟩ := onPort_next h
  · simp [statusCode] at hr
  · obtain ⟨rfl, rfl⟩ : .register k = p ∧ usageCode u = v := by simpa [statusCode] using hr
    rfl

/-- The instructions of the register ports are register operations on one port. -/
theorem exec_eq_onPort {i : Instr} (hi : i.isCommand = false) (s : State) :
    ∃ k op, exec i s = onPort k op s := by
  cases i with
  | peek | decode | align | readBytes | readByte | totalIn | clear | reset => cases hi
  | rFeed | rPeek | rDiscard => exact ⟨_, _, rfl⟩
  | rCount => rw [exec, execRCount]; exact ⟨_, _, rfl⟩
  | rClear => rw [exec, execRClear]; exact ⟨_, _, rfl⟩

theorem exec_usage {i : Instr} (hL : s.config.Legal) (h : exec i s = .next t)
    (hr : t.resps = s.resps ++ [{ port := p, status := 1, value := v }]) :
    (i.isCommand = true → p = .command) ∧ t = usageAnswered p v s := by
  cases hi : i.isCommand with
  | true =>
    obtain ⟨hp, ht⟩ := effect_usage hi (exec_next (legal_tb hL) h) hr
    exact ⟨fun _ => hp, ht⟩
  | false =>
    obtain ⟨k, op, he⟩ := exec_eq_onPort hi s
    exact ⟨nofun, onPort_usage (he ▸ h) hr⟩

theorem rejectWord_usage {w : PortWord} {e : DecodeError} (h : rejectWord w e s = .next t)
    (hr : t.resps = s.resps ++ [{ port := p, status := 1, value := v }]) :
    (isCommandWord w = true → p = .command) ∧ t = usageAnswered p v s := by
  cases w with
  | command c =>
    obtain rfl := raiseUsage_eq_next.mp h
    obtain ⟨rfl, rfl⟩ : .command = p ∧ usageCode (Machine.decodeUsage e) = v := by
      simpa [statusCode] using hr
    exact ⟨fun _ => rfl, rfl⟩
  | regPort k u =>
    rw [rejectWord] at h
    exact ⟨nofun, onPort_usage h hr⟩

/-! ### The step -/

/-- The command port's decoder answers commands only. -/
theorem isCommand_of_decode {w : PortWord} {i : Instr} (hd : decode w = .ok i) (hw : isCommandWord w = true) :
    i.isCommand = true := by
  cases w with
  | command c => exact (Laws.DecodedWellFormed.of_command hd).2
  | regPort k u => cases hw

/-- The word is taken first, and the answer is given from the state that leaves. -/
theorem step_usage (h : step s = .next t)
    (hr : t.resps = s.resps ++ [{ port := p, status := 1, value := v }]) :
    ∃ ws, t = usageAnswered p v { s with words := ws } := by
  obtain ⟨hL, hm⟩ := step_next h
  cases hm with
  | resumes i _ _ he => exact ⟨s.words, (exec_usage hL he hr).2⟩
  | stuck _ _ h | idles _ _ h => simp [h] at hr
  | runs w rest i _ _ hd he =>
    have hA : (acceptWord w rest s).config.Legal := by rwa [acceptWord_config]
    obtain ⟨hp, ht⟩ := exec_usage hA he (by rwa [acceptWord_resps])
    exact ⟨rest, ht.trans (usageAnswered_acceptWord v rest s fun hw => hp (isCommand_of_decode hd hw))⟩
  | rejects w rest e _ _ _ he =>
    obtain ⟨hp, ht⟩ := rejectWord_usage he (by rwa [acceptWord_resps])
    exact ⟨rest, ht.trans (usageAnswered_acceptWord v rest s hp)⟩

end Answers

/-- Settles O50: whichever part of the step answers, the state is the one before with the word taken. -/
theorem usageChangesNothing : Obligations.UsageChangesNothing := by
  intro s t p v h hr
  obtain ⟨ws, rfl⟩ := step_usage h hr
  rw [usageAnswered_words]
  exact ⟨fun hp => hp ▸ rfl, fun k hp => hp ▸ rfl⟩

end Sys2Proof.Proofs
end
